-- ==== Sys2Proof/Word.lean ====
section
/-! DEFINITION. The word types of the Anoto dot codec core (00_scope.md R7: every register and field is unsigned). -/

namespace Sys2Proof

/-- A register, a bus datum or a command word: 32 bits (10_state.md section 2, 30_encoding.md R80). -/
abbrev Word := BitVec 32

/-- One byte of the matrix RAM as the bus sees it (20_memory.md R63). -/
abbrev Byte := BitVec 8

/-- A window value: N = 6 bits, first bit most significant (41_sequence_lut.md R122). -/
abbrev Window := BitVec 6

/-- A sequence RAM: bit `i` is `s[i]`, for `i` below L = 63 (10_state.md R46). -/
abbrev SeqBits := BitVec 63

/-- The 24-bit payload P of a section (42_encode.md R154). -/
abbrev PayloadBits := BitVec 24

end Sys2Proof
end

