-- ==== Sys2Proof/Config.lean ====
section
/-! DEFINITION. The fixed parameters of the block (00_scope.md R3 to R5), the platform parameter BASE (R6) and the two
free values the spec leaves open: the matrix RAM's content after a reset, and what a matrix read returns while an ENCODE
is in flight. A free value has no body: nothing can be proved of the value itself. -/

namespace Sys2Proof.Config

/-- N, the order: the window length in bits (00_scope.md R3, R5). -/
@[simp] abbrev order : Nat := 6

/-- L = 2^N − 1, the sequence length (00_scope.md R4, R5). -/
@[simp] abbrev seqLen : Nat := 63

/-- 2^W with W = 8: each section coordinate lies below it (00_scope.md R5). -/
@[simp] abbrev sectionLimit : Nat := 256

/-- EXT_ROW, the section extent in rows, equal to L (00_scope.md R5). -/
@[simp] abbrev extRow : Nat := 63

/-- EXT_COL, the section extent in columns, equal to L (00_scope.md R5). -/
@[simp] abbrev extCol : Nat := 63

/-- TILE, the period of the address-cell layout in each axis (00_scope.md R5). -/
@[simp] abbrev tile : Nat := 6

/-- MAX_DIM, the rows and the columns of the matrix RAM (00_scope.md R5, 10_state.md R45). -/
@[simp] abbrev maxDim : Nat := 128

/-- row_base: the section-to-offset table of the rows, 0 for every section (00_scope.md R5, 42_encode.md R150). -/
@[simp] abbrev rowBase (_sy : BitVec 8) : Nat := 0

/-- col_base: the section-to-offset table of the columns, 0 for every section (00_scope.md R5, 42_encode.md R150). -/
@[simp] abbrev colBase (_sx : BitVec 8) : Nat := 0

/-- The size of the aperture: 32 KiB (20_memory.md R60). -/
@[simp] abbrev apertureBytes : Nat := 0x8000

/-- The offset of the matrix RAM in the aperture (20_memory.md R60, R63). -/
@[simp] abbrev matBase : Nat := 0x4000

/-- Which aperture of the bus the platform gave the block: the free value behind BASE (00_scope.md R6). Log 7. -/
opaque baseIndex : Nat

/-- BASE, the bus address of the aperture: a multiple of 0x8000 that the platform chooses (20_memory.md R60). Log 7. -/
def base : Nat := apertureBytes * baseIndex

/-- FREE VALUE. The (A, B) bits (A is bit 0) that the matrix cell at an offset holds after the reset that began an epoch,
until it is written (70_reset_and_hazards.md R260: "every cell is an arbitrary (A, B)"). Arguments: the epoch, the offset.
Log 3. -/
opaque resetCell : Nat → Nat → BitVec 2

/-- FREE VALUE. The (A, B) bits that one host read returns for the cell at an offset while an ENCODE is in flight
(20_memory.md R71: "an unspecified value per cell"). Arguments: the count of such reads before it, the offset. Log 5. -/
opaque busyCell : Nat → Nat → BitVec 2

end Sys2Proof.Config
end

