-- ==== Sys2Proof/Syntax.lean ====
section
/-! DEFINITION. The commands of the block: one constructor per row of spec/opcode_table.json (30_encoding.md R81). A
command word has no operand field (R80), so no constructor has an argument: every operand is a register (R84). -/

namespace Sys2Proof

/-- The six commands of the opcode map (30_encoding.md R81). -/
inductive Instr where
  | nop     -- 0x00000000, 40_command_issue.md R103
  | build   -- 0x00000001, 41_sequence_lut.md R126
  | encode  -- 0x00000002, 42_encode.md R157
  | decpos  -- 0x00000003, 43_decode.md R183
  | decsec  -- 0x00000004, 43_decode.md R189
  | decrot  -- 0x00000005, 43_decode.md R194
  deriving DecidableEq, Repr

end Sys2Proof
end

