-- ==== Sys2Proof/WellFormed.lean ====
section
/-! DEFINITION. Well-formedness. A command has no operand (30_encoding.md R80), so a command as syntax has nothing to
check; what the spec checks is the command WORD: its reserved field (R82) and its opcode (R83). -/

namespace Sys2Proof

/-- Every command is well formed: it has no operand whose range could be exceeded (30_encoding.md R80, R84). -/
def Instr.wellFormed : Instr → Bool
  | .nop => true
  | .build => true
  | .encode => true
  | .decpos => true
  | .decsec => true
  | .decrot => true

/-- The field RSV, bits [31:8] of a command word (30_encoding.md R80). -/
def wordRsv (w : Word) : BitVec 24 := w.extractLsb' 8 24

/-- The field OPCODE, bits [7:0] of a command word (30_encoding.md R80). -/
def wordOpcode (w : Word) : BitVec 8 := w.extractLsb' 0 8

/-- R82: the reserved field of a legal command word is 0. -/
def rsvClear (w : Word) : Bool := wordRsv w == 0

/-- R83: the opcodes 0x06 to 0xFF are reserved. -/
def opcodeAssigned (w : Word) : Bool := decide ((wordOpcode w).toNat < 6)

/-- A legal command word (30_encoding.md R81: the six legal words are 0x00000000 to 0x00000005). -/
def legalWord (w : Word) : Bool := rsvClear w && opcodeAssigned w

end Sys2Proof
end

