-- ==== Sys2Proof/Decode.lean ====
section
/-! DEFINITION. The decoder of a command word, total on every 32-bit word and rejecting by name (30_encoding.md R80 to
R83), and the encoder, written from the opcode map (R81). The word is delivered whole by one 32-bit write to CMD (R80), so
no byte order and no length is decoded. -/

namespace Sys2Proof

/-- Why a command word is no command. -/
inductive DecodeError where
  /-- RSV, bits [31:8], is not 0 (30_encoding.md R82). -/
  | reservedField
  /-- RSV is 0 and OPCODE is one of 0x06 to 0xFF (30_encoding.md R83). -/
  | reservedOpcode
  deriving DecidableEq, Repr

/-- The opcode map (30_encoding.md R81), on OPCODE as a number. -/
def decodeOpcode : Nat → Except DecodeError Instr
  | 0 => .ok .nop
  | 1 => .ok .build
  | 2 => .ok .encode
  | 3 => .ok .decpos
  | 4 => .ok .decsec
  | 5 => .ok .decrot
  | _ => .error .reservedOpcode

/-- Decode a command word: the RSV check comes before the opcode (30_encoding.md R82, 60_exceptions.md R232). -/
def decodeWord (w : Word) : Except DecodeError Instr :=
  if rsvClear w then decodeOpcode (wordOpcode w).toNat else .error .reservedField

/-- The opcode of each command (30_encoding.md R81). -/
def opcodeOf : Instr → BitVec 8
  | .nop => 0x00
  | .build => 0x01
  | .encode => 0x02
  | .decpos => 0x03
  | .decsec => 0x04
  | .decrot => 0x05

/-- The word of a command: RSV = 0 above its opcode (30_encoding.md R80). -/
def encode (i : Instr) : Word := (0 : BitVec 24) ++ opcodeOf i

/-- The instruction the decoder reads from the opcode table's bits: bit 0 is the least significant bit of the word, and
every bit at or above `nbits` is 0. -/
def decodeTableWord (nbits w : Nat) : Option Instr :=
  match decodeWord (BitVec.ofNat 32 (w % 2 ^ nbits)) with
  | .ok i => some i
  | .error _ => none

end Sys2Proof
end

