-- ==== Sys2Proof/Machine/State.lean ====
section
/-! DEFINITION. The state of the block (10_state.md R20) as plain data, the environment's pending transitions beside it
(40_command_issue.md R102), the reasons a step can stop (none), and the state right after reset (70_reset_and_hazards.md
R260). -/

namespace Sys2Proof.Machine

/-- A matrix extent or a shape: MAT_DIM, VIEW_DIM (10_state.md R36, R38). -/
structure Dims where
  rows : BitVec 8
  cols : BitVec 8
  deriving DecidableEq, Repr

/-- The origin of a view: VIEW_ORG (10_state.md R37). -/
structure Origin where
  row0 : BitVec 8
  col0 : BitVec 8
  deriving DecidableEq, Repr

/-- A section address: ARG_SEC, RES_SEC (10_state.md R39, R42). -/
structure SectionAddr where
  sx : BitVec 16
  sy : BitVec 16
  deriving DecidableEq, Repr

/-- A position: ARG_POS, RES_POS (10_state.md R40, R41). -/
structure Position where
  col : BitVec 16
  row : BitVec 16
  deriving DecidableEq, Repr

/-- The two extracted windows: RES_WIN (10_state.md R44). -/
structure WindowPair where
  wa : Window
  wb : Window
  deriving DecidableEq, Repr

/-- One entry of a lookup table (10_state.md R47). -/
structure LutEntry where
  valid : Bool
  index : BitVec 6
  deriving DecidableEq, Repr

/-- A lookup-table RAM: 2^N = 64 entries, one per window value (10_state.md R47). -/
abbrev Lut := Vector LutEntry 64

/-- A cell of a grid: channel A and channel B (10_state.md R45, 43_decode.md R180). -/
structure Dot where
  a : Bool
  b : Bool
  deriving DecidableEq, Repr

/-- The matrix cells written since the last reset, as (offset, byte) pairs with the offsets strictly rising. A cell that
is not listed has no value of its own: it reads as the free value of its epoch (20_memory.md R63, log 3). -/
abbrev Memory := List Host.Cell

/-- The completion codes: exactly the values STATUS.ERRCODE takes (60_exceptions.md R231, log 10). -/
inductive Code where
  | ok                    -- 0x00
  | cfgNotMaximal         -- 0x01
  | cfgLutCollision       -- 0x02
  | cfgSectionRange       -- 0x03
  | tooSmall              -- 0x10
  | invalidWindow         -- 0x11
  | checksumMismatch      -- 0x12
  | ambiguousOrientation  -- 0x13
  | illegalCmd            -- 0x20
  | notBuilt              -- 0x21
  | alreadyBuilt          -- 0x22
  | badView               -- 0x23
  | shapeRange            -- 0x24
  | badArg                -- 0x25
  deriving DecidableEq, Repr

/-- One host access: a read or a write of `n` bytes (40_command_issue.md R102). The address is an offset from BASE or a
bus address, as the event says. Of `data` an n-byte write uses the low n bytes. -/
inductive Access where
  | read (addr n : Nat)
  | write (addr n : Nat) (data : Word)
  deriving DecidableEq, Repr

/-- The order of a host access and an engine completion that fall in one clock cycle (60_exceptions.md R235). -/
inductive CycleOrder where
  | accessFirst
  | completionFirst
  deriving DecidableEq, Repr

/-- The transitions of the block (40_command_issue.md R102), as the environment orders them. -/
inductive Event where
  /-- A host access at an offset from BASE. -/
  | host (a : Access)
  /-- A host access at a bus address (20_memory.md R60). -/
  | bus (a : Access)
  /-- The engine takes its step, if it is enabled. -/
  | engine
  /-- A host access and the engine's step in the same clock cycle. -/
  | coincide (order : CycleOrder) (a : Access)
  /-- The reset input is asserted. -/
  | reset
  deriving DecidableEq, Repr

/-- The response on the bus slave port to a host access (20_memory.md R61, R62). -/
inductive Response where
  /-- No access has been answered yet. -/
  | idle
  /-- The data of an `n`-byte read, zero-extended. -/
  | data (n : Nat) (v : Word)
  /-- A write that got no BusError, performed, ignored or dropped. -/
  | written
  /-- BusError: no data, no state change. -/
  | busError
  deriving DecidableEq, Repr

/-- The state of the block, field by field as 10_state.md R20 lists it (`busy` is `cmd ≠ none`, R27), and below it the
model's own four fields. -/
structure State where
  ctrlIe  : Bool
  done    : Bool
  built   : Bool
  ovr     : Bool
  errcode : Code
  tapsRow : BitVec 6
  seedRow : BitVec 6
  tapsCol : BitVec 6
  seedCol : BitVec 6
  matDim  : Dims
  viewOrg : Origin
  viewDim : Dims
  argSec  : SectionAddr
  argPos  : Position
  resPos  : Position
  resSec  : SectionAddr
  resRot  : BitVec 2
  resWin  : WindowPair
  rowSeq  : SeqBits
  colSeq  : SeqBits
  lutR    : Lut
  lutC    : Lut
  mat     : Memory
  cmd     : Option Word
  -- the model's own: the environment's pending transitions, oldest first (log 1)
  events  : List Event
  -- the model's own: the response of the last host access (log 8)
  resp    : Response
  -- the model's own: how many resets there were, which selects the free matrix content (log 4)
  epoch   : Nat
  -- the model's own: how many matrix reads had a free answer (log 4)
  tick    : Nat
  deriving DecidableEq, Repr

/-- STATUS.BUSY reads as `cmd ≠ none` (10_state.md R27). -/
def State.busy (s : State) : Bool := s.cmd.isSome

/-- A lookup table with every entry invalid (41_sequence_lut.md R124). -/
def Lut.empty : Lut := Vector.replicate 64 { valid := false, index := 0 }

/-- The reasons the machine stops. There is none: every command completes (40_command_issue.md R101), no error stops the
block (60_exceptions.md R233), and a BusError is a response on the bus (20_memory.md R61). -/
inductive Fault where
  deriving DecidableEq, Repr

/-- Why an instruction has no meaning. -/
inductive Refusal where
  /-- Raised by `exec`'s arm of an instruction that is not modelled yet: no arm raises it now. Safe. -/
  | notModelled (mnemonic : String)
  deriving DecidableEq, Repr

/-- The state right after reset (70_reset_and_hazards.md R260). The matrix RAM lists nothing, so every cell is free
(log 3); the sequence and table RAMs are unspecified and unobservable, taken as zero (log 6); the last four fields are the
model's own (log 1, 4, 8). -/
def State.reset : State where
  ctrlIe  := false
  done    := false
  built   := false
  ovr     := false
  errcode := .ok
  tapsRow := 0x30
  seedRow := 0x20
  tapsCol := 0x36
  seedCol := 0x20
  matDim  := { rows := 0, cols := 0 }
  viewOrg := { row0 := 0, col0 := 0 }
  viewDim := { rows := 0, cols := 0 }
  argSec  := { sx := 0, sy := 0 }
  argPos  := { col := 0, row := 0 }
  resPos  := { col := 0, row := 0 }
  resSec  := { sx := 0, sy := 0 }
  resRot  := 0
  resWin  := { wa := 0, wb := 0 }
  rowSeq  := 0
  colSeq  := 0
  lutR    := Lut.empty
  lutC    := Lut.empty
  mat     := []
  cmd     := none
  events  := []
  resp    := .idle
  epoch   := 0
  tick    := 0

end Sys2Proof.Machine
end

