-- ==== Sys2Proof/Machine/Ops.lean ====
section
/-! DEFINITION. The shared operations: bit helpers, the matrix memory and its canonical form, the read of one cell, the end
of a command (60_exceptions.md R230) and the reset transition (70_reset_and_hazards.md R260). The block has no exception
entry and no return from one (60_exceptions.md R233): `finish` is how every error of a command is taken. -/

namespace Sys2Proof.Machine

/-! ### Bits -/

/-- One bit as a number's bit 0, zero-extended to `w` bits. -/
def bitOf (w : Nat) (b : Bool) : BitVec w := (BitVec.ofBool b).setWidth w

/-- The vector whose bit k is the k-th element of the list (bit 0 first). -/
def ofBits (w : Nat) : List Bool → BitVec w
  | [] => 0
  | b :: bs => (ofBits w bs <<< 1) ||| bitOf w b

/-- Pack six bits `f 0` to `f 5` into a window, the first bit most significant (41_sequence_lut.md R122). -/
def packWindow (f : Nat → Bool) : Window :=
  (List.range 6).foldl (fun w k => (w <<< 1) ||| bitOf 6 (f k)) 0

/-- The XOR of all bits of a 6-bit vector (00_scope.md R7). -/
def parity (v : BitVec 6) : Bool :=
  (List.range 6).foldl (fun p k => p ^^ v.getLsbD k) false

/-- The majority of three bits (00_scope.md R7). -/
def maj (x y z : Bool) : Bool := (x && y) || (x && z) || (y && z)

/-- Byte k of a bus datum: bits [8k+7:8k] (20_memory.md R63, R65). -/
def byteOf (v : Word) (k : Nat) : Byte := v.extractLsb' (8 * k) 8

/-- Bytes as a bus datum, the first byte in bits [7:0]: little-endian (20_memory.md R65). -/
def leWord : List Byte → Word
  | [] => 0
  | b :: bs => (leWord bs <<< 8) ||| b.setWidth 32

/-! ### The matrix memory -/

/-- The byte listed at an offset, or none where nothing has been written since the last reset. -/
def Memory.get : Memory → Nat → Option Byte
  | [], _ => none
  | (a, b) :: m, k => if k = a then some b else Memory.get m k

/-- Write one byte, keeping the offsets strictly rising. -/
def Memory.set : Memory → Nat → Byte → Memory
  | [], k, v => [(k, v)]
  | (a, b) :: m, k, v =>
    if k < a then (k, v) :: (a, b) :: m
    else if k = a then (k, v) :: m
    else (a, b) :: Memory.set m k v

/-- Every listed offset is at least `low`, the offsets rise strictly, each lies in the matrix RAM (20_memory.md R60) and
each byte holds only the bits A and B (R63). -/
def Memory.wfFrom : Nat → Memory → Bool
  | _, [] => true
  | low, (a, b) :: m =>
    decide (low ≤ a) && decide (a < Config.apertureBytes) && decide (b.toNat < 4) && Memory.wfFrom (a + 1) m

/-- The canonical form of the matrix memory. An unlisted cell has no value of its own, so no entry can equal it. -/
def Memory.wf (m : Memory) : Bool := Memory.wfFrom Config.matBase m

/-- Write a list of (offset, byte) pairs, the last one first. -/
def Memory.setAll (m : Memory) (cells : List Host.Cell) : Memory :=
  cells.foldr (fun p acc => Memory.set acc p.1 p.2) m

/-- The stored form of a byte written to a cell: bits [7:2] are ignored (20_memory.md R63). -/
def cellMask (b : Byte) : Byte := (b.extractLsb' 0 2).setWidth 8

/-- A cell as the byte of 20_memory.md R63: A is bit 0, B is bit 1. -/
def dotByte (d : Dot) : Byte := bitOf 8 d.a ||| (bitOf 8 d.b <<< 1)

/-- The offset of cell MAT[r][c] (20_memory.md R63). -/
def cellOffset (r c : Nat) : Nat := Config.matBase + 128 * r + c

/-- The bits (A is bit 0, B is bit 1) of the cell at an offset: what was last written to it, or the free value of the
epoch where nothing has been written since the last reset (10_state.md R45, log 3). -/
def cellBits (s : State) (off : Nat) : BitVec 2 :=
  match Memory.get s.mat off with
  | some b => b.extractLsb' 0 2
  | none => Config.resetCell s.epoch off

/-- The byte a read of the cell at an offset returns: bits [7:2] read as 0 (20_memory.md R63). -/
def cellByte (s : State) (off : Nat) : Byte := (cellBits s off).setWidth 8

/-- The cell MAT[r][c] as a pair of channel bits (10_state.md R45). -/
def dotAt (s : State) (r c : Nat) : Dot :=
  { a := (cellBits s (cellOffset r c)).getLsbD 0, b := (cellBits s (cellOffset r c)).getLsbD 1 }

/-- MatRead of 20_memory.md R63: n cells from an offset, little-endian. -/
def matRead (s : State) (off n : Nat) : Word :=
  leWord ((List.range n).map fun k => cellByte s (off + k))

/-- MatWrite of 20_memory.md R63: bits [1:0] of each of the n low bytes go to the cell of that byte. -/
def matWrite (m : Memory) (off n : Nat) (v : Word) : Memory :=
  (List.range n).foldl (fun acc k => Memory.set acc (off + k) (cellMask (byteOf v k))) m

/-- What a read of n cells returns while an ENCODE is in flight: a free value per cell and per read (20_memory.md R71,
log 5). -/
def matReadFree (tick off n : Nat) : Word :=
  leWord ((List.range n).map fun k => (Config.busyCell tick (off + k)).setWidth 8)

/-! ### Completion and reset -/

/-- The state a completion leaves: ERRCODE, DONE and `cmd` are written, nothing else (40_command_issue.md R101). -/
def State.complete (s : State) (c : Code) : State :=
  { s with errcode := c, done := true, cmd := none }

/-- `finish(code)` ends the current command (60_exceptions.md R230). -/
def finish (c : Code) (s : State) : Host.Outcome State Fault Refusal := .next (s.complete c)

/-- The reset transition (70_reset_and_hazards.md R260): every field of the block as after reset, with fresh free matrix
content (the epoch moves on); the environment's events, the last bus response and the read count stay. -/
def State.afterReset (s : State) : State :=
  { State.reset with events := s.events, resp := s.resp, epoch := s.epoch + 1, tick := s.tick }

/-- The bus answers a host access (20_memory.md R61, R62). -/
def State.respond (s : State) (r : Response) : State := { s with resp := r }

/-- A host write dropped because a command is in flight (40_command_issue.md R105, 10_state.md R31). -/
def State.dropWrite (s : State) : State := { s with ovr := true }

/-- Issue: the command word is latched and nothing else changes (40_command_issue.md R100). -/
def State.issue (s : State) (w : Word) : State := { s with cmd := some w }

end Sys2Proof.Machine
end

