-- ==== Sys2Proof/Machine/Operands.lean ====
section
/-! DEFINITION. Operand assembly (30_encoding.md R84): every operand of a command is a field of an operand register, an
unsigned integer with no scaling and no extension of sign; and the view of the decode commands (20_memory.md R64). -/

namespace Sys2Proof.Machine

/-- VIEW_ORG.ROW0 as a number (30_encoding.md R84). -/
def viewRow0 (s : State) : Nat := s.viewOrg.row0.toNat

/-- VIEW_ORG.COL0 as a number (30_encoding.md R84). -/
def viewCol0 (s : State) : Nat := s.viewOrg.col0.toNat

/-- VIEW_DIM.ROWS as a number: the view's rows, and ENCODE's R (30_encoding.md R84). -/
def viewRows (s : State) : Nat := s.viewDim.rows.toNat

/-- VIEW_DIM.COLS as a number: the view's columns, and ENCODE's C (30_encoding.md R84). -/
def viewCols (s : State) : Nat := s.viewDim.cols.toNat

/-- ARG_SEC.SX as a number: ENCODE's sx (30_encoding.md R84). -/
def argSx (s : State) : Nat := s.argSec.sx.toNat

/-- ARG_SEC.SY as a number: ENCODE's sy (30_encoding.md R84). -/
def argSy (s : State) : Nat := s.argSec.sy.toNat

/-- ARG_POS.COL as a number: DECSEC's pc (30_encoding.md R84). -/
def argCol (s : State) : Nat := s.argPos.col.toNat

/-- ARG_POS.ROW as a number: DECSEC's pr (30_encoding.md R84). -/
def argRow (s : State) : Nat := s.argPos.row.toNat

/-- The view lies inside MAT_DIM; both sums are exact (20_memory.md R64). -/
def viewInBounds (s : State) : Bool :=
  decide (viewRow0 s + viewRows s ≤ s.matDim.rows.toNat) && decide (viewCol0 s + viewCols s ≤ s.matDim.cols.toNat)

/-- V(i, j) = MAT[row0 + i][col0 + j], the grid a decode command reads (00_scope.md R9, 20_memory.md R64). -/
def viewDot (s : State) (i j : Nat) : Dot := dotAt s (viewRow0 s + i) (viewCol0 s + j)

end Sys2Proof.Machine
end

