-- ==== Sys2Proof/Machine/Flags.lean ====
section
/-! DEFINITION. The status flags (10_state.md R26 to R31, R51), the completion codes as numbers (60_exceptions.md R231),
write-one-to-clear, and the interrupt output (10_state.md R50). -/

namespace Sys2Proof.Machine

/-- The value of each completion code in STATUS.ERRCODE (60_exceptions.md R231). -/
def Code.byte : Code → BitVec 8
  | .ok => 0x00
  | .cfgNotMaximal => 0x01
  | .cfgLutCollision => 0x02
  | .cfgSectionRange => 0x03
  | .tooSmall => 0x10
  | .invalidWindow => 0x11
  | .checksumMismatch => 0x12
  | .ambiguousOrientation => 0x13
  | .illegalCmd => 0x20
  | .notBuilt => 0x21
  | .alreadyBuilt => 0x22
  | .badView => 0x23
  | .shapeRange => 0x24
  | .badArg => 0x25

/-- STATUS.ERR reads as (ERRCODE ≠ 0x00) (10_state.md R30). -/
def State.err (s : State) : Bool := s.errcode.byte != 0

/-- The STATUS register (10_state.md R26): BUSY, DONE, BUILT, ERR, OVR in bits 0 to 4, ERRCODE in bits [15:8]. -/
def statusWord (s : State) : Word :=
  (0 : BitVec 16) ++ s.errcode.byte ++ (0 : BitVec 3) ++ BitVec.ofBool s.ovr ++ BitVec.ofBool s.err
    ++ BitVec.ofBool s.built ++ BitVec.ofBool s.done ++ BitVec.ofBool s.busy

/-- A write to STATUS: bit 1 clears DONE, bit 4 clears OVR, nothing else changes (10_state.md R26). -/
def State.clearStatus (s : State) (v : Word) : State :=
  { s with done := s.done && !v.getLsbD 1, ovr := s.ovr && !v.getLsbD 4 }

/-- The interrupt output: level-sensitive, CTRL.IE ∧ STATUS.DONE, not stored (10_state.md R50, 60_exceptions.md R234). -/
def State.irq (s : State) : Bool := s.ctrlIe && s.done

/-- An ENCODE is in flight (20_memory.md R71). -/
def State.encodeInFlight (s : State) : Bool :=
  match s.cmd with
  | none => false
  | some w =>
    match decodeWord w with
    | .ok .encode => true
    | _ => false

end Sys2Proof.Machine
end

