-- ==== Sys2Proof/Machine/HostAccess.lean ====
section
/-! DEFINITION. Host accesses: the address map and BusError (20_memory.md R60, R61, R66), the registers (10_state.md section
2, 20_memory.md R62), the SEQ/LUT windows (R69), the matrix RAM (R63), the drop rule while a command is in flight
(40_command_issue.md R105) and the translation of a bus address by BASE (R60). -/

namespace Sys2Proof.Machine

/-- The registers of 10_state.md section 2. -/
inductive Reg where
  | id | ctrl | status | cmd
  | tapsRow | seedRow | tapsCol | seedCol
  | matDim | viewOrg | viewDim | argSec | argPos
  | resPos | resSec | resRot | resWin
  deriving DecidableEq, Repr

/-- What a legal access addresses (20_memory.md R60). -/
inductive Target where
  | reg (r : Reg)
  | seqRow (i : Nat)
  | seqCol (i : Nat)
  | lutRow (w : Nat)
  | lutCol (w : Nat)
  | mat (off n : Nat)
  deriving DecidableEq, Repr

/-- The register map (10_state.md section 2): every other offset below 0x100 is unmapped. -/
def regAt : Nat → Option Reg
  | 0x000 => some .id
  | 0x004 => some .ctrl
  | 0x008 => some .status
  | 0x00C => some .cmd
  | 0x010 => some .tapsRow
  | 0x014 => some .seedRow
  | 0x018 => some .tapsCol
  | 0x01C => some .seedCol
  | 0x020 => some .matDim
  | 0x024 => some .viewOrg
  | 0x028 => some .viewDim
  | 0x02C => some .argSec
  | 0x030 => some .argPos
  | 0x040 => some .resPos
  | 0x044 => some .resSec
  | 0x048 => some .resRot
  | 0x04C => some .resWin
  | _ => none

/-- A 32-bit access at a multiple of 4, as registers and windows require (20_memory.md R61, R66). -/
def wordAligned (off n : Nat) : Bool := n == 4 && off % 4 == 0

/-- An 8-, 16- or 32-bit access, naturally aligned, as the matrix RAM requires (20_memory.md R61, R66). -/
def matAligned (off n : Nat) : Bool := (n == 1 || n == 2 || n == 4) && off % n == 0

/-- The address map: what an access of n bytes at an offset addresses, or none for a BusError (20_memory.md R60, R61). -/
def target (off n : Nat) : Option Target :=
  if off < 0x100 then (if wordAligned off n then (regAt off).map .reg else none)
  else if off < 0x1000 then none
  else if off < 0x1100 then (if wordAligned off n then some (.seqRow ((off - 0x1000) / 4)) else none)
  else if off < 0x1200 then (if wordAligned off n then some (.seqCol ((off - 0x1100) / 4)) else none)
  else if off < 0x1300 then (if wordAligned off n then some (.lutRow ((off - 0x1200) / 4)) else none)
  else if off < 0x1400 then (if wordAligned off n then some (.lutCol ((off - 0x1300) / 4)) else none)
  else if off < Config.matBase then none
  else if off < Config.apertureBytes then (if matAligned off n then some (.mat off n) else none)
  else none

/-- Two bytes as a register: the second field in bits [15:8], the first in bits [7:0]. -/
def packBytes (hi lo : BitVec 8) : Word := (0 : BitVec 16) ++ hi ++ lo

/-- The value a read of a register returns: its fields, reserved bits 0 (20_memory.md R62, 10_state.md R23 to R44). -/
def regRead (s : State) : Reg → Word
  | .id => 0x01800806
  | .ctrl => bitOf 32 s.ctrlIe
  | .status => statusWord s
  | .cmd => 0
  | .tapsRow => s.tapsRow.setWidth 32
  | .seedRow => s.seedRow.setWidth 32
  | .tapsCol => s.tapsCol.setWidth 32
  | .seedCol => s.seedCol.setWidth 32
  | .matDim => packBytes s.matDim.cols s.matDim.rows
  | .viewOrg => packBytes s.viewOrg.col0 s.viewOrg.row0
  | .viewDim => packBytes s.viewDim.cols s.viewDim.rows
  | .argSec => s.argSec.sy ++ s.argSec.sx
  | .argPos => s.argPos.row ++ s.argPos.col
  | .resPos => s.resPos.row ++ s.resPos.col
  | .resSec => s.resSec.sy ++ s.resSec.sx
  | .resRot => s.resRot.setWidth 32
  | .resWin => packBytes (s.resWin.wb.setWidth 8) (s.resWin.wa.setWidth 8)

/-- The WARL clamp of a MAT_DIM field: a value above 128 is stored as 128 (10_state.md R36). -/
def clampDim (v : BitVec 8) : BitVec 8 := if v.toNat ≤ Config.maxDim then v else 128

/-- A write to a locked configuration register: ignored while BUILT (10_state.md R35). -/
def lockedWrite (s t : State) : State := if s.built then s else t

/-- A write to CTRL: SRST = 1 is a soft reset and nothing else, otherwise IE is stored (10_state.md R25,
70_reset_and_hazards.md R261). -/
def ctrlWrite (s : State) (v : Word) : State :=
  if v.getLsbD 1 then s.afterReset else { s with ctrlIe := v.getLsbD 0 }

/-- A performed 32-bit write to a register (20_memory.md R62): each field by its own rule, read-only registers ignore it. -/
def regWrite (s : State) (r : Reg) (v : Word) : State :=
  match r with
  | .id => s
  | .ctrl => ctrlWrite s v
  | .status => s.clearStatus v
  | .cmd => s.issue v
  | .tapsRow => lockedWrite s { s with tapsRow := v.extractLsb' 0 6 }
  | .seedRow => lockedWrite s { s with seedRow := v.extractLsb' 0 6 }
  | .tapsCol => lockedWrite s { s with tapsCol := v.extractLsb' 0 6 }
  | .seedCol => lockedWrite s { s with seedCol := v.extractLsb' 0 6 }
  | .matDim => { s with matDim := { rows := clampDim (v.extractLsb' 0 8), cols := clampDim (v.extractLsb' 8 8) } }
  | .viewOrg => { s with viewOrg := { row0 := v.extractLsb' 0 8, col0 := v.extractLsb' 8 8 } }
  | .viewDim => { s with viewDim := { rows := v.extractLsb' 0 8, cols := v.extractLsb' 8 8 } }
  | .argSec => { s with argSec := { sx := v.extractLsb' 0 16, sy := v.extractLsb' 16 16 } }
  | .argPos => { s with argPos := { col := v.extractLsb' 0 16, row := v.extractLsb' 16 16 } }
  | .resPos => s
  | .resSec => s
  | .resRot => s
  | .resWin => s

/-- A word of a SEQ window: bit 0 is the sequence bit if BUILT and the index is below L, else 0 (20_memory.md R69). -/
def seqWindow (s : State) (seq : SeqBits) (i : Nat) : Word :=
  if s.built && decide (i < Config.seqLen) then bitOf 32 (seq.getLsbD i) else 0

/-- A lookup-table entry as its window shows it: bit 31 is valid, bits [5:0] the index if valid (20_memory.md R69). -/
def lutWord (e : LutEntry) : Word := if e.valid then (0x80000000 : Word) ||| e.index.setWidth 32 else 0

/-- A word of a LUT window: the entry if BUILT, else 0 (20_memory.md R69). -/
def lutWindow (s : State) (t : Lut) (w : Nat) : Word :=
  if s.built then (t[w]?.map lutWord).getD 0 else 0

/-- The datum a read of a target returns (20_memory.md R62, R63, R69, R71). -/
def targetRead (s : State) : Target → Word
  | .reg r => regRead s r
  | .seqRow i => seqWindow s s.rowSeq i
  | .seqCol i => seqWindow s s.colSeq i
  | .lutRow w => lutWindow s s.lutR w
  | .lutCol w => lutWindow s s.lutC w
  | .mat off n => if s.encodeInFlight then matReadFree s.tick off n else matRead s off n

/-- How many free answers the model has given after a read: one more if an ENCODE was in flight and the read was of the
matrix RAM (20_memory.md R71, log 4). -/
def tickAfterRead (s : State) : Target → Nat
  | .mat _ _ => if s.encodeInFlight then s.tick + 1 else s.tick
  | _ => s.tick

/-- A write of n bytes to a target while no command is in flight (20_memory.md R62, R63, R69). -/
def targetWriteIdle (s : State) (v : Word) : Target → State
  | .reg r => regWrite s r v
  | .mat off n => { s with mat := matWrite s.mat off n v }
  | .seqRow _ => s
  | .seqCol _ => s
  | .lutRow _ => s
  | .lutCol _ => s

/-- A write to a target while a command is in flight: only CTRL and STATUS are performed, every other write is dropped
and sets OVR (40_command_issue.md R105). -/
def targetWriteBusy (s : State) (v : Word) : Target → State
  | .reg .ctrl => regWrite s .ctrl v
  | .reg .status => regWrite s .status v
  | _ => s.dropWrite

/-- A write to a target. -/
def targetWrite (s : State) (v : Word) (t : Target) : State :=
  if s.busy then targetWriteBusy s v t else targetWriteIdle s v t

/-- HostRead(off, n): data or BusError, no change of the block (40_command_issue.md R102, 20_memory.md R61, R68). The block
does not see an access outside the aperture (R60). -/
def hostRead (s : State) (off n : Nat) : State :=
  if Config.apertureBytes ≤ off then s
  else
    match target off n with
    | none => s.respond .busError
    | some t => { s with resp := .data n (targetRead s t), tick := tickAfterRead s t }

/-- HostWrite(off, n, v) (40_command_issue.md R102). BusError comes before the busy check (20_memory.md R61). -/
def hostWrite (s : State) (off n : Nat) (v : Word) : State :=
  if Config.apertureBytes ≤ off then s
  else
    match target off n with
    | none => s.respond .busError
    | some t => (targetWrite s v t).respond .written

/-- A host access at an offset from BASE. -/
def hostAccess (a : Access) (s : State) : State :=
  match a with
  | .read off n => hostRead s off n
  | .write off n v => hostWrite s off n v

/-- The offset a bus address reaches, or none outside the aperture (20_memory.md R60). -/
def busOffset (addr : Nat) : Option Nat :=
  if Config.base ≤ addr ∧ addr < Config.base + Config.apertureBytes then some (addr - Config.base) else none

/-- A host access at a bus address: at the offset `addr − BASE`, and unseen outside the aperture (20_memory.md R60). -/
def busAccess (a : Access) (s : State) : State :=
  match a with
  | .read addr n => ((busOffset addr).map fun off => hostRead s off n).getD s
  | .write addr n v => ((busOffset addr).map fun off => hostWrite s off n v).getD s

/-- The access is a 32-bit write to STATUS, which can clear DONE (10_state.md R26). -/
def Access.isStatusWrite : Access → Bool
  | .write off n _ => off == 0x008 && n == 4
  | .read _ _ => false

end Sys2Proof.Machine
end

