-- ==== Sys2Proof/Machine/Sequence.lean ====
section
/-! DEFINITION. The sequence generator and the window lookup table (41_sequence_lut.md R120 to R125). -/

namespace Sys2Proof.Machine

/-- The output bit of the LFSR: the most significant bit of its state (41_sequence_lut.md R120). -/
def lfsrOut (st : BitVec 6) : Bool := st.getLsbD 5

/-- The feedback bit: the parity of the tapped state bits (41_sequence_lut.md R120). -/
def lfsrFeedback (taps st : BitVec 6) : Bool := parity (st &&& taps)

/-- The next LFSR state: shifted towards the most significant bit, the feedback bit in bit 0 (41_sequence_lut.md R120). -/
def lfsrNext (taps st : BitVec 6) : BitVec 6 := (st <<< 1) ||| bitOf 6 (lfsrFeedback taps st)

/-- The LFSR state S_k that k steps reach from S_0 (41_sequence_lut.md R121). -/
def lfsrState (taps seed : BitVec 6) : Nat → BitVec 6
  | 0 => seed
  | k + 1 => lfsrNext taps (lfsrState taps seed k)

/-- The output bits of n LFSR steps (41_sequence_lut.md R121). -/
def lfsrRun (taps : BitVec 6) : Nat → BitVec 6 → List Bool
  | 0, _ => []
  | n + 1, st => lfsrOut st :: lfsrRun taps n (lfsrNext taps st)

/-- s[i] of a cyclic sequence: the bit at i mod L (41_sequence_lut.md R121). -/
def seqBit (s : SeqBits) (i : Nat) : Bool := s.getLsbD (i % Config.seqLen)

/-- window(s, i): the N consecutive cyclic bits from i, the first most significant (41_sequence_lut.md R122). -/
def window (s : SeqBits) (i : Nat) : Window := packWindow fun k => seqBit s (i + k)

/-- The L cyclic windows of a sequence, from index 0 (41_sequence_lut.md R123). -/
def allWindows (s : SeqBits) : List Window := (List.range Config.seqLen).map (window s)

/-- No two entries of the list are equal. -/
def pairwiseDistinct : List Window → Bool
  | [] => true
  | w :: ws => !ws.contains w && pairwiseDistinct ws

/-- MaxCheck(s): the L cyclic windows are pairwise distinct (41_sequence_lut.md R123). -/
def maxCheck (s : SeqBits) : Bool := pairwiseDistinct (allWindows s)

/-- The sequence of Generate(TAPS, SEED) (41_sequence_lut.md R121). -/
def genSeq (taps seed : BitVec 6) : SeqBits := ofBits 63 (lfsrRun taps Config.seqLen seed)

/-- Generate(TAPS, SEED): the sequence and the result of its maximality check (41_sequence_lut.md R121). -/
def generate (taps seed : BitVec 6) : SeqBits × Bool := (genSeq taps seed, maxCheck (genSeq taps seed))

/-- T[w]: the entry of a window value, a combinatorial read (41_sequence_lut.md R125). -/
def lutEntry (t : Lut) (w : Window) : LutEntry := t[w.toNat]'w.isLt

/-- The build loop over the indices that are left: the first occurrence of each window value is recorded, and a second one
ends the loop with a collision (41_sequence_lut.md R124). -/
def buildLutFrom (s : SeqBits) : List Nat → Lut → Lut × Bool
  | [], t => (t, false)
  | i :: is, t =>
    if (lutEntry t (window s i)).valid then (t, true)
    else buildLutFrom s is (t.set (window s i).toNat { valid := true, index := BitVec.ofNat 6 i } (window s i).isLt)

/-- BuildLUT(s): every entry invalid, then the windows in ascending order of index; true means collision
(41_sequence_lut.md R124). -/
def buildLut (s : SeqBits) : Lut × Bool := buildLutFrom s (List.range Config.seqLen) Lut.empty

/-- get(T, w): the index of a window value, or none where it does not occur (41_sequence_lut.md R125). -/
def lutGet (t : Lut) (w : Window) : Option (BitVec 6) :=
  if (lutEntry t w).valid then some (lutEntry t w).index else none

end Sys2Proof.Machine
end

