-- ==== Sys2Proof/Machine/Build.lean ====
section
/-! DEFINITION. BUILD (41_sequence_lut.md R126). -/

namespace Sys2Proof.Machine

/-- The state a successful BUILD installs: both sequences, both tables and BUILT (41_sequence_lut.md R126). -/
def State.installTables (s : State) (sr sc : SeqBits) (tr tc : Lut) : State :=
  { s with rowSeq := sr, colSeq := sc, lutR := tr, lutC := tc, built := true }

/-- BUILD: row generator, column generator, row table, column table; the first failure ends it and nothing is written
before the end (41_sequence_lut.md R126, 60_exceptions.md R232). -/
def execBuild (s : State) : Host.Outcome State Fault Refusal :=
  if s.built then finish .alreadyBuilt s
  else
    match generate s.tapsRow s.seedRow with
    | (_, false) => finish .cfgNotMaximal s
    | (sr, true) =>
      match generate s.tapsCol s.seedCol with
      | (_, false) => finish .cfgNotMaximal s
      | (sc, true) =>
        match buildLut sr with
        | (_, true) => finish .cfgLutCollision s
        | (tr, false) =>
          match buildLut sc with
          | (_, true) => finish .cfgLutCollision s
          | (tc, false) => finish .ok (s.installTables sr sc tr tc)

end Sys2Proof.Machine
end

