-- ==== Sys2Proof/Machine/Control.lean ====
section
/-! DEFINITION. NOP and the completion of an illegal command word (40_command_issue.md R103, R104). -/

namespace Sys2Proof.Machine

/-- NOP: finish(OK) (40_command_issue.md R103). -/
def execNop (s : State) : Host.Outcome State Fault Refusal := finish .ok s

/-- An illegal command word completes with ILLEGAL_CMD and no other effect (40_command_issue.md R104). -/
def completeIllegal (s : State) : Host.Outcome State Fault Refusal := finish .illegalCmd s

end Sys2Proof.Machine
end

