-- ==== Sys2Proof/Machine/Layout.lean ====
section
/-! DEFINITION. The embedding rule: phases, address cells, payload, checksum and `embed` (42_encode.md R150 to R156). -/

namespace Sys2Proof.Machine

/-- The phase of a local row or column index: (x mod L) mod 6 (42_encode.md R151). -/
def phase (x : Nat) : Nat := (x % Config.seqLen) % Config.tile

/-- The phases of the address cells, in the column for channel A and in the row for channel B (42_encode.md R152, R153). -/
def isAddressPhase (p : Nat) : Bool := p == 0 || p == 3

/-- kA(ρ, γ), the A slot of an A address cell (42_encode.md R152). -/
def slotA (rho gamma : Nat) : Nat := 2 * rho + gamma / 3

/-- kB(ρ, γ), the B slot of a B address cell (42_encode.md R153). -/
def slotB (rho gamma : Nat) : Nat := 12 + 6 * (rho / 3) + gamma

/-- The absolute row index of local row r in a section (42_encode.md R150). -/
def rowIndex (sy : BitVec 8) (r : Nat) : Nat := (Config.rowBase sy + r) % Config.seqLen

/-- The absolute column index of local column c in a section (42_encode.md R150). -/
def colIndex (sx : BitVec 8) (c : Nat) : Nat := (Config.colBase sx + c) % Config.seqLen

/-- One step of the CRC: the message bit enters at the top (42_encode.md R155). -/
def crcStep (c : BitVec 6) (m : Bool) : BitVec 6 :=
  if c.getLsbD 5 ^^ m then (c <<< 1) ^^^ 0x03 else c <<< 1

/-- The CRC of a 16-bit message, most significant bit first, from 0 (42_encode.md R155). -/
def crcOf (m : BitVec 16) : BitVec 6 := (List.range 16).foldl (fun c k => crcStep c (m.getLsbD (15 - k))) 0

/-- CRC6(sx, sy), with sx in the upper byte of the message (42_encode.md R155). -/
def crc6 (sx sy : BitVec 8) : BitVec 6 := crcOf (sx ++ sy)

/-- Payload(sx, sy): sy[7:5], sx, marker MB, sy[4:0], CRC, marker MA, from the top (42_encode.md R154). -/
def payload (sx sy : BitVec 8) : PayloadBits :=
  sy.extractLsb' 5 3 ++ sx ++ (1 : BitVec 1) ++ sy.extractLsb' 0 5 ++ crc6 sx sy ++ (1 : BitVec 1)

/-- The sx that a payload carries: P[20:13] (42_encode.md R154, 43_decode.md R187). -/
def payloadSx (p : PayloadBits) : BitVec 8 := p.extractLsb' 13 8

/-- The sy that a payload carries: P[23:21] above P[11:7] (42_encode.md R154, 43_decode.md R187). -/
def payloadSy (p : PayloadBits) : BitVec 8 := p.extractLsb' 21 3 ++ p.extractLsb' 7 5

/-- The payload bit XORed into channel A of a cell, 0 where the cell is no A address cell (42_encode.md R152, R156). -/
def maskA (p : PayloadBits) (rho gamma : Nat) : Bool := isAddressPhase gamma && p.getLsbD (slotA rho gamma)

/-- The payload bit XORed into channel B of a cell, 0 where the cell is no B address cell (42_encode.md R153, R156). -/
def maskB (p : PayloadBits) (rho gamma : Nat) : Bool := isAddressPhase rho && p.getLsbD (slotB rho gamma)

/-- embed(sx, sy, r, c) over the two built sequences (42_encode.md R156). -/
def embed (rowSeq colSeq : SeqBits) (sx sy : BitVec 8) (r c : Nat) : Dot :=
  { a := seqBit rowSeq (rowIndex sy r) ^^ maskA (payload sx sy) (phase r) (phase c)
    b := seqBit colSeq (colIndex sx c) ^^ maskB (payload sx sy) (phase r) (phase c) }

end Sys2Proof.Machine
end

