-- ==== Sys2Proof/Machine/Decoders.lean ====
section
/-! DEFINITION. The decode functions on an R × C grid of cells (43_decode.md R180 to R193). A grid is given by its two
dimensions and its cells G(i, j); the built tables are those of the state. -/

namespace Sys2Proof.Machine

/-! ### Position -/

/-- wA: the majority windows of channel A down the first column (43_decode.md R181). -/
def windowA (g : Nat → Nat → Dot) : Window := packWindow fun i => maj (g i 0).a (g i 1).a (g i 2).a

/-- wB: the majority windows of channel B along the first row (43_decode.md R181). -/
def windowB (g : Nat → Nat → Dot) : Window := packWindow fun j => maj (g 0 j).b (g 1 j).b (g 2 j).b

/-- The results of DecodePosition (43_decode.md R182). -/
inductive PosResult where
  | tooSmall
  | invalidWindow (wA wB : Window)
  | position (col row : Nat) (wA wB : Window)
  deriving DecidableEq, Repr

/-- DecodePosition(G) (43_decode.md R182). -/
def decodePosition (s : State) (rows cols : Nat) (g : Nat → Nat → Dot) : PosResult :=
  if rows < Config.order || cols < Config.order then .tooSmall
  else
    match lutGet s.lutR (windowA g), lutGet s.lutC (windowB g) with
    | some row, some col =>
      .position (col.toNat % Config.extCol) (row.toNat % Config.extRow) (windowA g) (windowB g)
    | _, _ => .invalidWindow (windowA g) (windowB g)

/-! ### Section -/

/-- The least index below n whose absolute index from p has a phase, or none (43_decode.md R184). -/
def firstPhase (n p rho : Nat) : Option Nat := (List.range n).find? fun i => phase (p + i) == rho

/-- Every phase occurs among n indices from p (43_decode.md R184). -/
def coversPhases (n p : Nat) : Bool := (List.range 6).all fun rho => (firstPhase n p rho).isSome

/-- The first index of a phase, used only where every phase occurs (43_decode.md R184). -/
def firstOf (n p rho : Nat) : Nat := (firstPhase n p rho).getD 0

/-- Channel A of grid cell (i, j) with the base bit of its absolute row undone (43_decode.md R185). -/
def undoA (s : State) (g : Nat → Nat → Dot) (pr i j : Nat) : Bool := (g i j).a ^^ seqBit s.rowSeq (pr + i)

/-- Channel B of grid cell (i, j) with the base bit of its absolute column undone (43_decode.md R185). -/
def undoB (s : State) (g : Nat → Nat → Dot) (pc i j : Nat) : Bool := (g i j).b ^^ seqBit s.colSeq (pc + j)

/-- Bit k of the extracted payload, at the first occurrence of its slot (43_decode.md R185). -/
def extractBit (s : State) (rows cols : Nat) (g : Nat → Nat → Dot) (pc pr k : Nat) : Bool :=
  if k < 12 then undoA s g pr (firstOf rows pr (k / 2)) (firstOf cols pc (3 * (k % 2)))
  else undoB s g pc (firstOf rows pr (3 * ((k - 12) / 6))) (firstOf cols pc ((k - 12) % 6))

/-- The extracted payload P (43_decode.md R185). -/
def extractPayload (s : State) (rows cols : Nat) (g : Nat → Nat → Dot) (pc pr : Nat) : PayloadBits :=
  ofBits 24 ((List.range 24).map (extractBit s rows cols g pc pr))

/-- The copies of grid cell (i, j) agree with P (43_decode.md R186). -/
def cellConsistent (s : State) (g : Nat → Nat → Dot) (pc pr : Nat) (p : PayloadBits) (i j : Nat) : Bool :=
  (!isAddressPhase (phase (pc + j)) || undoA s g pr i j == p.getLsbD (slotA (phase (pr + i)) (phase (pc + j))))
    && (!isAddressPhase (phase (pr + i)) || undoB s g pc i j == p.getLsbD (slotB (phase (pr + i)) (phase (pc + j))))

/-- Every address cell of the grid carries a copy that agrees with P (43_decode.md R186). -/
def copiesConsistent (s : State) (rows cols : Nat) (g : Nat → Nat → Dot) (pc pr : Nat) (p : PayloadBits) : Bool :=
  (List.range rows).all fun i => (List.range cols).all fun j => cellConsistent s g pc pr p i j

/-- P is a valid payload: both markers are 1 and the checksum fits (43_decode.md R187). -/
def validPayload (p : PayloadBits) : Bool :=
  p.getLsbD 0 && p.getLsbD 12 && p.extractLsb' 1 6 == crc6 (payloadSx p) (payloadSy p)

/-- The results of DecodeSection (43_decode.md R188). -/
inductive SecResult where
  | badArg
  | tooSmall
  | checksumMismatch
  | found (sx sy : BitVec 8)
  deriving DecidableEq, Repr

/-- The last stage of DecodeSection: copy consistency, then validity, of an extracted payload (43_decode.md R188). -/
def checkPayload (s : State) (rows cols : Nat) (g : Nat → Nat → Dot) (pc pr : Nat) (p : PayloadBits) : SecResult :=
  if !copiesConsistent s rows cols g pc pr p then .checksumMismatch
  else if !validPayload p then .checksumMismatch
  else .found (payloadSx p) (payloadSy p)

/-- DecodeSection(G, pc, pr) (43_decode.md R188). -/
def decodeSection (s : State) (rows cols : Nat) (g : Nat → Nat → Dot) (pc pr : Nat) : SecResult :=
  if Config.seqLen ≤ pc || Config.seqLen ≤ pr then .badArg
  else if !coversPhases rows pr || !coversPhases cols pc then .tooSmall
  else checkPayload s rows cols g pc pr (extractPayload s rows cols g pc pr)

/-! ### Rotation -/

/-- rotdir: a cell's channels after a clockwise quarter-turn of the paper (43_decode.md R190). -/
def rotDir (d : Dot) : Dot := { a := d.b, b := !d.a }

/-- The rows of Rot_d(G) (43_decode.md R191). -/
def rotRows (d : Fin 4) (rows cols : Nat) : Nat :=
  match d with
  | 0 => rows
  | 1 => cols
  | 2 => rows
  | 3 => cols

/-- The columns of Rot_d(G) (43_decode.md R191). -/
def rotCols (d : Fin 4) (rows cols : Nat) : Nat :=
  match d with
  | 0 => cols
  | 1 => rows
  | 2 => cols
  | 3 => rows

/-- Rot_d(G)(i, j) for a grid G of rows × cols cells (43_decode.md R191). -/
def rotCell (d : Fin 4) (rows cols : Nat) (g : Nat → Nat → Dot) (i j : Nat) : Dot :=
  match d with
  | 0 => g i j
  | 1 => rotDir (g (rows - 1 - j) i)
  | 2 => rotDir (rotDir (g (rows - 1 - i) (cols - 1 - j)))
  | 3 => rotDir (rotDir (rotDir (g j (cols - 1 - i))))

/-- A grid on which both decodes succeed (43_decode.md R192). -/
def gridValidates (s : State) (rows cols : Nat) (g : Nat → Nat → Dot) : Bool :=
  match decodePosition s rows cols g with
  | .position pc pr _ _ =>
    match decodeSection s rows cols g pc pr with
    | .found _ _ => true
    | _ => false
  | _ => false

/-- Candidate d validates on G (43_decode.md R192). -/
def candidateValidates (s : State) (rows cols : Nat) (g : Nat → Nat → Dot) (d : Fin 4) : Bool :=
  gridValidates s (rotRows d rows cols) (rotCols d rows cols) (rotCell d rows cols g)

/-- The results of DecodeRotation (43_decode.md R193). -/
inductive RotResult where
  | tooSmall
  | ambiguous
  | rotation (d : Fin 4)
  deriving DecidableEq, Repr

/-- The candidates of R193, in the order they are tried. -/
def allTurns : List (Fin 4) := [0, 1, 2, 3]

/-- DecodeRotation(G): all four candidates are tried, and exactly one must validate (43_decode.md R193). -/
def decodeRotation (s : State) (rows cols : Nat) (g : Nat → Nat → Dot) : RotResult :=
  if rows < Config.order || cols < Config.order then .tooSmall
  else
    match allTurns.filter (candidateValidates s rows cols g) with
    | [d] => .rotation d
    | _ => .ambiguous

end Sys2Proof.Machine
end

