-- ==== Sys2Proof/Machine/DecodeCommands.lean ====
section
/-! DEFINITION. DECPOS, DECSEC and DECROT: the decode functions on the view (43_decode.md R183, R189, R194). -/

namespace Sys2Proof.Machine

/-- What every decode command checks first: NOT_BUILT, then BAD_VIEW (60_exceptions.md R232). None: both checks pass. -/
def decodeGuard (s : State) : Option Code :=
  if !s.built then some .notBuilt else if !viewInBounds s then some .badView else none

/-- RES_WIN <- (WA, WB) (10_state.md R44). -/
def State.withResWin (s : State) (wA wB : Window) : State := { s with resWin := { wa := wA, wb := wB } }

/-- RES_POS <- (COL, ROW) (10_state.md R41). -/
def State.withResPos (s : State) (col row : Nat) : State :=
  { s with resPos := { col := BitVec.ofNat 16 col, row := BitVec.ofNat 16 row } }

/-- RES_SEC <- (SX, SY) (10_state.md R42). -/
def State.withResSec (s : State) (sx sy : BitVec 8) : State :=
  { s with resSec := { sx := sx.setWidth 16, sy := sy.setWidth 16 } }

/-- RES_ROT <- d (10_state.md R43). -/
def State.withResRot (s : State) (d : Fin 4) : State := { s with resRot := BitVec.ofNat 2 d.val }

/-- The end of DECPOS, by the result of DecodePosition on the view (43_decode.md R183). -/
def finishPosition (s : State) : PosResult → Host.Outcome State Fault Refusal
  | .tooSmall => finish .tooSmall s
  | .invalidWindow wA wB => finish .invalidWindow (s.withResWin wA wB)
  | .position col row wA wB => finish .ok ((s.withResWin wA wB).withResPos col row)

/-- DECPOS (43_decode.md R183). -/
def execDecpos (s : State) : Host.Outcome State Fault Refusal :=
  match decodeGuard s with
  | some code => finish code s
  | none => finishPosition s (decodePosition s (viewRows s) (viewCols s) (viewDot s))

/-- The end of DECSEC, by the result of DecodeSection on the view (43_decode.md R189). -/
def finishSection (s : State) : SecResult → Host.Outcome State Fault Refusal
  | .badArg => finish .badArg s
  | .tooSmall => finish .tooSmall s
  | .checksumMismatch => finish .checksumMismatch s
  | .found sx sy => finish .ok (s.withResSec sx sy)

/-- DECSEC (43_decode.md R189). -/
def execDecsec (s : State) : Host.Outcome State Fault Refusal :=
  match decodeGuard s with
  | some code => finish code s
  | none => finishSection s (decodeSection s (viewRows s) (viewCols s) (viewDot s) (argCol s) (argRow s))

/-- The end of DECROT, by the result of DecodeRotation on the view (43_decode.md R194). -/
def finishRotation (s : State) : RotResult → Host.Outcome State Fault Refusal
  | .tooSmall => finish .tooSmall s
  | .ambiguous => finish .ambiguousOrientation s
  | .rotation d => finish .ok (s.withResRot d)

/-- DECROT (43_decode.md R194). -/
def execDecrot (s : State) : Host.Outcome State Fault Refusal :=
  match decodeGuard s with
  | some code => finish code s
  | none => finishRotation s (decodeRotation s (viewRows s) (viewCols s) (viewDot s))

end Sys2Proof.Machine
end

