-- ==== Sys2Proof/Machine/Encode.lean ====
section
/-! DEFINITION. ENCODE (42_encode.md R157). -/

namespace Sys2Proof.Machine

/-- The cells of an R × C shape, row by row, as (offset, byte) pairs: MAT[r][c] <- embed(sx, sy, r, c) (42_encode.md
R157). -/
def encodeCells (s : State) (sx sy : BitVec 8) (rows cols : Nat) : List Host.Cell :=
  (List.range rows).flatMap fun r =>
    (List.range cols).map fun c => (cellOffset r c, dotByte (embed s.rowSeq s.colSeq sx sy r c))

/-- The state a successful ENCODE leaves before its completion: the cells (0..R−1, 0..C−1) and MAT_DIM (42_encode.md
R157). -/
def State.encoded (s : State) : State :=
  { s with
    mat := Memory.setAll s.mat
      (encodeCells s (s.argSec.sx.setWidth 8) (s.argSec.sy.setWidth 8) (viewRows s) (viewCols s))
    matDim := s.viewDim }

/-- ENCODE: NOT_BUILT, SHAPE_RANGE and CFG_SECTION_RANGE in that order, else the matrix is written (42_encode.md R157). -/
def execEncode (s : State) : Host.Outcome State Fault Refusal :=
  if !s.built then finish .notBuilt s
  else if Config.maxDim < viewRows s || Config.maxDim < viewCols s then finish .shapeRange s
  else if Config.sectionLimit ≤ argSx s || Config.sectionLimit ≤ argSy s then finish .cfgSectionRange s
  else finish .ok s.encoded

end Sys2Proof.Machine
end

