-- ==== Sys2Proof/Machine/Dispatch.lean ====
section
/-! DEFINITION. One arm per command: each runs its own meaning (40_command_issue.md R101, Execute). -/

namespace Sys2Proof.Machine

def exec (i : Instr) (s : State) : Host.Outcome State Fault Refusal :=
  match i with
  | .nop => Sys2Proof.Machine.execNop s
  | .build => Sys2Proof.Machine.execBuild s
  | .encode => Sys2Proof.Machine.execEncode s
  | .decpos => Sys2Proof.Machine.execDecpos s
  | .decsec => Sys2Proof.Machine.execDecsec s
  | .decrot => Sys2Proof.Machine.execDecrot s

end Sys2Proof.Machine
end

