-- ==== Sys2Proof/Machine/Engine.lean ====
section
/-! DEFINITION. The engine's step and the other transitions of the block (40_command_issue.md R101, R102), and the word a
test places where the next step fetches it. -/

namespace Sys2Proof.Machine

/-- Execute(w): decode the command word and run the command, or complete it as illegal (40_command_issue.md R101, R104). -/
def execWord (w : Word) (s : State) : Host.Outcome State Fault Refusal :=
  match decodeWord w with
  | .ok i => exec i s
  | .error _ => completeIllegal s

/-- EngineStep: enabled only while a command is in flight; with none the block stays as it is (40_command_issue.md R102,
70_reset_and_hazards.md R264). -/
def engineStep (s : State) : Host.Outcome State Fault Refusal :=
  match s.cmd with
  | none => .next s
  | some w => execWord w s

/-- The engine's step first and then an access in the state it leaves. -/
def engineThen (a : Access) (s : State) : Host.Outcome State Fault Refusal :=
  match engineStep s with
  | .next t => .next (hostAccess a t)
  | .fault r => .fault r
  | .refused r => .refused r

/-- A host access and a completion in the same clock cycle (60_exceptions.md R235): either order, but a completion wins over
a write that clears DONE, which is the order with the write first. With no command in flight there is no completion, and a
command issued in this cycle completes in a later one (00_scope.md R6: LAT is at least 1). Log 11. -/
def coincide (order : CycleOrder) (a : Access) (s : State) : Host.Outcome State Fault Refusal :=
  if s.busy then
    match order with
    | .accessFirst => engineStep (hostAccess a s)
    | .completionFirst => if a.isStatusWrite then engineStep (hostAccess a s) else engineThen a s
  else .next (hostAccess a s)

/-- One transition of the block (40_command_issue.md R102). -/
def runEvent (e : Event) (s : State) : Host.Outcome State Fault Refusal :=
  match e with
  | .host a => .next (hostAccess a s)
  | .bus a => .next (busAccess a s)
  | .engine => engineStep s
  | .coincide order a => coincide order a s
  | .reset => .next s.afterReset

/-- The next transition: the oldest pending event; with none pending the engine's step, which so cannot be postponed for
ever (40_command_issue.md R102, log 1). -/
def nextTransition (s : State) : Host.Outcome State Fault Refusal :=
  match s.events with
  | [] => engineStep s
  | e :: rest => runEvent e { s with events := rest }

/-- A command word in flight and its completion as the next event: the very next step runs it (log 2). -/
def State.withCommandWord (s : State) (w : Word) : State :=
  { s with cmd := some w, events := .engine :: s.events }

end Sys2Proof.Machine
end

