-- ==== Sys2Proof/Machine/Step.lean ====
section
/-! DEFINITION. One step of the block: the next transition (40_command_issue.md R102). -/

namespace Sys2Proof.Machine

/-- One step (40_command_issue.md R102). -/
def step (s : State) : Host.Outcome State Fault Refusal := nextTransition s

/-- The state with an instruction's bits placed as the command in flight, every bit at or above `nbits` 0, so that the next
step completes it. -/
def State.withFetchWord (s : State) (nbits w : Nat) : State := s.withCommandWord (BitVec.ofNat 32 (w % 2 ^ nbits))

end Sys2Proof.Machine
end

