-- ==== Sys2Proof/Safety.lean ====
section
/-! DEFINITION. What claims call a sound state of the block, and the host write that loses data. -/

namespace Sys2Proof.Machine

/-- The sequence and table RAMs hold the result of a successful BUILD of the configuration in TAPS and SEED (10_state.md
R29, 41_sequence_lut.md R126). -/
structure State.TablesBuilt (s : State) : Prop where
  rowSeq : generate s.tapsRow s.seedRow = (s.rowSeq, true)
  colSeq : generate s.tapsCol s.seedCol = (s.colSeq, true)
  lutR : buildLut s.rowSeq = (s.lutR, false)
  lutC : buildLut s.colSeq = (s.lutC, false)

/-- The invariant of the block: the matrix memory keeps its canonical form (20_memory.md R63), MAT_DIM stays inside the RAM
(10_state.md R36), BUILT tells the truth about the tables (R29), and the result registers hold results (R41, R42). -/
structure State.Inv (s : State) : Prop where
  memory : Memory.wf s.mat = true
  matRows : s.matDim.rows.toNat ≤ Config.maxDim
  matCols : s.matDim.cols.toNat ≤ Config.maxDim
  tables : s.built = true → s.TablesBuilt
  resCol : s.resPos.col.toNat < Config.extCol
  resRow : s.resPos.row.toNat < Config.extRow
  resSx : s.resSec.sx.toNat < Config.sectionLimit
  resSy : s.resSec.sy.toNat < Config.sectionLimit

/-- A host write is lost: it is legal, a command is in flight, and it is to neither CTRL nor STATUS (40_command_issue.md
R105, 70_reset_and_hazards.md R268). -/
def writeLost (s : State) (off n : Nat) : Bool :=
  s.busy &&
    match target off n with
    | none => false
    | some (.reg .ctrl) => false
    | some (.reg .status) => false
    | some _ => true

end Sys2Proof.Machine
end

