-- ==== Sys2Proof/Certificates/Slice0/Obligations.lean ====
section
/-! DEFINITION. The statements for the provers. Each says which rule of spec/ it formalises. -/

open Sys2Proof Sys2Proof.Machine

/-! ### Encoding and dispatch -/

/-- 30_encoding.md R81: the word of every command decodes to it. -/
def Obligations.DecodeInvertsEncode : Prop :=
  ∀ i : Instr, i.wellFormed = true → legalWord (encode i) = true ∧ decodeWord (encode i) = .ok i

/-- 30_encoding.md R81: the opcode map, and "the six legal command words are exactly 0x00000000 to 0x00000005"; R82, R83:
which other words are rejected, by name. -/
def Obligations.LegalWordsAreTheSixOpcodes : Prop :=
  (encode .nop = 0x00000000 ∧ encode .build = 0x00000001 ∧ encode .encode = 0x00000002 ∧
    encode .decpos = 0x00000003 ∧ encode .decsec = 0x00000004 ∧ encode .decrot = 0x00000005) ∧
  ∀ w : Word,
    (∀ i : Instr, decodeWord w = .ok i ↔ w = encode i) ∧ ((∃ i, decodeWord w = .ok i) ↔ w.toNat ≤ 5) ∧
    (decodeWord w = .error .reservedField ↔ w.toNat / 256 ≠ 0) ∧
    (decodeWord w = .error .reservedOpcode ↔ w.toNat / 256 = 0 ∧ 6 ≤ w.toNat % 256)

/-- Words written out from 30_encoding.md R80 to R83, and what each decodes to. -/
def Obligations.SampleCommandWordsDecode : Prop :=
  decodeWord 0b00000000000000000000000000000000 = .ok .nop ∧
  decodeWord 0b00000000000000000000000000000001 = .ok .build ∧
  decodeWord 0b00000000000000000000000000000010 = .ok .encode ∧
  decodeWord 0b00000000000000000000000000000011 = .ok .decpos ∧
  decodeWord 0b00000000000000000000000000000100 = .ok .decsec ∧
  decodeWord 0b00000000000000000000000000000101 = .ok .decrot ∧
  decodeWord 0b00000000000000000000000100000001 = .error .reservedField ∧
  decodeWord 0b00000000000000000000000000000110 = .error .reservedOpcode

/-- 40_command_issue.md R101: a step with a command in flight, as the next event or with no event pending, is `exec` of the
command the word decodes to, in the state without that event; and so is a step after `withFetchWord`. -/
def Obligations.StepRunsTheDecodedCommand : Prop :=
  ∀ (s : State) (w : Word) (i : Instr), decodeWord w = .ok i →
    (s.cmd = some w → s.events = [] → step s = exec i s) ∧
    (∀ rest, s.cmd = some w → s.events = .engine :: rest → step s = exec i { s with events := rest }) ∧
    step (s.withFetchWord 32 w.toNat) = exec i { s with cmd := some w }

/-- 40_command_issue.md R102: the oldest pending event, of whatever kind, is the transition a step takes; with none pending it
is the engine's step, for a legal word and an illegal one; and the engine has no step while no command is in flight: the block
then stays as it is (70_reset_and_hazards.md R264). -/
def Obligations.StepTakesTheOldestTransition : Prop :=
  ∀ (s : State) (rest : List Event) (a : Access) (order : CycleOrder),
    (s.events = .host a :: rest → step s = .next (hostAccess a { s with events := rest })) ∧
    (s.events = .bus a :: rest → step s = .next (busAccess a { s with events := rest })) ∧
    (s.events = .coincide order a :: rest → step s = coincide order a { s with events := rest }) ∧
    (s.events = .reset :: rest → step s = .next { s with events := rest }.afterReset) ∧
    (s.events = .engine :: rest → step s = engineStep { s with events := rest }) ∧
    (s.events = [] → step s = engineStep s) ∧
    (s.cmd = none → engineStep s = .next s)

/-- 40_command_issue.md R104: a CMD write of an illegal word is accepted, and the word in flight completes with ILLEGAL_CMD
(0x20) and no other effect. -/
def Obligations.IllegalWordCompletesWithItsCode : Prop :=
  Code.illegalCmd.byte = 0x20 ∧
  ∀ (s : State) (w : Word), (w.toNat / 256 ≠ 0 ∨ 6 ≤ w.toNat % 256) →
    (s.cmd = none → (hostWrite s 0x00C 4 w).resp = .written ∧ (hostWrite s 0x00C 4 w).cmd = some w) ∧
    (s.cmd = some w → engineStep s = .next { s with errcode := .illegalCmd, done := true, cmd := none })

/-! ### Completion of every command -/

/-- 40_command_issue.md R101: every command completes, whatever the state: it sets DONE, clears `cmd`, and never faults or
is refused. -/
def Obligations.EveryCommandCompletes : Prop :=
  ∀ (i : Instr) (s : State), ∃ t, exec i s = .next t ∧ t.done = true ∧ t.cmd = none

/-- 60_exceptions.md R231: the value of every completion code, each of one code only, and the codes each command can report;
CFG_LUT_COLLISION is not among them (41_sequence_lut.md R124: it cannot occur in the block). -/
def Obligations.CodesEachCommandReports : Prop :=
  (Code.ok.byte = 0x00 ∧ Code.cfgNotMaximal.byte = 0x01 ∧ Code.cfgLutCollision.byte = 0x02 ∧
    Code.cfgSectionRange.byte = 0x03 ∧ Code.tooSmall.byte = 0x10 ∧ Code.invalidWindow.byte = 0x11 ∧
    Code.checksumMismatch.byte = 0x12 ∧ Code.ambiguousOrientation.byte = 0x13 ∧ Code.illegalCmd.byte = 0x20 ∧
    Code.notBuilt.byte = 0x21 ∧ Code.alreadyBuilt.byte = 0x22 ∧ Code.badView.byte = 0x23 ∧
    Code.shapeRange.byte = 0x24 ∧ Code.badArg.byte = 0x25 ∧ ∀ c d : Code, c.byte = d.byte → c = d) ∧
  ∀ (i : Instr) (s t : State), exec i s = .next t →
    t.errcode ∈
      (match i with
      | .nop => [Code.ok]
      | .build => [Code.ok, .alreadyBuilt, .cfgNotMaximal]
      | .encode => [Code.ok, .notBuilt, .shapeRange, .cfgSectionRange]
      | .decpos => [Code.ok, .notBuilt, .badView, .tooSmall, .invalidWindow]
      | .decsec => [Code.ok, .notBuilt, .badView, .badArg, .tooSmall, .checksumMismatch]
      | .decrot => [Code.ok, .notBuilt, .badView, .tooSmall, .ambiguousOrientation])

/-- 60_exceptions.md R230, 40_command_issue.md R106: a failing command changes ERRCODE, DONE and `cmd`, and only a DECPOS
that fails with INVALID_WINDOW changes RES_WIN. -/
def Obligations.FailingCommandsWriteNoResult : Prop :=
  ∀ (i : Instr) (s t : State), exec i s = .next t → t.errcode ≠ .ok →
    t = { s with errcode := t.errcode, done := true, cmd := none, resWin := t.resWin } ∧
    (t.resWin ≠ s.resWin → i = .decpos ∧ t.errcode = .invalidWindow)

/-- The frame of the commands (40_command_issue.md R106, 10_state.md R23, R51): what no command writes, and what only one
command writes. No command writes CTRL, OVR, an operand register, the configuration or the model's own fields. -/
def Obligations.EachCommandWritesOnlyItsOwnState : Prop :=
  ∀ (i : Instr) (s t : State), exec i s = .next t →
    (t = { s with
      done := true, cmd := none, errcode := t.errcode, built := t.built, rowSeq := t.rowSeq, colSeq := t.colSeq,
      lutR := t.lutR, lutC := t.lutC, mat := t.mat, matDim := t.matDim, resPos := t.resPos, resSec := t.resSec,
      resRot := t.resRot, resWin := t.resWin }) ∧
    (i ≠ .build → t.built = s.built ∧ t.rowSeq = s.rowSeq ∧ t.colSeq = s.colSeq ∧ t.lutR = s.lutR ∧ t.lutC = s.lutC) ∧
    (i ≠ .encode → t.matDim = s.matDim ∧ ∀ off, cellBits t off = cellBits s off) ∧
    (i ≠ .decpos → t.resPos = s.resPos ∧ t.resWin = s.resWin) ∧
    (i ≠ .decsec → t.resSec = s.resSec) ∧
    (i ≠ .decrot → t.resRot = s.resRot)

/-- 40_command_issue.md R101, R102: the engine's step is not postponed for ever: after the pending events and one step
more, whatever they are, no command is in flight. -/
def Obligations.PendingEventsRunOutAndTheBlockIsIdle : Prop :=
  ∀ s : State, ∃ t, Host.Core.run Sys2Proof.core (s.events.length + 1) s = .next t ∧ t.events = [] ∧ t.cmd = none

/-! ### NOP and BUILD -/

/-- 40_command_issue.md R103: NOP is finish(OK), before BUILD and after it; from reset STATUS then reads 0x00000002. -/
def Obligations.NopOnlyReportsSuccess : Prop :=
  encode .nop = 0x00000000 ∧
  (∀ s : State, exec .nop s = .next { s with errcode := .ok, done := true, cmd := none }) ∧
  ∃ t, exec .nop State.reset = .next t ∧ statusWord t = 0x00000002

/-- 41_sequence_lut.md R126: BUILD in the order of its checks. Where both generators are maximal it installs both
sequences and both tables and sets BUILT; a failure writes ERRCODE and DONE only. -/
def Obligations.BuildFollowsItsRule : Prop :=
  ∀ s : State,
    (s.built = true → exec .build s = .next { s with errcode := .alreadyBuilt, done := true, cmd := none }) ∧
    (s.built = false → maxCheck (genSeq s.tapsRow s.seedRow) = false ∨ maxCheck (genSeq s.tapsCol s.seedCol) = false →
      exec .build s = .next { s with errcode := .cfgNotMaximal, done := true, cmd := none }) ∧
    (s.built = false → maxCheck (genSeq s.tapsRow s.seedRow) = true → maxCheck (genSeq s.tapsCol s.seedCol) = true →
      exec .build s = .next { s with
        rowSeq := genSeq s.tapsRow s.seedRow, colSeq := genSeq s.tapsCol s.seedCol,
        lutR := (buildLut (genSeq s.tapsRow s.seedRow)).1, lutC := (buildLut (genSeq s.tapsCol s.seedCol)).1,
        built := true, errcode := .ok, done := true, cmd := none })

/-- 41_sequence_lut.md R120: the LFSR step as the rule writes it, and the recurrence of its output: s[k+6] is the XOR of the
s[k+5−t] with TAPS[t] = 1; R121: the generated sequence is the output of the states from S_0 = SEED, cyclic, and its check is
MaxCheck. -/
def Obligations.OutputSatisfiesTheTapRecurrence : Prop :=
  (∀ taps st : BitVec 6,
    lfsrOut st = st.getLsbD 5 ∧
    (lfsrNext taps st).toNat = (2 * st.toNat + (if parity (st &&& taps) then 1 else 0)) % 64) ∧
  ∀ (taps seed : BitVec 6) (k : Nat),
    lfsrState taps seed 0 = seed ∧ lfsrState taps seed (k + 1) = lfsrNext taps (lfsrState taps seed k) ∧
    lfsrOut (lfsrState taps seed (k + 6)) =
      (List.range 6).foldl (fun x t => x ^^ (taps.getLsbD t && lfsrOut (lfsrState taps seed (k + 5 - t)))) false ∧
    generate taps seed = (genSeq taps seed, maxCheck (genSeq taps seed)) ∧
    seqBit (genSeq taps seed) k = lfsrOut (lfsrState taps seed (k % 63))

/-- 41_sequence_lut.md R122: bit N−1−k of window(s, i) is s[(i+k) mod L]; for a generated sequence window(s, k) is the LFSR
state S_k for k ≤ L − N, and for every k below L when the generator is maximal, so that window(s, 0) is SEED. -/
def Obligations.WindowsAreTheLfsrStates : Prop :=
  (∀ (s : SeqBits) (i k : Nat), k < 6 → (window s i).getLsbD (5 - k) = s.getLsbD ((i + k) % 63)) ∧
  (∀ (taps seed : BitVec 6) (k : Nat), k ≤ 57 → window (genSeq taps seed) k = lfsrState taps seed k) ∧
  (∀ (taps seed : BitVec 6), maxCheck (genSeq taps seed) = true →
    (∀ k, k < 63 → window (genSeq taps seed) k = lfsrState taps seed k) ∧ window (genSeq taps seed) 0 = seed)

/-- 41_sequence_lut.md R123: MaxCheck says that the L cyclic windows are pairwise distinct; for a generated sequence it is
the period test on the LFSR states; a seed of 0 always fails. -/
def Obligations.MaximalityIsTheFullPeriod : Prop :=
  (∀ s : SeqBits, maxCheck s = true ↔ ∀ i j, i < j → j < 63 → window s i ≠ window s j) ∧
  (∀ taps seed : BitVec 6, maxCheck (genSeq taps seed) = true ↔
    (lfsrState taps seed 63 = seed ∧ ∀ k, 1 ≤ k → k < 63 → lfsrState taps seed k ≠ seed)) ∧
  ∀ taps : BitVec 6, maxCheck (genSeq taps 0) = false

/-- 41_sequence_lut.md R127: the six TAPS values whose generator is maximal, with every seed but 0; the periods 10 and 7 of
its two examples; and that the reset configuration uses two of the six. -/
def Obligations.SixTapMasksAreMaximal : Prop :=
  (∀ taps seed : BitVec 6, maxCheck (genSeq taps seed) = true ↔
    (seed ≠ 0 ∧ taps ∈ [(0x21 : BitVec 6), 0x2D, 0x30, 0x33, 0x36, 0x39])) ∧
  (lfsrState 0x31 0x20 10 = 0x20 ∧ ∀ k, 1 ≤ k → k < 10 → lfsrState 0x31 0x20 k ≠ 0x20) ∧
  (lfsrState 0x3F 0x20 7 = 0x20 ∧ ∀ k, 1 ≤ k → k < 7 → lfsrState 0x3F 0x20 k ≠ 0x20) ∧
  State.reset.tapsRow = 0x30 ∧ State.reset.tapsCol = 0x36

/-- 41_sequence_lut.md R125: `get`; in the table of a maximal sequence every window is found at its index, and in that of a
generated one exactly the window value 0 misses. R129: after a successful BUILD the windows of both sequences are distinct and
each is found at its index. -/
def Obligations.LookupFindsEveryWindow : Prop :=
  (∀ (t : Lut) (w : Window), lutGet t w = if (lutEntry t w).valid then some (lutEntry t w).index else none) ∧
  (∀ s : SeqBits, maxCheck s = true →
    (buildLut s).2 = false ∧ ∀ i, i < 63 → lutGet (buildLut s).1 (window s i) = some (BitVec.ofNat 6 i)) ∧
  (∀ taps seed : BitVec 6, maxCheck (genSeq taps seed) = true →
    ∀ w : Window, lutGet (buildLut (genSeq taps seed)).1 w = none ↔ w = 0) ∧
  ∀ s t : State, exec .build s = .next t → t.errcode = .ok →
    (∀ i j, i < j → j < 63 → window t.rowSeq i ≠ window t.rowSeq j ∧ window t.colSeq i ≠ window t.colSeq j) ∧
    ∀ i, i < 63 → lutGet t.lutR (window t.rowSeq i) = some (BitVec.ofNat 6 i) ∧
      lutGet t.lutC (window t.colSeq i) = some (BitVec.ofNat 6 i)

/-- 41_sequence_lut.md R128 (and the example of R126): BUILD from reset gives the reset configuration's sequences, s[0]
first, their LFSR states, their wrapping windows, and the named table entries. -/
def Obligations.BuildFromResetGivesTheReferenceTables : Prop :=
  (List.range 12).map (lfsrState 0x30 0x20) =
    [0x20, 0x01, 0x02, 0x04, 0x08, 0x10, 0x21, 0x03, 0x06, 0x0C, 0x18, 0x31] ∧
  (List.range 12).map (lfsrState 0x36 0x20) =
    [0x20, 0x01, 0x02, 0x05, 0x0B, 0x17, 0x2F, 0x1F, 0x3F, 0x3E, 0x3C, 0x39] ∧
  lfsrState 0x30 0x20 63 = 0x20 ∧ lfsrState 0x36 0x20 63 = 0x20 ∧
  ∃ t, exec .build State.reset = .next t ∧ t.errcode = .ok ∧ t.built = true ∧ statusWord t = 0x00000006 ∧
    (List.range 63).map t.rowSeq.getLsbD = ((List.range 63).map fun i =>
      Nat.testBit 0b100000100001100010100111101000111001001011011101100110101011111 (62 - i)) ∧
    (List.range 63).map t.colSeq.getLsbD = ((List.range 63).map fun i =>
      Nat.testBit 0b100000101111110010101000110011110111010110100110110001001000011 (62 - i)) ∧
    lutEntry t.lutR 0x20 = ⟨true, 0⟩ ∧ lutEntry t.lutC 0x20 = ⟨true, 0⟩ ∧
    (lutEntry t.lutR 0).valid = false ∧ (lutEntry t.lutC 0).valid = false ∧
    ((List.range 6).map fun k => window t.rowSeq (57 + k)) = [0x1F, 0x3F, 0x3E, 0x3C, 0x38, 0x30] ∧
    ((List.range 6).map fun k => window t.colSeq (57 + k)) = [0x03, 0x07, 0x0E, 0x1C, 0x38, 0x30]

/-! ### The embedding rule and ENCODE -/

/-- 42_encode.md R154: where each bit of a payload comes from; 43_decode.md R187: what a valid payload is, and that exactly
the payloads of R154 are valid. -/
def Obligations.ValidPayloadsAreExactlyTheEncoded : Prop :=
  (∀ sx sy : BitVec 8,
    (payload sx sy).getLsbD 0 = true ∧ (payload sx sy).getLsbD 12 = true ∧
    (∀ k, k < 6 → (payload sx sy).getLsbD (1 + k) = (crc6 sx sy).getLsbD k) ∧
    (∀ k, k < 5 → (payload sx sy).getLsbD (7 + k) = sy.getLsbD k) ∧
    (∀ k, k < 8 → (payload sx sy).getLsbD (13 + k) = sx.getLsbD k) ∧
    (∀ k, k < 3 → (payload sx sy).getLsbD (21 + k) = sy.getLsbD (5 + k))) ∧
  payload 10 2 = 0x015111 ∧
  ∀ p : PayloadBits,
    (validPayload p = true ↔
      p.getLsbD 0 = true ∧ p.getLsbD 12 = true ∧
      p.extractLsb' 1 6 = crc6 (p.extractLsb' 13 8) (p.extractLsb' 21 3 ++ p.extractLsb' 7 5)) ∧
    (validPayload p = true ↔ ∃ sx sy, p = payload sx sy)

/-- 42_encode.md R155: an error confined to a burst of 6 or fewer consecutive message bits changes the CRC; and the values
of CRC6 the rule lists. -/
def Obligations.CrcDetectsShortBursts : Prop :=
  (crc6 0 0 = 0x00 ∧ crc6 10 2 = 0x08 ∧ crc6 255 255 = 0x12 ∧ crc6 1 0 = 0x14 ∧ crc6 0 1 = 0x03) ∧
  ∀ (m : BitVec 16) (burst : BitVec 6) (at_ : Nat), at_ ≤ 10 → burst ≠ 0 →
    crcOf (m ^^^ (burst.setWidth 16 <<< at_)) ≠ crcOf m

/-- 42_encode.md R156 with R150 to R153: embed as the rule writes it; it depends only on r mod L and c mod L; and each A slot
0 to 11 and each B slot 12 to 23 appears exactly once in a 6 × 6 tile of phases (R152, R153). -/
def Obligations.EmbedIsTheEmbeddingRule : Prop :=
  (∀ k, k < 12 → ∃ rho gamma, (rho < 6 ∧ gamma < 6 ∧ isAddressPhase gamma = true ∧ slotA rho gamma = k) ∧
    ∀ rho' gamma', rho' < 6 → gamma' < 6 → isAddressPhase gamma' = true → slotA rho' gamma' = k →
      rho' = rho ∧ gamma' = gamma) ∧
  (∀ k, 12 ≤ k → k < 24 → ∃ rho gamma, (rho < 6 ∧ gamma < 6 ∧ isAddressPhase rho = true ∧ slotB rho gamma = k) ∧
    ∀ rho' gamma', rho' < 6 → gamma' < 6 → isAddressPhase rho' = true → slotB rho' gamma' = k →
      rho' = rho ∧ gamma' = gamma) ∧
  ∀ (rowSeq colSeq : SeqBits) (sx sy : BitVec 8) (r c : Nat),
    (embed rowSeq colSeq sx sy r c).a =
      (if (c % 63) % 6 = 0 ∨ (c % 63) % 6 = 3 then
        rowSeq.getLsbD (r % 63) ^^ (payload sx sy).getLsbD (2 * ((r % 63) % 6) + ((c % 63) % 6) / 3)
      else rowSeq.getLsbD (r % 63)) ∧
    (embed rowSeq colSeq sx sy r c).b =
      (if (r % 63) % 6 = 0 ∨ (r % 63) % 6 = 3 then
        colSeq.getLsbD (c % 63) ^^ (payload sx sy).getLsbD (12 + 6 * (((r % 63) % 6) / 3) + (c % 63) % 6)
      else colSeq.getLsbD (c % 63)) ∧
    embed rowSeq colSeq sx sy (r % 63) (c % 63) = embed rowSeq colSeq sx sy r c

/-- 42_encode.md R157: ENCODE in the order of its checks. On success cells (0..R−1, 0..C−1) hold `embed`, every other cell
reads as before, MAT_DIM is the shape, and nothing else changes but ERRCODE, DONE and `cmd`. 20_memory.md R63: cell (r, c) is
the byte at offset 0x4000 + 128·r + c, channel A its bit 0 and channel B its bit 1. -/
def Obligations.EncodeFollowsItsRule : Prop :=
  encode .encode = 0x00000002 ∧
  (∀ (s : State) (r c : Nat), r < 128 → c < 128 →
    cellOffset r c = 0x4000 + 128 * r + c ∧
    dotAt s r c =
      { a := (cellBits s (0x4000 + 128 * r + c)).getLsbD 0, b := (cellBits s (0x4000 + 128 * r + c)).getLsbD 1 }) ∧
  ∀ s : State,
    (s.built = false → exec .encode s = .next { s with errcode := .notBuilt, done := true, cmd := none }) ∧
    (s.built = true → 128 < s.viewDim.rows.toNat ∨ 128 < s.viewDim.cols.toNat →
      exec .encode s = .next { s with errcode := .shapeRange, done := true, cmd := none }) ∧
    (s.built = true → s.viewDim.rows.toNat ≤ 128 → s.viewDim.cols.toNat ≤ 128 →
      256 ≤ s.argSec.sx.toNat ∨ 256 ≤ s.argSec.sy.toNat →
      exec .encode s = .next { s with errcode := .cfgSectionRange, done := true, cmd := none }) ∧
    (s.built = true → s.viewDim.rows.toNat ≤ 128 → s.viewDim.cols.toNat ≤ 128 →
      s.argSec.sx.toNat < 256 → s.argSec.sy.toNat < 256 →
      ∃ t, exec .encode s = .next t ∧
        t = { s with mat := t.mat, matDim := s.viewDim, errcode := .ok, done := true, cmd := none } ∧
        (∀ r c, r < s.viewDim.rows.toNat → c < s.viewDim.cols.toNat →
          dotAt t r c = embed s.rowSeq s.colSeq (s.argSec.sx.setWidth 8) (s.argSec.sy.setWidth 8) r c) ∧
        (∀ off, (∀ r c, r < s.viewDim.rows.toNat → c < s.viewDim.cols.toNat → off ≠ cellOffset r c) →
          cellBits t off = cellBits s off))

/-- 42_encode.md R158: two successful ENCODEs of the same shape, at least 6 × 6, over the same sequences and for different
sections leave matrices that differ in a cell of the shape. -/
def Obligations.DistinctSectionsEncodeDifferently : Prop :=
  ∀ s₁ s₂ t₁ t₂ : State, exec .encode s₁ = .next t₁ → exec .encode s₂ = .next t₂ →
    t₁.errcode = .ok → t₂.errcode = .ok → s₁.rowSeq = s₂.rowSeq → s₁.colSeq = s₂.colSeq → s₁.viewDim = s₂.viewDim →
    6 ≤ s₁.viewDim.rows.toNat → 6 ≤ s₁.viewDim.cols.toNat → s₁.argSec ≠ s₂.argSec →
    ∃ r c, r < s₁.viewDim.rows.toNat ∧ c < s₁.viewDim.cols.toNat ∧ dotAt t₁ r c ≠ dotAt t₂ r c

/-- 42_encode.md R159: of any 3 consecutive cells exactly one is an address cell of the channel, so the base bit survives
in at least 2 of them, in each row for channel A and in each column for channel B. -/
def Obligations.BaseBitsSurviveInTwoOfThree : Prop :=
  (∀ x : Nat,
    ((if isAddressPhase (phase x) then 1 else 0) + (if isAddressPhase (phase (x + 1)) then 1 else 0)
      + (if isAddressPhase (phase (x + 2)) then 1 else 0) : Nat) = 1) ∧
  ∀ (rowSeq colSeq : SeqBits) (sx sy : BitVec 8) (r c : Nat),
    maj ((embed rowSeq colSeq sx sy r c).a == seqBit rowSeq r) ((embed rowSeq colSeq sx sy r (c + 1)).a == seqBit rowSeq r)
      ((embed rowSeq colSeq sx sy r (c + 2)).a == seqBit rowSeq r) = true ∧
    maj ((embed rowSeq colSeq sx sy r c).b == seqBit colSeq c) ((embed rowSeq colSeq sx sy (r + 1) c).b == seqBit colSeq c)
      ((embed rowSeq colSeq sx sy (r + 2) c).b == seqBit colSeq c) = true

/-- 43_decode.md R184: the size test: every phase occurs among the rows (or columns), and the first occurrence of a phase is
the least index that has it. 42_encode.md R160: how many rows (or columns) from an absolute index below L that takes, and that
a view which covers every phase contains a cell of every slot. -/
def Obligations.PhaseCoverageNeedsTheTabledSize : Prop :=
  (∀ n p : Nat,
    (coversPhases n p = true ↔ ∀ rho, rho < 6 → ∃ i, i < n ∧ ((p + i) % 63) % 6 = rho) ∧
    (∀ rho, rho < 6 → coversPhases n p = true →
      firstOf n p rho < n ∧ ((p + firstOf n p rho) % 63) % 6 = rho ∧
      ∀ i, i < firstOf n p rho → ((p + i) % 63) % 6 ≠ rho)) ∧
  (∀ n p : Nat, p < 63 →
    (coversPhases n p = true ↔
      (if p ≤ 57 then 6 else if p ≤ 60 then 9 else if p = 61 then 8 else 7) ≤ n)) ∧
  ∀ rows cols pr pc k : Nat, coversPhases rows pr = true → coversPhases cols pc = true →
    (k < 12 → ∃ i j, i < rows ∧ j < cols ∧ isAddressPhase (phase (pc + j)) = true ∧
      slotA (phase (pr + i)) (phase (pc + j)) = k) ∧
    (12 ≤ k → k < 24 → ∃ i j, i < rows ∧ j < cols ∧ isAddressPhase (phase (pr + i)) = true ∧
      slotB (phase (pr + i)) (phase (pc + j)) = k)

/-! ### The decoders -/

/-- 43_decode.md R183: DECPOS in the order of its checks, with what each outcome writes. -/
def Obligations.DecposFollowsItsRule : Prop :=
  encode .decpos = 0x00000003 ∧
  ∀ s : State,
    (s.built = false → exec .decpos s = .next { s with errcode := .notBuilt, done := true, cmd := none }) ∧
    (s.built = true →
      s.matDim.rows.toNat < s.viewOrg.row0.toNat + s.viewDim.rows.toNat ∨
        s.matDim.cols.toNat < s.viewOrg.col0.toNat + s.viewDim.cols.toNat →
      exec .decpos s = .next { s with errcode := .badView, done := true, cmd := none }) ∧
    (s.built = true →
      s.viewOrg.row0.toNat + s.viewDim.rows.toNat ≤ s.matDim.rows.toNat →
      s.viewOrg.col0.toNat + s.viewDim.cols.toNat ≤ s.matDim.cols.toNat →
      (s.viewDim.rows.toNat < 6 ∨ s.viewDim.cols.toNat < 6 →
        exec .decpos s = .next { s with errcode := .tooSmall, done := true, cmd := none }) ∧
      (6 ≤ s.viewDim.rows.toNat → 6 ≤ s.viewDim.cols.toNat →
        (lutGet s.lutR (windowA (viewDot s)) = none ∨ lutGet s.lutC (windowB (viewDot s)) = none →
          exec .decpos s = .next { s with
            resWin := { wa := windowA (viewDot s), wb := windowB (viewDot s) },
            errcode := .invalidWindow, done := true, cmd := none }) ∧
        (∀ row col, lutGet s.lutR (windowA (viewDot s)) = some row → lutGet s.lutC (windowB (viewDot s)) = some col →
          exec .decpos s = .next { s with
            resWin := { wa := windowA (viewDot s), wb := windowB (viewDot s) },
            resPos := { col := BitVec.ofNat 16 (col.toNat % 63), row := BitVec.ofNat 16 (row.toNat % 63) },
            errcode := .ok, done := true, cmd := none })))

/-- 43_decode.md R181: bit N−1−i of wA is the majority of channel A over the first three cells of row i, and bit N−1−j of wB
that of channel B over the first three cells of column j. R183: DECPOS reads only rows 0..5 and columns 0..5 of the view: two
states that agree on their registers, their tables and those 36 cells get the same code, position and windows, whatever the
rest of their matrix holds. -/
def Obligations.DecposReadsOnlyTheCorner : Prop :=
  (∀ (g : Nat → Nat → Dot) (k : Nat), k < 6 →
    (windowA g).getLsbD (5 - k) =
      ((g k 0).a && (g k 1).a || (g k 0).a && (g k 2).a || (g k 1).a && (g k 2).a) ∧
    (windowB g).getLsbD (5 - k) =
      ((g 0 k).b && (g 1 k).b || (g 0 k).b && (g 2 k).b || (g 1 k).b && (g 2 k).b)) ∧
  ∀ (s : State) (m : Memory) (e : Nat) (t u : State), exec .decpos s = .next t →
    exec .decpos { s with mat := m, epoch := e } = .next u →
    (∀ i j, i < 6 → j < 6 → viewDot { s with mat := m, epoch := e } i j = viewDot s i j) →
    u = { t with mat := m, epoch := e }

/-- 43_decode.md R189: DECSEC in the order of its checks, with what each outcome writes. -/
def Obligations.DecsecFollowsItsRule : Prop :=
  encode .decsec = 0x00000004 ∧
  ∀ s : State,
    (s.built = false → exec .decsec s = .next { s with errcode := .notBuilt, done := true, cmd := none }) ∧
    (s.built = true →
      s.matDim.rows.toNat < s.viewOrg.row0.toNat + s.viewDim.rows.toNat ∨
        s.matDim.cols.toNat < s.viewOrg.col0.toNat + s.viewDim.cols.toNat →
      exec .decsec s = .next { s with errcode := .badView, done := true, cmd := none }) ∧
    (s.built = true →
      s.viewOrg.row0.toNat + s.viewDim.rows.toNat ≤ s.matDim.rows.toNat →
      s.viewOrg.col0.toNat + s.viewDim.cols.toNat ≤ s.matDim.cols.toNat →
      (63 ≤ s.argPos.col.toNat ∨ 63 ≤ s.argPos.row.toNat →
        exec .decsec s = .next { s with errcode := .badArg, done := true, cmd := none }) ∧
      (s.argPos.col.toNat < 63 → s.argPos.row.toNat < 63 →
        (coversPhases s.viewDim.rows.toNat s.argPos.row.toNat = false ∨
            coversPhases s.viewDim.cols.toNat s.argPos.col.toNat = false →
          exec .decsec s = .next { s with errcode := .tooSmall, done := true, cmd := none }) ∧
        (coversPhases s.viewDim.rows.toNat s.argPos.row.toNat = true →
          coversPhases s.viewDim.cols.toNat s.argPos.col.toNat = true →
          ∀ p, p = extractPayload s s.viewDim.rows.toNat s.viewDim.cols.toNat (viewDot s) s.argPos.col.toNat
              s.argPos.row.toNat →
            (copiesConsistent s s.viewDim.rows.toNat s.viewDim.cols.toNat (viewDot s) s.argPos.col.toNat
                s.argPos.row.toNat p = false ∨ validPayload p = false →
              exec .decsec s = .next { s with errcode := .checksumMismatch, done := true, cmd := none }) ∧
            (copiesConsistent s s.viewDim.rows.toNat s.viewDim.cols.toNat (viewDot s) s.argPos.col.toNat
                s.argPos.row.toNat p = true → validPayload p = true →
              exec .decsec s = .next { s with
                resSec := { sx := (p.extractLsb' 13 8).setWidth 16,
                            sy := (p.extractLsb' 21 3 ++ p.extractLsb' 7 5).setWidth 16 },
                errcode := .ok, done := true, cmd := none }))))

/-- 43_decode.md R185 to R188: DecodeSection finds (sx, sy) exactly when the position is in range, every phase is covered
and EVERY address cell of the grid carries its bit of the payload of (sx, sy) over the base bits. -/
def Obligations.SectionFoundIffEveryCopyCarriesIt : Prop :=
  ∀ (s : State) (rows cols : Nat) (g : Nat → Nat → Dot) (pc pr : Nat) (sx sy : BitVec 8),
    decodeSection s rows cols g pc pr = .found sx sy ↔
      pc < 63 ∧ pr < 63 ∧ coversPhases rows pr = true ∧ coversPhases cols pc = true ∧
      ∀ i j, i < rows → j < cols →
        (isAddressPhase (phase (pc + j)) = true →
          ((g i j).a ^^ seqBit s.rowSeq (pr + i)) = (payload sx sy).getLsbD (slotA (phase (pr + i)) (phase (pc + j)))) ∧
        (isAddressPhase (phase (pr + i)) = true →
          ((g i j).b ^^ seqBit s.colSeq (pc + j)) = (payload sx sy).getLsbD (slotB (phase (pr + i)) (phase (pc + j))))

/-- 43_decode.md R190: rotdir and its powers. R191: the dimensions and the cells of Rot_d, the top row becomes the rightmost
column, Rot_d = Rot_1^d on the cells of the grid, and Rot_1^4 = Rot_0. -/
def Obligations.QuarterTurnsCompose : Prop :=
  (∀ a b : Bool,
    rotDir { a := a, b := b } = { a := b, b := !a } ∧
    rotDir (rotDir { a := a, b := b }) = { a := !a, b := !b } ∧
    rotDir (rotDir (rotDir { a := a, b := b })) = { a := !b, b := a } ∧
    rotDir (rotDir (rotDir (rotDir { a := a, b := b }))) = { a := a, b := b }) ∧
  ∀ (rows cols : Nat) (g : Nat → Nat → Dot) (i j : Nat),
    ((rotRows 0 rows cols, rotCols 0 rows cols) = (rows, cols) ∧
      (rotRows 1 rows cols, rotCols 1 rows cols) = (cols, rows) ∧
      (rotRows 2 rows cols, rotCols 2 rows cols) = (rows, cols) ∧
      (rotRows 3 rows cols, rotCols 3 rows cols) = (cols, rows)) ∧
    (rotCell 0 rows cols g i j = g i j ∧
      rotCell 1 rows cols g i j = { a := (g (rows - 1 - j) i).b, b := !(g (rows - 1 - j) i).a } ∧
      rotCell 2 rows cols g i j =
        { a := !(g (rows - 1 - i) (cols - 1 - j)).a, b := !(g (rows - 1 - i) (cols - 1 - j)).b } ∧
      rotCell 3 rows cols g i j = { a := !(g j (cols - 1 - i)).b, b := (g j (cols - 1 - i)).a }) ∧
    (i < rows → j < cols → rotCell 2 rows cols g i j = rotCell 1 cols rows (rotCell 1 rows cols g) i j) ∧
    (i < cols → j < rows → rotCell 3 rows cols g i j = rotCell 1 rows cols (rotCell 2 rows cols g) i j) ∧
    (i < rows → j < cols → rotCell 1 cols rows (rotCell 3 rows cols g) i j = g i j) ∧
    (i < cols → 0 < rows → rotCell 1 rows cols g i (rows - 1) = rotDir (g 0 i))

/-- 43_decode.md R194: DECROT in the order of its checks; it writes RES_ROT and no other result. R192: a candidate validates
exactly when DecodePosition on the turned grid finds a position and DecodeSection at that position finds a section. -/
def Obligations.DecrotFollowsItsRule : Prop :=
  encode .decrot = 0x00000005 ∧
  (∀ (s : State) (rows cols : Nat) (g : Nat → Nat → Dot) (d : Fin 4),
    candidateValidates s rows cols g d = true ↔
      ∃ pc pr wA wB sx sy,
        decodePosition s (rotRows d rows cols) (rotCols d rows cols) (rotCell d rows cols g) = .position pc pr wA wB ∧
        decodeSection s (rotRows d rows cols) (rotCols d rows cols) (rotCell d rows cols g) pc pr = .found sx sy) ∧
  ∀ s : State,
    (s.built = false → exec .decrot s = .next { s with errcode := .notBuilt, done := true, cmd := none }) ∧
    (s.built = true →
      s.matDim.rows.toNat < s.viewOrg.row0.toNat + s.viewDim.rows.toNat ∨
        s.matDim.cols.toNat < s.viewOrg.col0.toNat + s.viewDim.cols.toNat →
      exec .decrot s = .next { s with errcode := .badView, done := true, cmd := none }) ∧
    (s.built = true →
      s.viewOrg.row0.toNat + s.viewDim.rows.toNat ≤ s.matDim.rows.toNat →
      s.viewOrg.col0.toNat + s.viewDim.cols.toNat ≤ s.matDim.cols.toNat →
      (s.viewDim.rows.toNat < 6 ∨ s.viewDim.cols.toNat < 6 →
        exec .decrot s = .next { s with errcode := .tooSmall, done := true, cmd := none }) ∧
      (6 ≤ s.viewDim.rows.toNat → 6 ≤ s.viewDim.cols.toNat →
        (∀ d : Fin 4,
          candidateValidates s s.viewDim.rows.toNat s.viewDim.cols.toNat (viewDot s) d = true →
          (∀ d', d' ≠ d → candidateValidates s s.viewDim.rows.toNat s.viewDim.cols.toNat (viewDot s) d' = false) →
          exec .decrot s = .next { s with
            resRot := BitVec.ofNat 2 d.val, errcode := .ok, done := true, cmd := none }) ∧
        ((¬ ∃ d : Fin 4,
          candidateValidates s s.viewDim.rows.toNat s.viewDim.cols.toNat (viewDot s) d = true ∧
          ∀ d', d' ≠ d → candidateValidates s s.viewDim.rows.toNat s.viewDim.cols.toNat (viewDot s) d' = false) →
          exec .decrot s = .next { s with errcode := .ambiguousOrientation, done := true, cmd := none })))

/-! ### Round trips on encoded matrices -/

/-- 43_decode.md R195 item 1: after a successful ENCODE, DECPOS on any in-bounds view of at least 6 × 6 finds the view's own
corner modulo L, and the windows of the base sequences there. -/
def Obligations.PositionRoundTrip : Prop :=
  ∀ (s t v : State) (org : Origin) (dim : Dims), s.Inv → exec .encode s = .next t → t.errcode = .ok →
    v = { t with viewOrg := org, viewDim := dim } →
    org.row0.toNat + dim.rows.toNat ≤ t.matDim.rows.toNat → org.col0.toNat + dim.cols.toNat ≤ t.matDim.cols.toNat →
    6 ≤ dim.rows.toNat → 6 ≤ dim.cols.toNat →
    exec .decpos v = .next { v with
      resWin := { wa := window s.rowSeq org.row0.toNat, wb := window s.colSeq org.col0.toNat },
      resPos := { col := BitVec.ofNat 16 (org.col0.toNat % 63), row := BitVec.ofNat 16 (org.row0.toNat % 63) },
      errcode := .ok, done := true, cmd := none }

/-- 43_decode.md R195 item 2: after a successful ENCODE, DECSEC on any in-bounds view that covers every phase, at the
position of the view's corner modulo L, finds the encoded section. -/
def Obligations.SectionRoundTrip : Prop :=
  ∀ (s t v : State) (org : Origin) (dim : Dims) (pos : Position), exec .encode s = .next t → t.errcode = .ok →
    v = { t with viewOrg := org, viewDim := dim, argPos := pos } →
    org.row0.toNat + dim.rows.toNat ≤ t.matDim.rows.toNat → org.col0.toNat + dim.cols.toNat ≤ t.matDim.cols.toNat →
    pos.col.toNat = org.col0.toNat % 63 → pos.row.toNat = org.row0.toNat % 63 →
    coversPhases dim.rows.toNat pos.row.toNat = true → coversPhases dim.cols.toNat pos.col.toNat = true →
    exec .decsec v = .next { v with resSec := s.argSec, errcode := .ok, done := true, cmd := none }

/-- 43_decode.md R195 item 4: after a successful ENCODE, on an in-bounds view that covers every phase from its corner,
candidate 0 validates, so DECROT answers rotation 0 or AMBIGUOUS_ORIENTATION and never a wrong rotation. -/
def Obligations.UprightViewNeverGetsAWrongRotation : Prop :=
  ∀ (s t v : State) (org : Origin) (dim : Dims), s.Inv → exec .encode s = .next t → t.errcode = .ok →
    v = { t with viewOrg := org, viewDim := dim } →
    org.row0.toNat + dim.rows.toNat ≤ t.matDim.rows.toNat → org.col0.toNat + dim.cols.toNat ≤ t.matDim.cols.toNat →
    coversPhases dim.rows.toNat (org.row0.toNat % 63) = true → coversPhases dim.cols.toNat (org.col0.toNat % 63) = true →
    candidateValidates v dim.rows.toNat dim.cols.toNat (viewDot v) 0 = true ∧
    (exec .decrot v = .next { v with resRot := 0, errcode := .ok, done := true, cmd := none } ∨
      exec .decrot v = .next { v with errcode := .ambiguousOrientation, done := true, cmd := none })

/-- 43_decode.md R195 item 4 (and 90_conflicts.md C7): a grid turned counter-clockwise k times validates at candidate k
exactly when the grid itself validates upright; and a grid validates exactly when both decodes succeed on it (R192). -/
def Obligations.TurnedCaptureValidatesAtItsTurn : Prop :=
  ∀ (s : State) (rows cols : Nat) (g : Nat → Nat → Dot),
    (gridValidates s rows cols g = true ↔
      ∃ pc pr wA wB sx sy, decodePosition s rows cols g = .position pc pr wA wB ∧
        decodeSection s rows cols g pc pr = .found sx sy) ∧
    candidateValidates s rows cols g 0 = gridValidates s rows cols g ∧
    candidateValidates s cols rows (rotCell 3 rows cols g) 1 = gridValidates s rows cols g ∧
    candidateValidates s rows cols (rotCell 3 cols rows (rotCell 3 rows cols g)) 2 = gridValidates s rows cols g ∧
    candidateValidates s cols rows (rotCell 3 rows cols (rotCell 3 cols rows (rotCell 3 rows cols g))) 3 =
      gridValidates s rows cols g

/-! ### Host accesses -/

/-- 20_memory.md R61: exactly the illegal accesses inside the aperture get BusError, with no change of the block, and they
never set OVR. -/
def Obligations.IllegalAccessGetsBusErrorOnly : Prop :=
  ∀ (s : State) (off n : Nat) (v : Word), off < 0x8000 →
    ((((off < 0x100 ∧ (off ≤ 0x030 ∨ (0x040 ≤ off ∧ off ≤ 0x04C))) ∨ (0x1000 ≤ off ∧ off < 0x1400)) ∧
        n = 4 ∧ off % 4 = 0) ∨
      (0x4000 ≤ off ∧ (n = 1 ∨ n = 2 ∨ n = 4) ∧ off % n = 0) →
      (hostRead s off n).resp ≠ .busError ∧ (hostWrite s off n v).resp ≠ .busError) ∧
    (¬ ((((off < 0x100 ∧ (off ≤ 0x030 ∨ (0x040 ≤ off ∧ off ≤ 0x04C))) ∨ (0x1000 ≤ off ∧ off < 0x1400)) ∧
        n = 4 ∧ off % 4 = 0) ∨
      (0x4000 ≤ off ∧ (n = 1 ∨ n = 2 ∨ n = 4) ∧ off % n = 0)) →
      hostRead s off n = { s with resp := .busError } ∧ hostWrite s off n v = { s with resp := .busError })

/-- 20_memory.md R68: no read has a side effect on the block (the model's own response and read count aside), and repeating
a read returns the same response unless it is of the matrix while an ENCODE is in flight. -/
def Obligations.ReadsHaveNoSideEffect : Prop :=
  ∀ (s : State) (off n : Nat),
    hostRead s off n = { s with resp := (hostRead s off n).resp, tick := (hostRead s off n).tick } ∧
    (off < 0x4000 ∨ s.encodeInFlight = false →
      (hostRead (hostRead s off n) off n).resp = (hostRead s off n).resp ∧ (hostRead s off n).tick = s.tick)

/-- 10_state.md R33 to R40, 20_memory.md R62, R71: in every state, built or not and with a command in flight or not, a read of
an RW operand register returns its fields, reserved bits 0. 10_state.md R23: what it returns after a write to it while idle:
the written fields, MAT_DIM clamped to 128; nothing but that register changes. -/
def Obligations.OperandRegistersReadBack : Prop :=
  (∀ s : State,
    (hostRead s 0x010 4).resp = .data 4 (BitVec.ofNat 32 s.tapsRow.toNat) ∧
    (hostRead s 0x014 4).resp = .data 4 (BitVec.ofNat 32 s.seedRow.toNat) ∧
    (hostRead s 0x018 4).resp = .data 4 (BitVec.ofNat 32 s.tapsCol.toNat) ∧
    (hostRead s 0x01C 4).resp = .data 4 (BitVec.ofNat 32 s.seedCol.toNat) ∧
    (hostRead s 0x020 4).resp = .data 4 (BitVec.ofNat 32 (256 * s.matDim.cols.toNat + s.matDim.rows.toNat)) ∧
    (hostRead s 0x024 4).resp = .data 4 (BitVec.ofNat 32 (256 * s.viewOrg.col0.toNat + s.viewOrg.row0.toNat)) ∧
    (hostRead s 0x028 4).resp = .data 4 (BitVec.ofNat 32 (256 * s.viewDim.cols.toNat + s.viewDim.rows.toNat)) ∧
    (hostRead s 0x02C 4).resp = .data 4 (BitVec.ofNat 32 (65536 * s.argSec.sy.toNat + s.argSec.sx.toNat)) ∧
    (hostRead s 0x030 4).resp = .data 4 (BitVec.ofNat 32 (65536 * s.argPos.row.toNat + s.argPos.col.toNat))) ∧
  ∀ (s : State) (v : Word), s.cmd = none →
    (∀ r, r ∈ [(0x024 : Nat), 0x028] →
      (hostRead (hostWrite s r 4 v) r 4).resp = .data 4 (BitVec.ofNat 32 (v.toNat % 65536))) ∧
    (∀ r, r ∈ [(0x02C : Nat), 0x030] → (hostRead (hostWrite s r 4 v) r 4).resp = .data 4 v) ∧
    (hostRead (hostWrite s 0x020 4 v) 0x020 4).resp =
      .data 4 (BitVec.ofNat 32 (256 * min ((v.toNat / 256) % 256) 128 + min (v.toNat % 256) 128)) ∧
    (∀ r, r ∈ [(0x010 : Nat), 0x014, 0x018, 0x01C] → s.built = false →
      (hostRead (hostWrite s r 4 v) r 4).resp = .data 4 (BitVec.ofNat 32 (v.toNat % 64))) ∧
    hostWrite s 0x020 4 v = { s with matDim := (hostWrite s 0x020 4 v).matDim, resp := .written } ∧
    hostWrite s 0x024 4 v = { s with viewOrg := (hostWrite s 0x024 4 v).viewOrg, resp := .written } ∧
    hostWrite s 0x028 4 v = { s with viewDim := (hostWrite s 0x028 4 v).viewDim, resp := .written } ∧
    hostWrite s 0x02C 4 v = { s with argSec := (hostWrite s 0x02C 4 v).argSec, resp := .written } ∧
    hostWrite s 0x030 4 v = { s with argPos := (hostWrite s 0x030 4 v).argPos, resp := .written }

/-- 10_state.md R35: while built and idle a write to TAPS or SEED is ignored and OVR is not set; while not built and idle it
stores bits [5:0]. -/
def Obligations.ConfigurationIsLockedWhileBuilt : Prop :=
  ∀ (s : State) (v : Word), s.cmd = none →
    (s.built = true → ∀ r, r ∈ [(0x010 : Nat), 0x014, 0x018, 0x01C] → hostWrite s r 4 v = { s with resp := .written }) ∧
    (s.built = false →
      hostWrite s 0x010 4 v = { s with tapsRow := v.extractLsb' 0 6, resp := .written } ∧
      hostWrite s 0x014 4 v = { s with seedRow := v.extractLsb' 0 6, resp := .written } ∧
      hostWrite s 0x018 4 v = { s with tapsCol := v.extractLsb' 0 6, resp := .written } ∧
      hostWrite s 0x01C 4 v = { s with seedCol := v.extractLsb' 0 6, resp := .written })

/-- 20_memory.md R62, R69, 10_state.md R24, R41 to R44: idle writes to read-only registers and to the SEQ/LUT windows change
nothing and get no BusError; ID reads as its constant, CMD as 0, and the result registers as their fields. -/
def Obligations.ReadOnlyTargetsIgnoreWrites : Prop :=
  ∀ (s : State) (v : Word),
    (s.cmd = none → ∀ r, r ∈ [(0x000 : Nat), 0x040, 0x044, 0x048, 0x04C] → hostWrite s r 4 v = { s with resp := .written }) ∧
    (s.cmd = none → ∀ off, 0x1000 ≤ off → off < 0x1400 → off % 4 = 0 → hostWrite s off 4 v = { s with resp := .written }) ∧
    (hostRead s 0x000 4).resp = .data 4 0x01800806 ∧ (hostRead s 0x00C 4).resp = .data 4 0 ∧
    (hostRead s 0x040 4).resp = .data 4 (s.resPos.row ++ s.resPos.col) ∧
    (hostRead s 0x044 4).resp = .data 4 (s.resSec.sy ++ s.resSec.sx) ∧
    (hostRead s 0x048 4).resp = .data 4 (BitVec.ofNat 32 s.resRot.toNat) ∧
    (hostRead s 0x04C 4).resp = .data 4 (BitVec.ofNat 32 (256 * s.resWin.wb.toNat + s.resWin.wa.toNat))

/-- 40_command_issue.md R100: a CMD write while idle latches the word, legal or not, and changes nothing else. -/
def Obligations.IssueOnlyLatchesTheWord : Prop :=
  ∀ (s : State) (w : Word), s.cmd = none →
    hostWrite s 0x00C 4 w = { s with cmd := some w, resp := .written } ∧ (hostWrite s 0x00C 4 w).busy = true

/-- 10_state.md R25: CTRL. SRST = 1 is a soft reset and the whole effect of the write, else IE is stored; both also while a
command is in flight; CTRL reads as IE in bit 0. -/
def Obligations.CtrlWriteStoresIeOrResets : Prop :=
  ∀ (s : State) (v : Word),
    (v.getLsbD 1 = true → hostWrite s 0x004 4 v = { s.afterReset with resp := .written } ∧
      (hostWrite s 0x004 4 v).ctrlIe = false) ∧
    (v.getLsbD 1 = false → hostWrite s 0x004 4 v = { s with ctrlIe := v.getLsbD 0, resp := .written }) ∧
    (hostRead s 0x004 4).resp = .data 4 (if s.ctrlIe then 1 else 0)

/-- 10_state.md R26, R27, R30: the fields of STATUS, and write-one-to-clear of DONE and OVR, also while busy. -/
def Obligations.StatusReadsItsFieldsAndClearsOnOne : Prop :=
  ∀ (s : State) (v : Word),
    (statusWord s).getLsbD 0 = s.cmd.isSome ∧ (statusWord s).getLsbD 1 = s.done ∧ (statusWord s).getLsbD 2 = s.built ∧
    ((statusWord s).getLsbD 3 = true ↔ s.errcode ≠ .ok) ∧ (statusWord s).getLsbD 4 = s.ovr ∧
    (statusWord s).extractLsb' 5 3 = 0 ∧ (statusWord s).extractLsb' 8 8 = s.errcode.byte ∧
    (statusWord s).extractLsb' 16 16 = 0 ∧ (hostRead s 0x008 4).resp = .data 4 (statusWord s) ∧
    hostWrite s 0x008 4 v = { s with
      done := if v.getLsbD 1 then false else s.done
      ovr := if v.getLsbD 4 then false else s.ovr
      resp := .written }

/-- 40_command_issue.md R105: while a command is in flight a write to CTRL or STATUS is performed; any other legal write is
dropped: it changes nothing it addresses and sets OVR; and a read of the same target is performed: it brings a datum (which
one, the statements about each target say) and changes nothing but the model's own response and read count. -/
def Obligations.BusyWritesAreDroppedAndSetOvr : Prop :=
  ∀ (s : State) (off n : Nat) (v : Word), s.busy = true →
    (hostWrite s 0x004 4 v =
      if v.getLsbD 1 then { s.afterReset with resp := .written }
      else { s with ctrlIe := v.getLsbD 0, resp := .written }) ∧
    (hostWrite s 0x008 4 v =
      { s with done := s.done && !v.getLsbD 1, ovr := s.ovr && !v.getLsbD 4, resp := .written }) ∧
    (off < 0x8000 → (hostWrite s off n v).resp ≠ .busError →
      (∃ d, hostRead s off n = { s with resp := .data n d, tick := (hostRead s off n).tick }) ∧
      (off ≠ 0x004 → off ≠ 0x008 → hostWrite s off n v = { s with ovr := true, resp := .written }))

/-- 10_state.md R31: OVR is set by exactly the host writes that are dropped, and cleared only by a write of 1 to STATUS bit 4
or by a reset; no command and no read changes it. -/
def Obligations.OvrRisesOnlyOnADroppedWrite : Prop :=
  (∀ (s : State) (off n : Nat) (v : Word),
    (s.ovr = false → ((hostWrite s off n v).ovr = true ↔ writeLost s off n = true)) ∧
    (s.ovr = true → (hostWrite s off n v).ovr = false →
      n = 4 ∧ ((off = 0x008 ∧ v.getLsbD 4 = true) ∨ (off = 0x004 ∧ v.getLsbD 1 = true))) ∧
    (v.getLsbD 4 = true → (hostWrite s 0x008 4 v).ovr = false) ∧
    s.afterReset.ovr = false ∧ (hostRead s off n).ovr = s.ovr) ∧
  ∀ s t : State, engineStep s = .next t → t.ovr = s.ovr

/-- 20_memory.md R63: an aligned idle write of 1, 2 or 4 bytes to the matrix RAM stores bits [1:0] of each byte in the cell
of that byte, leaves every other cell, and changes nothing else. -/
def Obligations.MatrixWriteStoresItsCellsOnly : Prop :=
  ∀ (s : State) (off n : Nat) (v : Word), s.cmd = none → 0x4000 ≤ off → off < 0x8000 → n = 1 ∨ n = 2 ∨ n = 4 →
    off % n = 0 →
    hostWrite s off n v = { s with mat := (hostWrite s off n v).mat, resp := .written } ∧
    (∀ k, k < n → cellBits (hostWrite s off n v) (off + k) = v.extractLsb' (8 * k) 2) ∧
    (∀ a, a < off ∨ off + n ≤ a → cellBits (hostWrite s off n v) a = cellBits s a)

/-- 20_memory.md R63, R65: an aligned read of the matrix RAM outside an ENCODE returns the cells little-endian, each as one
byte with bits [7:2] clear, and 0 above its width. -/
def Obligations.MatrixReadIsLittleEndian : Prop :=
  ∀ (s : State) (off n : Nat), s.encodeInFlight = false → 0x4000 ≤ off → off < 0x8000 → n = 1 ∨ n = 2 ∨ n = 4 →
    off % n = 0 →
    ∃ d : Word, (hostRead s off n).resp = .data n d ∧ d.toNat < 256 ^ n ∧
      ∀ k, k < n → (d.toNat / 256 ^ k) % 256 = (cellBits s (off + k)).toNat

/-- 20_memory.md R71: a matrix read while an ENCODE is in flight returns one unspecified cell value per byte, whose reserved
bits are 0, and changes nothing of the block; the model's free-value count moves on, so that the next such read is free
again. -/
def Obligations.MatrixReadDuringEncodeIsFree : Prop :=
  ∀ (s : State) (off n : Nat), s.cmd = some (encode .encode) → 0x4000 ≤ off → off < 0x8000 → n = 1 ∨ n = 2 ∨ n = 4 →
    off % n = 0 →
    ∃ d : Word, hostRead s off n = { s with resp := .data n d, tick := s.tick + 1 } ∧ d.toNat < 256 ^ n ∧
      ∀ k, k < n → (d.toNat / 256 ^ k) % 256 = (Config.busyCell s.tick (off + k)).toNat

/-- 20_memory.md R69: what the four SEQ/LUT windows return, and that a write to one is ignored while idle and dropped while a
command is in flight, without BusError. -/
def Obligations.WindowsShowTheBuiltTables : Prop :=
  ∀ (s : State) (i : Nat) (hi : i < 64) (v : Word),
    (∀ b, b ∈ [(0x1000 : Nat), 0x1100, 0x1200, 0x1300] →
      (s.built = false → (hostRead s (b + 4 * i) 4).resp = .data 4 0) ∧
      (s.cmd = none → hostWrite s (b + 4 * i) 4 v = { s with resp := .written }) ∧
      (s.busy = true → hostWrite s (b + 4 * i) 4 v = { s with ovr := true, resp := .written })) ∧
    (s.built = true →
      (hostRead s (0x1000 + 4 * i) 4).resp =
        .data 4 (if i < 63 ∧ s.rowSeq.getLsbD i = true then 1 else 0) ∧
      (hostRead s (0x1100 + 4 * i) 4).resp =
        .data 4 (if i < 63 ∧ s.colSeq.getLsbD i = true then 1 else 0) ∧
      (hostRead s (0x1200 + 4 * i) 4).resp =
        .data 4 (if s.lutR[i].valid then BitVec.ofNat 32 (2 ^ 31 + s.lutR[i].index.toNat) else 0) ∧
      (hostRead s (0x1300 + 4 * i) 4).resp =
        .data 4 (if s.lutC[i].valid then BitVec.ofNat 32 (2 ^ 31 + s.lutC[i].index.toNat) else 0))

/-- 20_memory.md R60, 00_scope.md R6: a bus access reaches the offset from BASE, an access outside the aperture is not seen,
whatever multiple of 0x8000 the platform gave the block as BASE. -/
def Obligations.BusAddressesReachTheirOffset : Prop :=
  Config.base % 0x8000 = 0 ∧
  ∀ (s : State) (off addr n : Nat) (v : Word),
    (off < 0x8000 → busAccess (.read (Config.base + off) n) s = hostRead s off n ∧
      busAccess (.write (Config.base + off) n v) s = hostWrite s off n v) ∧
    (addr < Config.base ∨ Config.base + 0x8000 ≤ addr →
      busAccess (.read addr n) s = s ∧ busAccess (.write addr n v) s = s)

/-! ### Interrupt, reset and interleaving -/

/-- 60_exceptions.md R234, 10_state.md R50: irq is CTRL.IE ∧ STATUS.DONE; every completion raises it exactly when IE = 1, a
DONE clear drops it, and masking it keeps DONE. -/
def Obligations.IrqFollowsIeAndDone : Prop :=
  (∀ s : State, s.irq = true ↔ s.ctrlIe = true ∧ s.done = true) ∧
  (∀ (i : Instr) (s t : State), exec i s = .next t → t.irq = s.ctrlIe) ∧
  (∀ (s : State) (v : Word), v.getLsbD 1 = true → (hostWrite s 0x008 4 v).irq = false) ∧
  (∀ s : State, (hostWrite s 0x004 4 0).done = s.done ∧ (hostWrite s 0x004 4 0).irq = false ∧
    (hostWrite s 0x004 4 1).irq = s.done)

/-- 70_reset_and_hazards.md R260: the values the spec gives every register after reset; and every cell of the matrix RAM reads
as a free value of the new epoch, which nothing constrains, whatever it held before (log 3: the epoch is the model's own). The
table RAMs' content, unspecified and unobservable, is not part of the statement. -/
def Obligations.ResetLeavesTheTabledValues : Prop :=
  ∀ s : State,
    s.afterReset.ctrlIe = false ∧ s.afterReset.cmd = none ∧ s.afterReset.done = false ∧ s.afterReset.built = false ∧
    s.afterReset.errcode = .ok ∧ s.afterReset.ovr = false ∧
    s.afterReset.tapsRow = 0x30 ∧ s.afterReset.seedRow = 0x20 ∧ s.afterReset.tapsCol = 0x36 ∧
    s.afterReset.seedCol = 0x20 ∧ s.afterReset.matDim = ⟨0, 0⟩ ∧ s.afterReset.viewOrg = ⟨0, 0⟩ ∧
    s.afterReset.viewDim = ⟨0, 0⟩ ∧ s.afterReset.argSec = ⟨0, 0⟩ ∧ s.afterReset.argPos = ⟨0, 0⟩ ∧
    s.afterReset.resPos = ⟨0, 0⟩ ∧ s.afterReset.resSec = ⟨0, 0⟩ ∧ s.afterReset.resRot = 0 ∧
    s.afterReset.resWin = ⟨0, 0⟩ ∧ s.afterReset.irq = false ∧ statusWord s.afterReset = 0x00000000 ∧
    (hostRead s.afterReset 0x000 4).resp = .data 4 0x01800806 ∧
    ∀ off, cellBits s.afterReset off = Config.resetCell (s.epoch + 1) off

/-- 70_reset_and_hazards.md R261, R262: a soft reset, or the reset input, abandons the command in flight: there is no
completion, and the engine has no step; a soft reset in the cycle of the completion wins over it in either order. -/
def Obligations.ResetAbandonsTheCommandInFlight : Prop :=
  ∀ (s : State) (v : Word), v.getLsbD 1 = true →
    hostWrite s 0x004 4 v = { s.afterReset with resp := .written } ∧
    (hostWrite s 0x004 4 v).busy = false ∧ (hostWrite s 0x004 4 v).done = false ∧
    (hostWrite s 0x004 4 v).errcode = .ok ∧
    engineStep (hostWrite s 0x004 4 v) = .next (hostWrite s 0x004 4 v) ∧
    engineStep s.afterReset = .next s.afterReset ∧
    ∀ order, coincide order (.write 0x004 4 v) s = .next { s.afterReset with resp := .written }

/-- 10_state.md R28, 60_exceptions.md R235: a completion and a STATUS write that clears DONE in the same cycle leave DONE = 1
in either order, with the code of the completion. -/
def Obligations.CompletionWinsOverAClearOfDone : Prop :=
  ∀ (s : State) (order : CycleOrder) (v w : Word) (i : Instr), s.cmd = some w → decodeWord w = .ok i →
    ∃ t u, coincide order (.write 0x008 4 v) s = .next t ∧ exec i s = .next u ∧
      t.done = true ∧ t.cmd = none ∧ t.errcode = u.errcode ∧ (v.getLsbD 4 = true → t.ovr = false)

/-- 10_state.md R48, 20_memory.md R71, R73, 40_command_issue.md R102: the latency is invisible to a command. Whatever host
accesses (none of them a soft reset) come between the issue and the completion, the command completes with the same code and
leaves the same results, tables, matrix and operands as if it had completed at once. -/
def Obligations.LatencyDoesNotChangeResults : Prop :=
  ∀ (s : State) (between : List Access) (t u : State), s.busy = true →
    (∀ off n v, Access.write off n v ∈ between → ¬ (off = 0x004 ∧ n = 4 ∧ v.getLsbD 1 = true)) →
    engineStep s = .next t →
    engineStep (between.foldl (fun x a => hostAccess a x) s) = .next u →
    u = { t with ctrlIe := u.ctrlIe, ovr := u.ovr, resp := u.resp, tick := u.tick }

/-- 10_state.md R29, R35: while BUILT = 1 the sequences, the tables and their configuration do not change in any step, but
for a reset, which clears BUILT. -/
def Obligations.TablesAreImmutableWhileBuilt : Prop :=
  ∀ s t : State, s.built = true → step s = .next t →
    (t.built = true ∧ t.rowSeq = s.rowSeq ∧ t.colSeq = s.colSeq ∧ t.lutR = s.lutR ∧ t.lutC = s.lutC ∧
      t.tapsRow = s.tapsRow ∧ t.seedRow = s.seedRow ∧ t.tapsCol = s.tapsCol ∧ t.seedCol = s.seedCol ∧
      t.epoch = s.epoch) ∨
    (t.built = false ∧ t.epoch = s.epoch + 1)

/-! ### The invariant -/

/-- The reset state meets the invariant of the block (Sys2Proof/Safety.lean). -/
def Obligations.ResetMeetsTheInvariant : Prop := State.reset.Inv

/-- Every step keeps the invariant of the block: the matrix memory's canonical form, MAT_DIM inside the RAM (10_state.md
R36), BUILT true of the tables (R29), and the result registers in their ranges. -/
def Obligations.EveryStepKeepsTheInvariant : Prop := ∀ s t : State, s.Inv → step s = .next t → t.Inv
end

