-- ==== Sys2Proof/Laws/Bits.lean ====
section
/-! SUPPORT. The bits of the shared bit helpers: single bits, packed lists, windows, and little-endian words. -/

namespace Sys2Proof.Machine

@[simp] theorem getLsbD_bitOf (w : Nat) (b : Bool) (i : Nat) :
    (bitOf w b).getLsbD i = (decide (i < w) && decide (i = 0) && b) := by
  simp only [bitOf, BitVec.getLsbD_setWidth, BitVec.getLsbD_ofBool]
  cases b <;> simp

@[simp] theorem getElem_bitOf (w : Nat) (b : Bool) (i : Nat) (h : i < w) :
    (bitOf w b)[i] = (decide (i = 0) && b) := by
  rw [← BitVec.getLsbD_eq_getElem, getLsbD_bitOf]
  simp [h]

/-- Bit k of a packed list is its k-th element. -/
theorem getLsbD_ofBits (w : Nat) (bs : List Bool) (k : Nat) (hk : k < w) :
    (ofBits w bs).getLsbD k = bs.getD k false := by
  induction bs generalizing k with
  | nil => simp [ofBits]
  | cons b bs ih =>
    cases k with
    | zero => simp [ofBits, hk]
    | succ k =>
      have := ih k (by omega)
      simp_all [ofBits]

/-- Bit k of the vector packed from `f 0, f 1, …`. -/
theorem getLsbD_ofBits_map_range (w : Nat) (f : Nat → Bool) (k : Nat) (hk : k < w) :
    (ofBits w ((List.range w).map f)).getLsbD k = f k := by
  rw [getLsbD_ofBits w _ k hk]
  simp [hk]

/-- The bits of a packed window: the first bit is the most significant (41_sequence_lut.md R122). -/
theorem getLsbD_packWindow (f : Nat → Bool) (k : Nat) (hk : k < 6) : (packWindow f).getLsbD (5 - k) = f k := by
  have h : List.range 6 = [0, 1, 2, 3, 4, 5] := by decide
  rw [packWindow, h]
  match k, hk with
  | 0, _ => simp
  | 1, _ => simp
  | 2, _ => simp
  | 3, _ => simp
  | 4, _ => simp
  | 5, _ => simp

/-- Packing reads only the bits 0 to 5. -/
theorem packWindow_congr {f g : Nat → Bool} (h : ∀ k, k < 6 → f k = g k) : packWindow f = packWindow g := by
  apply BitVec.eq_of_getLsbD_eq
  intro i hi
  have hk : 5 - (5 - i) = i := by omega
  rw [← hk, getLsbD_packWindow f _ (by omega), getLsbD_packWindow g _ (by omega), h _ (by omega)]

/-- Two windows with the same bits 0 to 5, first bit first. -/
theorem eq_packWindow {w : Window} {f : Nat → Bool} (h : ∀ k, k < 6 → w.getLsbD (5 - k) = f k) : w = packWindow f := by
  apply BitVec.eq_of_getLsbD_eq
  intro i hi
  have hk : 5 - (5 - i) = i := by omega
  rw [← hk, h _ (by omega), getLsbD_packWindow f _ (by omega)]

/-- A little-endian word as a number. -/
theorem toNat_leWord_cons (b : Byte) (bs : List Byte) (h : bs.length < 4) :
    (leWord (b :: bs)).toNat = b.toNat + 256 * (leWord bs).toNat ∧ (leWord bs).toNat < 256 ^ bs.length := by
  induction bs generalizing b with
  | nil =>
    have hb := b.isLt
    simp [leWord]
    omega
  | cons c cs ih =>
    obtain ⟨h1, h2⟩ := ih c (by simp at h; omega)
    have hb := b.isLt
    have hc := c.isLt
    have hlt : (leWord (c :: cs)).toNat < 256 ^ (cs.length + 1) := by
      rw [h1, pow_succ]
      omega
    have hlen : cs.length + 1 ≤ 3 := by simp at h; omega
    have hpow : 256 ^ (cs.length + 1) ≤ 256 ^ 3 := Nat.pow_le_pow_right (by norm_num) hlen
    refine ⟨?_, by simpa using hlt⟩
    conv_lhs => rw [leWord]
    rw [BitVec.toNat_or, BitVec.toNat_shiftLeft, BitVec.toNat_setWidth,
      Nat.mod_eq_of_lt (show b.toNat < 2 ^ 32 by omega), Nat.shiftLeft_eq,
      Nat.mod_eq_of_lt (by norm_num at hpow ⊢; omega), Nat.mul_comm _ (2 ^ 8),
      ← Nat.two_pow_add_eq_or_of_lt hb]
    omega

/-- The byte k of a little-endian word is the k-th byte, and the word lies below 256 to the number of bytes. -/
theorem leWord_bytes (bs : List Byte) (h : bs.length ≤ 4) :
    (leWord bs).toNat < 256 ^ bs.length ∧
      ∀ k, k < bs.length → ((leWord bs).toNat / 256 ^ k) % 256 = (bs.getD k 0).toNat := by
  induction bs with
  | nil => simp [leWord]
  | cons b bs ih =>
    have hlen : bs.length < 4 := by simp at h; omega
    obtain ⟨h1, h2⟩ := toNat_leWord_cons b bs hlen
    obtain ⟨_, hk⟩ := ih (by omega)
    have hb := b.isLt
    refine ⟨by rw [h1, List.length_cons, pow_succ]; omega, ?_⟩
    intro k hlt
    cases k with
    | zero => simp [h1]; omega
    | succ k =>
      have := hk k (by simpa using hlt)
      rw [pow_succ, Nat.mul_comm, ← Nat.div_div_eq_div_mul, h1]
      have hq : (b.toNat + 256 * (leWord bs).toNat) / 256 = (leWord bs).toNat := by omega
      rw [hq, this]
      simp

end Sys2Proof.Machine
end

