-- ==== Sys2Proof/Laws/Decode.lean ====
section
/-! SUPPORT. The decoder: the fields of a command word as numbers, and what each result of decoding says of the word. -/

namespace Sys2Proof

theorem wordRsv_toNat (w : Word) : (wordRsv w).toNat = w.toNat / 256 := by
  have := w.isLt
  simp only [wordRsv, BitVec.extractLsb'_toNat, Nat.shiftRight_eq_div_pow]
  omega

theorem wordOpcode_toNat (w : Word) : (wordOpcode w).toNat = w.toNat % 256 := by
  simp [wordOpcode, BitVec.extractLsb'_toNat]

theorem rsvClear_iff (w : Word) : rsvClear w = true ↔ w.toNat / 256 = 0 := by
  rw [← wordRsv_toNat, rsvClear, beq_iff_eq]
  exact ⟨fun h => by simp [h], fun h => BitVec.eq_of_toNat_eq (by simpa using h)⟩

/-- The opcode map: each opcode below 6 is one command's, every other is reserved (30_encoding.md R81, R83). -/
theorem decodeOpcode_cases (n : Nat) :
    (∃ i, decodeOpcode n = .ok i ∧ (opcodeOf i).toNat = n ∧ n < 6) ∨
    (decodeOpcode n = .error .reservedOpcode ∧ 6 ≤ n) := by
  match n with
  | 0 => exact .inl ⟨.nop, rfl, rfl, by omega⟩
  | 1 => exact .inl ⟨.build, rfl, rfl, by omega⟩
  | 2 => exact .inl ⟨.encode, rfl, rfl, by omega⟩
  | 3 => exact .inl ⟨.decpos, rfl, rfl, by omega⟩
  | 4 => exact .inl ⟨.decsec, rfl, rfl, by omega⟩
  | 5 => exact .inl ⟨.decrot, rfl, rfl, by omega⟩
  | n + 6 => exact .inr ⟨rfl, by omega⟩

/-- The word of a command is its opcode as a number (30_encoding.md R80). -/
theorem encode_toNat (i : Instr) : (encode i).toNat = (opcodeOf i).toNat := by
  cases i <;> rfl

/-- Everything decoding a word can answer (30_encoding.md R81 to R83). -/
theorem decodeWord_cases (w : Word) :
    (∃ i, decodeWord w = .ok i ∧ w = encode i ∧ w.toNat < 6) ∨
    (decodeWord w = .error .reservedField ∧ w.toNat / 256 ≠ 0) ∨
    (decodeWord w = .error .reservedOpcode ∧ w.toNat / 256 = 0 ∧ 6 ≤ w.toNat % 256) := by
  by_cases hr : w.toNat / 256 = 0
  · have hc : rsvClear w = true := (rsvClear_iff w).mpr hr
    have hmod : w.toNat % 256 = w.toNat := Nat.mod_eq_of_lt (by omega)
    simp only [decodeWord, hc, if_true, wordOpcode_toNat]
    obtain ⟨i, h1, h2, h3⟩ | ⟨h1, h2⟩ := decodeOpcode_cases (w.toNat % 256)
    · refine .inl ⟨i, h1, BitVec.eq_of_toNat_eq ?_, by omega⟩
      rw [encode_toNat, h2, hmod]
    · exact .inr (.inr ⟨h1, hr, h2⟩)
  · have hc : rsvClear w = false := by
      simpa using mt (rsvClear_iff w).mp hr
    exact .inr (.inl ⟨by simp [decodeWord, hc], hr⟩)

end Sys2Proof
end

