-- ==== Sys2Proof/Laws/State.lean ====
section
/-! SUPPORT. One lemma per field per named update of the state, so that no proof unfolds a record update. -/

namespace Sys2Proof.Machine

@[simp] theorem State.complete_ctrlIe (s : State) (c : Code) : (s.complete c).ctrlIe = s.ctrlIe := rfl
@[simp] theorem State.complete_done (s : State) (c : Code) : (s.complete c).done = true := rfl
@[simp] theorem State.complete_built (s : State) (c : Code) : (s.complete c).built = s.built := rfl
@[simp] theorem State.complete_ovr (s : State) (c : Code) : (s.complete c).ovr = s.ovr := rfl
@[simp] theorem State.complete_errcode (s : State) (c : Code) : (s.complete c).errcode = c := rfl
@[simp] theorem State.complete_tapsRow (s : State) (c : Code) : (s.complete c).tapsRow = s.tapsRow := rfl
@[simp] theorem State.complete_seedRow (s : State) (c : Code) : (s.complete c).seedRow = s.seedRow := rfl
@[simp] theorem State.complete_tapsCol (s : State) (c : Code) : (s.complete c).tapsCol = s.tapsCol := rfl
@[simp] theorem State.complete_seedCol (s : State) (c : Code) : (s.complete c).seedCol = s.seedCol := rfl
@[simp] theorem State.complete_matDim (s : State) (c : Code) : (s.complete c).matDim = s.matDim := rfl
@[simp] theorem State.complete_viewOrg (s : State) (c : Code) : (s.complete c).viewOrg = s.viewOrg := rfl
@[simp] theorem State.complete_viewDim (s : State) (c : Code) : (s.complete c).viewDim = s.viewDim := rfl
@[simp] theorem State.complete_argSec (s : State) (c : Code) : (s.complete c).argSec = s.argSec := rfl
@[simp] theorem State.complete_argPos (s : State) (c : Code) : (s.complete c).argPos = s.argPos := rfl
@[simp] theorem State.complete_resPos (s : State) (c : Code) : (s.complete c).resPos = s.resPos := rfl
@[simp] theorem State.complete_resSec (s : State) (c : Code) : (s.complete c).resSec = s.resSec := rfl
@[simp] theorem State.complete_resRot (s : State) (c : Code) : (s.complete c).resRot = s.resRot := rfl
@[simp] theorem State.complete_resWin (s : State) (c : Code) : (s.complete c).resWin = s.resWin := rfl
@[simp] theorem State.complete_rowSeq (s : State) (c : Code) : (s.complete c).rowSeq = s.rowSeq := rfl
@[simp] theorem State.complete_colSeq (s : State) (c : Code) : (s.complete c).colSeq = s.colSeq := rfl
@[simp] theorem State.complete_lutR (s : State) (c : Code) : (s.complete c).lutR = s.lutR := rfl
@[simp] theorem State.complete_lutC (s : State) (c : Code) : (s.complete c).lutC = s.lutC := rfl
@[simp] theorem State.complete_mat (s : State) (c : Code) : (s.complete c).mat = s.mat := rfl
@[simp] theorem State.complete_cmd (s : State) (c : Code) : (s.complete c).cmd = none := rfl
@[simp] theorem State.complete_events (s : State) (c : Code) : (s.complete c).events = s.events := rfl
@[simp] theorem State.complete_resp (s : State) (c : Code) : (s.complete c).resp = s.resp := rfl
@[simp] theorem State.complete_epoch (s : State) (c : Code) : (s.complete c).epoch = s.epoch := rfl
@[simp] theorem State.complete_tick (s : State) (c : Code) : (s.complete c).tick = s.tick := rfl

@[simp] theorem State.respond_ctrlIe (s : State) (r : Response) : (s.respond r).ctrlIe = s.ctrlIe := rfl
@[simp] theorem State.respond_done (s : State) (r : Response) : (s.respond r).done = s.done := rfl
@[simp] theorem State.respond_built (s : State) (r : Response) : (s.respond r).built = s.built := rfl
@[simp] theorem State.respond_ovr (s : State) (r : Response) : (s.respond r).ovr = s.ovr := rfl
@[simp] theorem State.respond_errcode (s : State) (r : Response) : (s.respond r).errcode = s.errcode := rfl
@[simp] theorem State.respond_tapsRow (s : State) (r : Response) : (s.respond r).tapsRow = s.tapsRow := rfl
@[simp] theorem State.respond_seedRow (s : State) (r : Response) : (s.respond r).seedRow = s.seedRow := rfl
@[simp] theorem State.respond_tapsCol (s : State) (r : Response) : (s.respond r).tapsCol = s.tapsCol := rfl
@[simp] theorem State.respond_seedCol (s : State) (r : Response) : (s.respond r).seedCol = s.seedCol := rfl
@[simp] theorem State.respond_matDim (s : State) (r : Response) : (s.respond r).matDim = s.matDim := rfl
@[simp] theorem State.respond_viewOrg (s : State) (r : Response) : (s.respond r).viewOrg = s.viewOrg := rfl
@[simp] theorem State.respond_viewDim (s : State) (r : Response) : (s.respond r).viewDim = s.viewDim := rfl
@[simp] theorem State.respond_argSec (s : State) (r : Response) : (s.respond r).argSec = s.argSec := rfl
@[simp] theorem State.respond_argPos (s : State) (r : Response) : (s.respond r).argPos = s.argPos := rfl
@[simp] theorem State.respond_resPos (s : State) (r : Response) : (s.respond r).resPos = s.resPos := rfl
@[simp] theorem State.respond_resSec (s : State) (r : Response) : (s.respond r).resSec = s.resSec := rfl
@[simp] theorem State.respond_resRot (s : State) (r : Response) : (s.respond r).resRot = s.resRot := rfl
@[simp] theorem State.respond_resWin (s : State) (r : Response) : (s.respond r).resWin = s.resWin := rfl
@[simp] theorem State.respond_rowSeq (s : State) (r : Response) : (s.respond r).rowSeq = s.rowSeq := rfl
@[simp] theorem State.respond_colSeq (s : State) (r : Response) : (s.respond r).colSeq = s.colSeq := rfl
@[simp] theorem State.respond_lutR (s : State) (r : Response) : (s.respond r).lutR = s.lutR := rfl
@[simp] theorem State.respond_lutC (s : State) (r : Response) : (s.respond r).lutC = s.lutC := rfl
@[simp] theorem State.respond_mat (s : State) (r : Response) : (s.respond r).mat = s.mat := rfl
@[simp] theorem State.respond_cmd (s : State) (r : Response) : (s.respond r).cmd = s.cmd := rfl
@[simp] theorem State.respond_events (s : State) (r : Response) : (s.respond r).events = s.events := rfl
@[simp] theorem State.respond_resp (s : State) (r : Response) : (s.respond r).resp = r := rfl
@[simp] theorem State.respond_epoch (s : State) (r : Response) : (s.respond r).epoch = s.epoch := rfl
@[simp] theorem State.respond_tick (s : State) (r : Response) : (s.respond r).tick = s.tick := rfl

@[simp] theorem State.dropWrite_ctrlIe (s : State) : s.dropWrite.ctrlIe = s.ctrlIe := rfl
@[simp] theorem State.dropWrite_done (s : State) : s.dropWrite.done = s.done := rfl
@[simp] theorem State.dropWrite_built (s : State) : s.dropWrite.built = s.built := rfl
@[simp] theorem State.dropWrite_ovr (s : State) : s.dropWrite.ovr = true := rfl
@[simp] theorem State.dropWrite_errcode (s : State) : s.dropWrite.errcode = s.errcode := rfl
@[simp] theorem State.dropWrite_tapsRow (s : State) : s.dropWrite.tapsRow = s.tapsRow := rfl
@[simp] theorem State.dropWrite_seedRow (s : State) : s.dropWrite.seedRow = s.seedRow := rfl
@[simp] theorem State.dropWrite_tapsCol (s : State) : s.dropWrite.tapsCol = s.tapsCol := rfl
@[simp] theorem State.dropWrite_seedCol (s : State) : s.dropWrite.seedCol = s.seedCol := rfl
@[simp] theorem State.dropWrite_matDim (s : State) : s.dropWrite.matDim = s.matDim := rfl
@[simp] theorem State.dropWrite_viewOrg (s : State) : s.dropWrite.viewOrg = s.viewOrg := rfl
@[simp] theorem State.dropWrite_viewDim (s : State) : s.dropWrite.viewDim = s.viewDim := rfl
@[simp] theorem State.dropWrite_argSec (s : State) : s.dropWrite.argSec = s.argSec := rfl
@[simp] theorem State.dropWrite_argPos (s : State) : s.dropWrite.argPos = s.argPos := rfl
@[simp] theorem State.dropWrite_resPos (s : State) : s.dropWrite.resPos = s.resPos := rfl
@[simp] theorem State.dropWrite_resSec (s : State) : s.dropWrite.resSec = s.resSec := rfl
@[simp] theorem State.dropWrite_resRot (s : State) : s.dropWrite.resRot = s.resRot := rfl
@[simp] theorem State.dropWrite_resWin (s : State) : s.dropWrite.resWin = s.resWin := rfl
@[simp] theorem State.dropWrite_rowSeq (s : State) : s.dropWrite.rowSeq = s.rowSeq := rfl
@[simp] theorem State.dropWrite_colSeq (s : State) : s.dropWrite.colSeq = s.colSeq := rfl
@[simp] theorem State.dropWrite_lutR (s : State) : s.dropWrite.lutR = s.lutR := rfl
@[simp] theorem State.dropWrite_lutC (s : State) : s.dropWrite.lutC = s.lutC := rfl
@[simp] theorem State.dropWrite_mat (s : State) : s.dropWrite.mat = s.mat := rfl
@[simp] theorem State.dropWrite_cmd (s : State) : s.dropWrite.cmd = s.cmd := rfl
@[simp] theorem State.dropWrite_events (s : State) : s.dropWrite.events = s.events := rfl
@[simp] theorem State.dropWrite_resp (s : State) : s.dropWrite.resp = s.resp := rfl
@[simp] theorem State.dropWrite_epoch (s : State) : s.dropWrite.epoch = s.epoch := rfl
@[simp] theorem State.dropWrite_tick (s : State) : s.dropWrite.tick = s.tick := rfl

@[simp] theorem State.issue_ctrlIe (s : State) (w : Word) : (s.issue w).ctrlIe = s.ctrlIe := rfl
@[simp] theorem State.issue_done (s : State) (w : Word) : (s.issue w).done = s.done := rfl
@[simp] theorem State.issue_built (s : State) (w : Word) : (s.issue w).built = s.built := rfl
@[simp] theorem State.issue_ovr (s : State) (w : Word) : (s.issue w).ovr = s.ovr := rfl
@[simp] theorem State.issue_errcode (s : State) (w : Word) : (s.issue w).errcode = s.errcode := rfl
@[simp] theorem State.issue_tapsRow (s : State) (w : Word) : (s.issue w).tapsRow = s.tapsRow := rfl
@[simp] theorem State.issue_seedRow (s : State) (w : Word) : (s.issue w).seedRow = s.seedRow := rfl
@[simp] theorem State.issue_tapsCol (s : State) (w : Word) : (s.issue w).tapsCol = s.tapsCol := rfl
@[simp] theorem State.issue_seedCol (s : State) (w : Word) : (s.issue w).seedCol = s.seedCol := rfl
@[simp] theorem State.issue_matDim (s : State) (w : Word) : (s.issue w).matDim = s.matDim := rfl
@[simp] theorem State.issue_viewOrg (s : State) (w : Word) : (s.issue w).viewOrg = s.viewOrg := rfl
@[simp] theorem State.issue_viewDim (s : State) (w : Word) : (s.issue w).viewDim = s.viewDim := rfl
@[simp] theorem State.issue_argSec (s : State) (w : Word) : (s.issue w).argSec = s.argSec := rfl
@[simp] theorem State.issue_argPos (s : State) (w : Word) : (s.issue w).argPos = s.argPos := rfl
@[simp] theorem State.issue_resPos (s : State) (w : Word) : (s.issue w).resPos = s.resPos := rfl
@[simp] theorem State.issue_resSec (s : State) (w : Word) : (s.issue w).resSec = s.resSec := rfl
@[simp] theorem State.issue_resRot (s : State) (w : Word) : (s.issue w).resRot = s.resRot := rfl
@[simp] theorem State.issue_resWin (s : State) (w : Word) : (s.issue w).resWin = s.resWin := rfl
@[simp] theorem State.issue_rowSeq (s : State) (w : Word) : (s.issue w).rowSeq = s.rowSeq := rfl
@[simp] theorem State.issue_colSeq (s : State) (w : Word) : (s.issue w).colSeq = s.colSeq := rfl
@[simp] theorem State.issue_lutR (s : State) (w : Word) : (s.issue w).lutR = s.lutR := rfl
@[simp] theorem State.issue_lutC (s : State) (w : Word) : (s.issue w).lutC = s.lutC := rfl
@[simp] theorem State.issue_mat (s : State) (w : Word) : (s.issue w).mat = s.mat := rfl
@[simp] theorem State.issue_cmd (s : State) (w : Word) : (s.issue w).cmd = some w := rfl
@[simp] theorem State.issue_events (s : State) (w : Word) : (s.issue w).events = s.events := rfl
@[simp] theorem State.issue_resp (s : State) (w : Word) : (s.issue w).resp = s.resp := rfl
@[simp] theorem State.issue_epoch (s : State) (w : Word) : (s.issue w).epoch = s.epoch := rfl
@[simp] theorem State.issue_tick (s : State) (w : Word) : (s.issue w).tick = s.tick := rfl

@[simp] theorem State.withResWin_ctrlIe (s : State) (wA wB : Window) : (s.withResWin wA wB).ctrlIe = s.ctrlIe := rfl
@[simp] theorem State.withResWin_done (s : State) (wA wB : Window) : (s.withResWin wA wB).done = s.done := rfl
@[simp] theorem State.withResWin_built (s : State) (wA wB : Window) : (s.withResWin wA wB).built = s.built := rfl
@[simp] theorem State.withResWin_ovr (s : State) (wA wB : Window) : (s.withResWin wA wB).ovr = s.ovr := rfl
@[simp] theorem State.withResWin_errcode (s : State) (wA wB : Window) : (s.withResWin wA wB).errcode = s.errcode := rfl
@[simp] theorem State.withResWin_tapsRow (s : State) (wA wB : Window) : (s.withResWin wA wB).tapsRow = s.tapsRow := rfl
@[simp] theorem State.withResWin_seedRow (s : State) (wA wB : Window) : (s.withResWin wA wB).seedRow = s.seedRow := rfl
@[simp] theorem State.withResWin_tapsCol (s : State) (wA wB : Window) : (s.withResWin wA wB).tapsCol = s.tapsCol := rfl
@[simp] theorem State.withResWin_seedCol (s : State) (wA wB : Window) : (s.withResWin wA wB).seedCol = s.seedCol := rfl
@[simp] theorem State.withResWin_matDim (s : State) (wA wB : Window) : (s.withResWin wA wB).matDim = s.matDim := rfl
@[simp] theorem State.withResWin_viewOrg (s : State) (wA wB : Window) : (s.withResWin wA wB).viewOrg = s.viewOrg := rfl
@[simp] theorem State.withResWin_viewDim (s : State) (wA wB : Window) : (s.withResWin wA wB).viewDim = s.viewDim := rfl
@[simp] theorem State.withResWin_argSec (s : State) (wA wB : Window) : (s.withResWin wA wB).argSec = s.argSec := rfl
@[simp] theorem State.withResWin_argPos (s : State) (wA wB : Window) : (s.withResWin wA wB).argPos = s.argPos := rfl
@[simp] theorem State.withResWin_resPos (s : State) (wA wB : Window) : (s.withResWin wA wB).resPos = s.resPos := rfl
@[simp] theorem State.withResWin_resSec (s : State) (wA wB : Window) : (s.withResWin wA wB).resSec = s.resSec := rfl
@[simp] theorem State.withResWin_resRot (s : State) (wA wB : Window) : (s.withResWin wA wB).resRot = s.resRot := rfl
@[simp] theorem State.withResWin_resWin (s : State) (wA wB : Window) : (s.withResWin wA wB).resWin = { wa := wA, wb := wB } := rfl
@[simp] theorem State.withResWin_rowSeq (s : State) (wA wB : Window) : (s.withResWin wA wB).rowSeq = s.rowSeq := rfl
@[simp] theorem State.withResWin_colSeq (s : State) (wA wB : Window) : (s.withResWin wA wB).colSeq = s.colSeq := rfl
@[simp] theorem State.withResWin_lutR (s : State) (wA wB : Window) : (s.withResWin wA wB).lutR = s.lutR := rfl
@[simp] theorem State.withResWin_lutC (s : State) (wA wB : Window) : (s.withResWin wA wB).lutC = s.lutC := rfl
@[simp] theorem State.withResWin_mat (s : State) (wA wB : Window) : (s.withResWin wA wB).mat = s.mat := rfl
@[simp] theorem State.withResWin_cmd (s : State) (wA wB : Window) : (s.withResWin wA wB).cmd = s.cmd := rfl
@[simp] theorem State.withResWin_events (s : State) (wA wB : Window) : (s.withResWin wA wB).events = s.events := rfl
@[simp] theorem State.withResWin_resp (s : State) (wA wB : Window) : (s.withResWin wA wB).resp = s.resp := rfl
@[simp] theorem State.withResWin_epoch (s : State) (wA wB : Window) : (s.withResWin wA wB).epoch = s.epoch := rfl
@[simp] theorem State.withResWin_tick (s : State) (wA wB : Window) : (s.withResWin wA wB).tick = s.tick := rfl

@[simp] theorem State.withResPos_ctrlIe (s : State) (col row : Nat) : (s.withResPos col row).ctrlIe = s.ctrlIe := rfl
@[simp] theorem State.withResPos_done (s : State) (col row : Nat) : (s.withResPos col row).done = s.done := rfl
@[simp] theorem State.withResPos_built (s : State) (col row : Nat) : (s.withResPos col row).built = s.built := rfl
@[simp] theorem State.withResPos_ovr (s : State) (col row : Nat) : (s.withResPos col row).ovr = s.ovr := rfl
@[simp] theorem State.withResPos_errcode (s : State) (col row : Nat) : (s.withResPos col row).errcode = s.errcode := rfl
@[simp] theorem State.withResPos_tapsRow (s : State) (col row : Nat) : (s.withResPos col row).tapsRow = s.tapsRow := rfl
@[simp] theorem State.withResPos_seedRow (s : State) (col row : Nat) : (s.withResPos col row).seedRow = s.seedRow := rfl
@[simp] theorem State.withResPos_tapsCol (s : State) (col row : Nat) : (s.withResPos col row).tapsCol = s.tapsCol := rfl
@[simp] theorem State.withResPos_seedCol (s : State) (col row : Nat) : (s.withResPos col row).seedCol = s.seedCol := rfl
@[simp] theorem State.withResPos_matDim (s : State) (col row : Nat) : (s.withResPos col row).matDim = s.matDim := rfl
@[simp] theorem State.withResPos_viewOrg (s : State) (col row : Nat) : (s.withResPos col row).viewOrg = s.viewOrg := rfl
@[simp] theorem State.withResPos_viewDim (s : State) (col row : Nat) : (s.withResPos col row).viewDim = s.viewDim := rfl
@[simp] theorem State.withResPos_argSec (s : State) (col row : Nat) : (s.withResPos col row).argSec = s.argSec := rfl
@[simp] theorem State.withResPos_argPos (s : State) (col row : Nat) : (s.withResPos col row).argPos = s.argPos := rfl
@[simp] theorem State.withResPos_resPos (s : State) (col row : Nat) : (s.withResPos col row).resPos = { col := BitVec.ofNat 16 col, row := BitVec.ofNat 16 row } := rfl
@[simp] theorem State.withResPos_resSec (s : State) (col row : Nat) : (s.withResPos col row).resSec = s.resSec := rfl
@[simp] theorem State.withResPos_resRot (s : State) (col row : Nat) : (s.withResPos col row).resRot = s.resRot := rfl
@[simp] theorem State.withResPos_resWin (s : State) (col row : Nat) : (s.withResPos col row).resWin = s.resWin := rfl
@[simp] theorem State.withResPos_rowSeq (s : State) (col row : Nat) : (s.withResPos col row).rowSeq = s.rowSeq := rfl
@[simp] theorem State.withResPos_colSeq (s : State) (col row : Nat) : (s.withResPos col row).colSeq = s.colSeq := rfl
@[simp] theorem State.withResPos_lutR (s : State) (col row : Nat) : (s.withResPos col row).lutR = s.lutR := rfl
@[simp] theorem State.withResPos_lutC (s : State) (col row : Nat) : (s.withResPos col row).lutC = s.lutC := rfl
@[simp] theorem State.withResPos_mat (s : State) (col row : Nat) : (s.withResPos col row).mat = s.mat := rfl
@[simp] theorem State.withResPos_cmd (s : State) (col row : Nat) : (s.withResPos col row).cmd = s.cmd := rfl
@[simp] theorem State.withResPos_events (s : State) (col row : Nat) : (s.withResPos col row).events = s.events := rfl
@[simp] theorem State.withResPos_resp (s : State) (col row : Nat) : (s.withResPos col row).resp = s.resp := rfl
@[simp] theorem State.withResPos_epoch (s : State) (col row : Nat) : (s.withResPos col row).epoch = s.epoch := rfl
@[simp] theorem State.withResPos_tick (s : State) (col row : Nat) : (s.withResPos col row).tick = s.tick := rfl

@[simp] theorem State.withResSec_ctrlIe (s : State) (sx sy : BitVec 8) : (s.withResSec sx sy).ctrlIe = s.ctrlIe := rfl
@[simp] theorem State.withResSec_done (s : State) (sx sy : BitVec 8) : (s.withResSec sx sy).done = s.done := rfl
@[simp] theorem State.withResSec_built (s : State) (sx sy : BitVec 8) : (s.withResSec sx sy).built = s.built := rfl
@[simp] theorem State.withResSec_ovr (s : State) (sx sy : BitVec 8) : (s.withResSec sx sy).ovr = s.ovr := rfl
@[simp] theorem State.withResSec_errcode (s : State) (sx sy : BitVec 8) : (s.withResSec sx sy).errcode = s.errcode := rfl
@[simp] theorem State.withResSec_tapsRow (s : State) (sx sy : BitVec 8) : (s.withResSec sx sy).tapsRow = s.tapsRow := rfl
@[simp] theorem State.withResSec_seedRow (s : State) (sx sy : BitVec 8) : (s.withResSec sx sy).seedRow = s.seedRow := rfl
@[simp] theorem State.withResSec_tapsCol (s : State) (sx sy : BitVec 8) : (s.withResSec sx sy).tapsCol = s.tapsCol := rfl
@[simp] theorem State.withResSec_seedCol (s : State) (sx sy : BitVec 8) : (s.withResSec sx sy).seedCol = s.seedCol := rfl
@[simp] theorem State.withResSec_matDim (s : State) (sx sy : BitVec 8) : (s.withResSec sx sy).matDim = s.matDim := rfl
@[simp] theorem State.withResSec_viewOrg (s : State) (sx sy : BitVec 8) : (s.withResSec sx sy).viewOrg = s.viewOrg := rfl
@[simp] theorem State.withResSec_viewDim (s : State) (sx sy : BitVec 8) : (s.withResSec sx sy).viewDim = s.viewDim := rfl
@[simp] theorem State.withResSec_argSec (s : State) (sx sy : BitVec 8) : (s.withResSec sx sy).argSec = s.argSec := rfl
@[simp] theorem State.withResSec_argPos (s : State) (sx sy : BitVec 8) : (s.withResSec sx sy).argPos = s.argPos := rfl
@[simp] theorem State.withResSec_resPos (s : State) (sx sy : BitVec 8) : (s.withResSec sx sy).resPos = s.resPos := rfl
@[simp] theorem State.withResSec_resSec (s : State) (sx sy : BitVec 8) : (s.withResSec sx sy).resSec = { sx := sx.setWidth 16, sy := sy.setWidth 16 } := rfl
@[simp] theorem State.withResSec_resRot (s : State) (sx sy : BitVec 8) : (s.withResSec sx sy).resRot = s.resRot := rfl
@[simp] theorem State.withResSec_resWin (s : State) (sx sy : BitVec 8) : (s.withResSec sx sy).resWin = s.resWin := rfl
@[simp] theorem State.withResSec_rowSeq (s : State) (sx sy : BitVec 8) : (s.withResSec sx sy).rowSeq = s.rowSeq := rfl
@[simp] theorem State.withResSec_colSeq (s : State) (sx sy : BitVec 8) : (s.withResSec sx sy).colSeq = s.colSeq := rfl
@[simp] theorem State.withResSec_lutR (s : State) (sx sy : BitVec 8) : (s.withResSec sx sy).lutR = s.lutR := rfl
@[simp] theorem State.withResSec_lutC (s : State) (sx sy : BitVec 8) : (s.withResSec sx sy).lutC = s.lutC := rfl
@[simp] theorem State.withResSec_mat (s : State) (sx sy : BitVec 8) : (s.withResSec sx sy).mat = s.mat := rfl
@[simp] theorem State.withResSec_cmd (s : State) (sx sy : BitVec 8) : (s.withResSec sx sy).cmd = s.cmd := rfl
@[simp] theorem State.withResSec_events (s : State) (sx sy : BitVec 8) : (s.withResSec sx sy).events = s.events := rfl
@[simp] theorem State.withResSec_resp (s : State) (sx sy : BitVec 8) : (s.withResSec sx sy).resp = s.resp := rfl
@[simp] theorem State.withResSec_epoch (s : State) (sx sy : BitVec 8) : (s.withResSec sx sy).epoch = s.epoch := rfl
@[simp] theorem State.withResSec_tick (s : State) (sx sy : BitVec 8) : (s.withResSec sx sy).tick = s.tick := rfl

@[simp] theorem State.withResRot_ctrlIe (s : State) (d : Fin 4) : (s.withResRot d).ctrlIe = s.ctrlIe := rfl
@[simp] theorem State.withResRot_done (s : State) (d : Fin 4) : (s.withResRot d).done = s.done := rfl
@[simp] theorem State.withResRot_built (s : State) (d : Fin 4) : (s.withResRot d).built = s.built := rfl
@[simp] theorem State.withResRot_ovr (s : State) (d : Fin 4) : (s.withResRot d).ovr = s.ovr := rfl
@[simp] theorem State.withResRot_errcode (s : State) (d : Fin 4) : (s.withResRot d).errcode = s.errcode := rfl
@[simp] theorem State.withResRot_tapsRow (s : State) (d : Fin 4) : (s.withResRot d).tapsRow = s.tapsRow := rfl
@[simp] theorem State.withResRot_seedRow (s : State) (d : Fin 4) : (s.withResRot d).seedRow = s.seedRow := rfl
@[simp] theorem State.withResRot_tapsCol (s : State) (d : Fin 4) : (s.withResRot d).tapsCol = s.tapsCol := rfl
@[simp] theorem State.withResRot_seedCol (s : State) (d : Fin 4) : (s.withResRot d).seedCol = s.seedCol := rfl
@[simp] theorem State.withResRot_matDim (s : State) (d : Fin 4) : (s.withResRot d).matDim = s.matDim := rfl
@[simp] theorem State.withResRot_viewOrg (s : State) (d : Fin 4) : (s.withResRot d).viewOrg = s.viewOrg := rfl
@[simp] theorem State.withResRot_viewDim (s : State) (d : Fin 4) : (s.withResRot d).viewDim = s.viewDim := rfl
@[simp] theorem State.withResRot_argSec (s : State) (d : Fin 4) : (s.withResRot d).argSec = s.argSec := rfl
@[simp] theorem State.withResRot_argPos (s : State) (d : Fin 4) : (s.withResRot d).argPos = s.argPos := rfl
@[simp] theorem State.withResRot_resPos (s : State) (d : Fin 4) : (s.withResRot d).resPos = s.resPos := rfl
@[simp] theorem State.withResRot_resSec (s : State) (d : Fin 4) : (s.withResRot d).resSec = s.resSec := rfl
@[simp] theorem State.withResRot_resRot (s : State) (d : Fin 4) : (s.withResRot d).resRot = BitVec.ofNat 2 d.val := rfl
@[simp] theorem State.withResRot_resWin (s : State) (d : Fin 4) : (s.withResRot d).resWin = s.resWin := rfl
@[simp] theorem State.withResRot_rowSeq (s : State) (d : Fin 4) : (s.withResRot d).rowSeq = s.rowSeq := rfl
@[simp] theorem State.withResRot_colSeq (s : State) (d : Fin 4) : (s.withResRot d).colSeq = s.colSeq := rfl
@[simp] theorem State.withResRot_lutR (s : State) (d : Fin 4) : (s.withResRot d).lutR = s.lutR := rfl
@[simp] theorem State.withResRot_lutC (s : State) (d : Fin 4) : (s.withResRot d).lutC = s.lutC := rfl
@[simp] theorem State.withResRot_mat (s : State) (d : Fin 4) : (s.withResRot d).mat = s.mat := rfl
@[simp] theorem State.withResRot_cmd (s : State) (d : Fin 4) : (s.withResRot d).cmd = s.cmd := rfl
@[simp] theorem State.withResRot_events (s : State) (d : Fin 4) : (s.withResRot d).events = s.events := rfl
@[simp] theorem State.withResRot_resp (s : State) (d : Fin 4) : (s.withResRot d).resp = s.resp := rfl
@[simp] theorem State.withResRot_epoch (s : State) (d : Fin 4) : (s.withResRot d).epoch = s.epoch := rfl
@[simp] theorem State.withResRot_tick (s : State) (d : Fin 4) : (s.withResRot d).tick = s.tick := rfl

@[simp] theorem State.installTables_ctrlIe (s : State) (sr sc : SeqBits) (tr tc : Lut) : (s.installTables sr sc tr tc).ctrlIe = s.ctrlIe := rfl
@[simp] theorem State.installTables_done (s : State) (sr sc : SeqBits) (tr tc : Lut) : (s.installTables sr sc tr tc).done = s.done := rfl
@[simp] theorem State.installTables_built (s : State) (sr sc : SeqBits) (tr tc : Lut) : (s.installTables sr sc tr tc).built = true := rfl
@[simp] theorem State.installTables_ovr (s : State) (sr sc : SeqBits) (tr tc : Lut) : (s.installTables sr sc tr tc).ovr = s.ovr := rfl
@[simp] theorem State.installTables_errcode (s : State) (sr sc : SeqBits) (tr tc : Lut) : (s.installTables sr sc tr tc).errcode = s.errcode := rfl
@[simp] theorem State.installTables_tapsRow (s : State) (sr sc : SeqBits) (tr tc : Lut) : (s.installTables sr sc tr tc).tapsRow = s.tapsRow := rfl
@[simp] theorem State.installTables_seedRow (s : State) (sr sc : SeqBits) (tr tc : Lut) : (s.installTables sr sc tr tc).seedRow = s.seedRow := rfl
@[simp] theorem State.installTables_tapsCol (s : State) (sr sc : SeqBits) (tr tc : Lut) : (s.installTables sr sc tr tc).tapsCol = s.tapsCol := rfl
@[simp] theorem State.installTables_seedCol (s : State) (sr sc : SeqBits) (tr tc : Lut) : (s.installTables sr sc tr tc).seedCol = s.seedCol := rfl
@[simp] theorem State.installTables_matDim (s : State) (sr sc : SeqBits) (tr tc : Lut) : (s.installTables sr sc tr tc).matDim = s.matDim := rfl
@[simp] theorem State.installTables_viewOrg (s : State) (sr sc : SeqBits) (tr tc : Lut) : (s.installTables sr sc tr tc).viewOrg = s.viewOrg := rfl
@[simp] theorem State.installTables_viewDim (s : State) (sr sc : SeqBits) (tr tc : Lut) : (s.installTables sr sc tr tc).viewDim = s.viewDim := rfl
@[simp] theorem State.installTables_argSec (s : State) (sr sc : SeqBits) (tr tc : Lut) : (s.installTables sr sc tr tc).argSec = s.argSec := rfl
@[simp] theorem State.installTables_argPos (s : State) (sr sc : SeqBits) (tr tc : Lut) : (s.installTables sr sc tr tc).argPos = s.argPos := rfl
@[simp] theorem State.installTables_resPos (s : State) (sr sc : SeqBits) (tr tc : Lut) : (s.installTables sr sc tr tc).resPos = s.resPos := rfl
@[simp] theorem State.installTables_resSec (s : State) (sr sc : SeqBits) (tr tc : Lut) : (s.installTables sr sc tr tc).resSec = s.resSec := rfl
@[simp] theorem State.installTables_resRot (s : State) (sr sc : SeqBits) (tr tc : Lut) : (s.installTables sr sc tr tc).resRot = s.resRot := rfl
@[simp] theorem State.installTables_resWin (s : State) (sr sc : SeqBits) (tr tc : Lut) : (s.installTables sr sc tr tc).resWin = s.resWin := rfl
@[simp] theorem State.installTables_rowSeq (s : State) (sr sc : SeqBits) (tr tc : Lut) : (s.installTables sr sc tr tc).rowSeq = sr := rfl
@[simp] theorem State.installTables_colSeq (s : State) (sr sc : SeqBits) (tr tc : Lut) : (s.installTables sr sc tr tc).colSeq = sc := rfl
@[simp] theorem State.installTables_lutR (s : State) (sr sc : SeqBits) (tr tc : Lut) : (s.installTables sr sc tr tc).lutR = tr := rfl
@[simp] theorem State.installTables_lutC (s : State) (sr sc : SeqBits) (tr tc : Lut) : (s.installTables sr sc tr tc).lutC = tc := rfl
@[simp] theorem State.installTables_mat (s : State) (sr sc : SeqBits) (tr tc : Lut) : (s.installTables sr sc tr tc).mat = s.mat := rfl
@[simp] theorem State.installTables_cmd (s : State) (sr sc : SeqBits) (tr tc : Lut) : (s.installTables sr sc tr tc).cmd = s.cmd := rfl
@[simp] theorem State.installTables_events (s : State) (sr sc : SeqBits) (tr tc : Lut) : (s.installTables sr sc tr tc).events = s.events := rfl
@[simp] theorem State.installTables_resp (s : State) (sr sc : SeqBits) (tr tc : Lut) : (s.installTables sr sc tr tc).resp = s.resp := rfl
@[simp] theorem State.installTables_epoch (s : State) (sr sc : SeqBits) (tr tc : Lut) : (s.installTables sr sc tr tc).epoch = s.epoch := rfl
@[simp] theorem State.installTables_tick (s : State) (sr sc : SeqBits) (tr tc : Lut) : (s.installTables sr sc tr tc).tick = s.tick := rfl

@[simp] theorem State.clearStatus_ctrlIe (s : State) (v : Word) : (s.clearStatus v).ctrlIe = s.ctrlIe := rfl
@[simp] theorem State.clearStatus_done (s : State) (v : Word) : (s.clearStatus v).done = (s.done && !v.getLsbD 1) := rfl
@[simp] theorem State.clearStatus_built (s : State) (v : Word) : (s.clearStatus v).built = s.built := rfl
@[simp] theorem State.clearStatus_ovr (s : State) (v : Word) : (s.clearStatus v).ovr = (s.ovr && !v.getLsbD 4) := rfl
@[simp] theorem State.clearStatus_errcode (s : State) (v : Word) : (s.clearStatus v).errcode = s.errcode := rfl
@[simp] theorem State.clearStatus_tapsRow (s : State) (v : Word) : (s.clearStatus v).tapsRow = s.tapsRow := rfl
@[simp] theorem State.clearStatus_seedRow (s : State) (v : Word) : (s.clearStatus v).seedRow = s.seedRow := rfl
@[simp] theorem State.clearStatus_tapsCol (s : State) (v : Word) : (s.clearStatus v).tapsCol = s.tapsCol := rfl
@[simp] theorem State.clearStatus_seedCol (s : State) (v : Word) : (s.clearStatus v).seedCol = s.seedCol := rfl
@[simp] theorem State.clearStatus_matDim (s : State) (v : Word) : (s.clearStatus v).matDim = s.matDim := rfl
@[simp] theorem State.clearStatus_viewOrg (s : State) (v : Word) : (s.clearStatus v).viewOrg = s.viewOrg := rfl
@[simp] theorem State.clearStatus_viewDim (s : State) (v : Word) : (s.clearStatus v).viewDim = s.viewDim := rfl
@[simp] theorem State.clearStatus_argSec (s : State) (v : Word) : (s.clearStatus v).argSec = s.argSec := rfl
@[simp] theorem State.clearStatus_argPos (s : State) (v : Word) : (s.clearStatus v).argPos = s.argPos := rfl
@[simp] theorem State.clearStatus_resPos (s : State) (v : Word) : (s.clearStatus v).resPos = s.resPos := rfl
@[simp] theorem State.clearStatus_resSec (s : State) (v : Word) : (s.clearStatus v).resSec = s.resSec := rfl
@[simp] theorem State.clearStatus_resRot (s : State) (v : Word) : (s.clearStatus v).resRot = s.resRot := rfl
@[simp] theorem State.clearStatus_resWin (s : State) (v : Word) : (s.clearStatus v).resWin = s.resWin := rfl
@[simp] theorem State.clearStatus_rowSeq (s : State) (v : Word) : (s.clearStatus v).rowSeq = s.rowSeq := rfl
@[simp] theorem State.clearStatus_colSeq (s : State) (v : Word) : (s.clearStatus v).colSeq = s.colSeq := rfl
@[simp] theorem State.clearStatus_lutR (s : State) (v : Word) : (s.clearStatus v).lutR = s.lutR := rfl
@[simp] theorem State.clearStatus_lutC (s : State) (v : Word) : (s.clearStatus v).lutC = s.lutC := rfl
@[simp] theorem State.clearStatus_mat (s : State) (v : Word) : (s.clearStatus v).mat = s.mat := rfl
@[simp] theorem State.clearStatus_cmd (s : State) (v : Word) : (s.clearStatus v).cmd = s.cmd := rfl
@[simp] theorem State.clearStatus_events (s : State) (v : Word) : (s.clearStatus v).events = s.events := rfl
@[simp] theorem State.clearStatus_resp (s : State) (v : Word) : (s.clearStatus v).resp = s.resp := rfl
@[simp] theorem State.clearStatus_epoch (s : State) (v : Word) : (s.clearStatus v).epoch = s.epoch := rfl
@[simp] theorem State.clearStatus_tick (s : State) (v : Word) : (s.clearStatus v).tick = s.tick := rfl

@[simp] theorem State.afterReset_ctrlIe (s : State) : s.afterReset.ctrlIe = false := rfl
@[simp] theorem State.afterReset_done (s : State) : s.afterReset.done = false := rfl
@[simp] theorem State.afterReset_built (s : State) : s.afterReset.built = false := rfl
@[simp] theorem State.afterReset_ovr (s : State) : s.afterReset.ovr = false := rfl
@[simp] theorem State.afterReset_errcode (s : State) : s.afterReset.errcode = .ok := rfl
@[simp] theorem State.afterReset_tapsRow (s : State) : s.afterReset.tapsRow = 0x30 := rfl
@[simp] theorem State.afterReset_seedRow (s : State) : s.afterReset.seedRow = 0x20 := rfl
@[simp] theorem State.afterReset_tapsCol (s : State) : s.afterReset.tapsCol = 0x36 := rfl
@[simp] theorem State.afterReset_seedCol (s : State) : s.afterReset.seedCol = 0x20 := rfl
@[simp] theorem State.afterReset_matDim (s : State) : s.afterReset.matDim = { rows := 0, cols := 0 } := rfl
@[simp] theorem State.afterReset_viewOrg (s : State) : s.afterReset.viewOrg = { row0 := 0, col0 := 0 } := rfl
@[simp] theorem State.afterReset_viewDim (s : State) : s.afterReset.viewDim = { rows := 0, cols := 0 } := rfl
@[simp] theorem State.afterReset_argSec (s : State) : s.afterReset.argSec = { sx := 0, sy := 0 } := rfl
@[simp] theorem State.afterReset_argPos (s : State) : s.afterReset.argPos = { col := 0, row := 0 } := rfl
@[simp] theorem State.afterReset_resPos (s : State) : s.afterReset.resPos = { col := 0, row := 0 } := rfl
@[simp] theorem State.afterReset_resSec (s : State) : s.afterReset.resSec = { sx := 0, sy := 0 } := rfl
@[simp] theorem State.afterReset_resRot (s : State) : s.afterReset.resRot = 0 := rfl
@[simp] theorem State.afterReset_resWin (s : State) : s.afterReset.resWin = { wa := 0, wb := 0 } := rfl
@[simp] theorem State.afterReset_rowSeq (s : State) : s.afterReset.rowSeq = 0 := rfl
@[simp] theorem State.afterReset_colSeq (s : State) : s.afterReset.colSeq = 0 := rfl
@[simp] theorem State.afterReset_lutR (s : State) : s.afterReset.lutR = Lut.empty := rfl
@[simp] theorem State.afterReset_lutC (s : State) : s.afterReset.lutC = Lut.empty := rfl
@[simp] theorem State.afterReset_mat (s : State) : s.afterReset.mat = [] := rfl
@[simp] theorem State.afterReset_cmd (s : State) : s.afterReset.cmd = none := rfl
@[simp] theorem State.afterReset_events (s : State) : s.afterReset.events = s.events := rfl
@[simp] theorem State.afterReset_resp (s : State) : s.afterReset.resp = s.resp := rfl
@[simp] theorem State.afterReset_epoch (s : State) : s.afterReset.epoch = s.epoch + 1 := rfl
@[simp] theorem State.afterReset_tick (s : State) : s.afterReset.tick = s.tick := rfl

@[simp] theorem State.encoded_ctrlIe (s : State) : s.encoded.ctrlIe = s.ctrlIe := rfl
@[simp] theorem State.encoded_done (s : State) : s.encoded.done = s.done := rfl
@[simp] theorem State.encoded_built (s : State) : s.encoded.built = s.built := rfl
@[simp] theorem State.encoded_ovr (s : State) : s.encoded.ovr = s.ovr := rfl
@[simp] theorem State.encoded_errcode (s : State) : s.encoded.errcode = s.errcode := rfl
@[simp] theorem State.encoded_tapsRow (s : State) : s.encoded.tapsRow = s.tapsRow := rfl
@[simp] theorem State.encoded_seedRow (s : State) : s.encoded.seedRow = s.seedRow := rfl
@[simp] theorem State.encoded_tapsCol (s : State) : s.encoded.tapsCol = s.tapsCol := rfl
@[simp] theorem State.encoded_seedCol (s : State) : s.encoded.seedCol = s.seedCol := rfl
@[simp] theorem State.encoded_viewOrg (s : State) : s.encoded.viewOrg = s.viewOrg := rfl
@[simp] theorem State.encoded_viewDim (s : State) : s.encoded.viewDim = s.viewDim := rfl
@[simp] theorem State.encoded_argSec (s : State) : s.encoded.argSec = s.argSec := rfl
@[simp] theorem State.encoded_argPos (s : State) : s.encoded.argPos = s.argPos := rfl
@[simp] theorem State.encoded_resPos (s : State) : s.encoded.resPos = s.resPos := rfl
@[simp] theorem State.encoded_resSec (s : State) : s.encoded.resSec = s.resSec := rfl
@[simp] theorem State.encoded_resRot (s : State) : s.encoded.resRot = s.resRot := rfl
@[simp] theorem State.encoded_resWin (s : State) : s.encoded.resWin = s.resWin := rfl
@[simp] theorem State.encoded_rowSeq (s : State) : s.encoded.rowSeq = s.rowSeq := rfl
@[simp] theorem State.encoded_colSeq (s : State) : s.encoded.colSeq = s.colSeq := rfl
@[simp] theorem State.encoded_lutR (s : State) : s.encoded.lutR = s.lutR := rfl
@[simp] theorem State.encoded_lutC (s : State) : s.encoded.lutC = s.lutC := rfl
@[simp] theorem State.encoded_cmd (s : State) : s.encoded.cmd = s.cmd := rfl
@[simp] theorem State.encoded_events (s : State) : s.encoded.events = s.events := rfl
@[simp] theorem State.encoded_resp (s : State) : s.encoded.resp = s.resp := rfl
@[simp] theorem State.encoded_epoch (s : State) : s.encoded.epoch = s.epoch := rfl
@[simp] theorem State.encoded_tick (s : State) : s.encoded.tick = s.tick := rfl
@[simp] theorem State.encoded_matDim (s : State) : s.encoded.matDim = s.viewDim := rfl

/-- BUSY is set exactly while a command word is latched (10_state.md R27). -/
@[simp] theorem State.busy_eq_false (s : State) : s.busy = false ↔ s.cmd = none := by
  cases h : s.cmd <;> simp [State.busy, h]

@[simp] theorem State.busy_eq_true (s : State) : s.busy = true ↔ ∃ w, s.cmd = some w := by
  cases h : s.cmd <;> simp [State.busy, h]

@[simp] theorem State.afterReset_busy (s : State) : s.afterReset.busy = false := rfl

@[simp] theorem State.afterReset_irq (s : State) : s.afterReset.irq = false := rfl

/-- `finish` is the completion as the next state (60_exceptions.md R230). -/
@[simp] theorem finish_eq (c : Code) (s : State) : finish c s = .next (s.complete c) := rfl

end Sys2Proof.Machine
end

