-- ==== Sys2Proof/Laws/Exec.lean ====
section
/-! SUPPORT. Inversion of the commands: everything that each meaning, the engine's step and one transition can answer. -/

namespace Sys2Proof.Machine

/-- Everything BUILD can answer (41_sequence_lut.md R126). -/
theorem execBuild_cases (s : State) :
    (s.built = true ∧ execBuild s = .next (s.complete .alreadyBuilt)) ∨
    (s.built = false ∧ (maxCheck (genSeq s.tapsRow s.seedRow) = false ∨ maxCheck (genSeq s.tapsCol s.seedCol) = false) ∧
      execBuild s = .next (s.complete .cfgNotMaximal)) ∨
    (s.built = false ∧ maxCheck (genSeq s.tapsRow s.seedRow) = true ∧ maxCheck (genSeq s.tapsCol s.seedCol) = true ∧
      ((buildLut (genSeq s.tapsRow s.seedRow)).2 = true ∨ (buildLut (genSeq s.tapsCol s.seedCol)).2 = true) ∧
      execBuild s = .next (s.complete .cfgLutCollision)) ∨
    (s.built = false ∧ maxCheck (genSeq s.tapsRow s.seedRow) = true ∧ maxCheck (genSeq s.tapsCol s.seedCol) = true ∧
      (buildLut (genSeq s.tapsRow s.seedRow)).2 = false ∧ (buildLut (genSeq s.tapsCol s.seedCol)).2 = false ∧
      execBuild s = .next ((s.installTables (genSeq s.tapsRow s.seedRow) (genSeq s.tapsCol s.seedCol)
        (buildLut (genSeq s.tapsRow s.seedRow)).1 (buildLut (genSeq s.tapsCol s.seedCol)).1).complete .ok)) := by
  cases hb : s.built
  · cases hr : maxCheck (genSeq s.tapsRow s.seedRow)
    · simp [execBuild, hb, generate, hr]
    · cases hc : maxCheck (genSeq s.tapsCol s.seedCol)
      · simp [execBuild, hb, generate, hr, hc]
      · rcases hlr : buildLut (genSeq s.tapsRow s.seedRow) with ⟨tr, cr⟩
        rcases hlc : buildLut (genSeq s.tapsCol s.seedCol) with ⟨tc, cc⟩
        cases cr <;> cases cc <;> simp [execBuild, hb, generate, hr, hc, hlr, hlc]
  · simp [execBuild, hb]

/-- Everything ENCODE can answer (42_encode.md R157). -/
theorem execEncode_cases (s : State) :
    (s.built = false ∧ execEncode s = .next (s.complete .notBuilt)) ∨
    (s.built = true ∧ (128 < viewRows s ∨ 128 < viewCols s) ∧ execEncode s = .next (s.complete .shapeRange)) ∨
    (s.built = true ∧ viewRows s ≤ 128 ∧ viewCols s ≤ 128 ∧ (256 ≤ argSx s ∨ 256 ≤ argSy s) ∧
      execEncode s = .next (s.complete .cfgSectionRange)) ∨
    (s.built = true ∧ viewRows s ≤ 128 ∧ viewCols s ≤ 128 ∧ argSx s < 256 ∧ argSy s < 256 ∧
      execEncode s = .next (s.encoded.complete .ok)) := by
  cases hb : s.built
  · simp [execEncode, hb]
  · by_cases h1 : 128 < viewRows s ∨ 128 < viewCols s
    · simp [execEncode, hb, h1]
    · by_cases h2 : 256 ≤ argSx s ∨ 256 ≤ argSy s
      · refine .inr (.inr (.inl ⟨rfl, by omega, by omega, h2, ?_⟩))
        simp [execEncode, hb, h1, h2]
      · refine .inr (.inr (.inr ⟨rfl, by omega, by omega, by omega, by omega, ?_⟩))
        simp [execEncode, hb, h1, h2]

/-- The view lies inside MAT_DIM, in numbers (20_memory.md R64). -/
theorem viewInBounds_iff (s : State) :
    viewInBounds s = true ↔
      s.viewOrg.row0.toNat + s.viewDim.rows.toNat ≤ s.matDim.rows.toNat ∧
      s.viewOrg.col0.toNat + s.viewDim.cols.toNat ≤ s.matDim.cols.toNat := by
  simp only [viewInBounds, Bool.and_eq_true, decide_eq_true_eq]
  exact Iff.rfl

/-- What the common checks of the decode commands say (60_exceptions.md R232). -/
theorem decodeGuard_cases (s : State) :
    (s.built = false ∧ decodeGuard s = some .notBuilt) ∨
    (s.built = true ∧ viewInBounds s = false ∧ decodeGuard s = some .badView) ∨
    (s.built = true ∧ viewInBounds s = true ∧ decodeGuard s = none) := by
  cases hb : s.built <;> cases hv : viewInBounds s <;> simp [decodeGuard, hb, hv]

/-- Everything DECPOS can answer (43_decode.md R183). -/
theorem execDecpos_cases (s : State) :
    (∃ c, decodeGuard s = some c ∧ (c = .notBuilt ∨ c = .badView) ∧ execDecpos s = .next (s.complete c)) ∨
    (decodeGuard s = none ∧ decodePosition s (viewRows s) (viewCols s) (viewDot s) = .tooSmall ∧
      execDecpos s = .next (s.complete .tooSmall)) ∨
    (∃ wA wB, decodeGuard s = none ∧ decodePosition s (viewRows s) (viewCols s) (viewDot s) = .invalidWindow wA wB ∧
      execDecpos s = .next ((s.withResWin wA wB).complete .invalidWindow)) ∨
    (∃ col row wA wB, decodeGuard s = none ∧
      decodePosition s (viewRows s) (viewCols s) (viewDot s) = .position col row wA wB ∧
      execDecpos s = .next (((s.withResWin wA wB).withResPos col row).complete .ok)) := by
  obtain ⟨_, h⟩ | ⟨_, _, h⟩ | ⟨_, _, h⟩ := decodeGuard_cases s
  · simp [execDecpos, h]
  · simp [execDecpos, h]
  · cases hd : decodePosition s (viewRows s) (viewCols s) (viewDot s) <;> simp [execDecpos, h, hd, finishPosition]

/-- Everything DECSEC can answer (43_decode.md R189). -/
theorem execDecsec_cases (s : State) :
    (∃ c, decodeGuard s = some c ∧ (c = .notBuilt ∨ c = .badView) ∧ execDecsec s = .next (s.complete c)) ∨
    (decodeGuard s = none ∧ ∃ c, (c = .badArg ∨ c = .tooSmall ∨ c = .checksumMismatch) ∧
      execDecsec s = .next (s.complete c)) ∨
    (∃ sx sy, decodeGuard s = none ∧
      decodeSection s (viewRows s) (viewCols s) (viewDot s) (argCol s) (argRow s) = .found sx sy ∧
      execDecsec s = .next ((s.withResSec sx sy).complete .ok)) := by
  obtain ⟨_, h⟩ | ⟨_, _, h⟩ | ⟨_, _, h⟩ := decodeGuard_cases s
  · simp [execDecsec, h]
  · simp [execDecsec, h]
  · cases hd : decodeSection s (viewRows s) (viewCols s) (viewDot s) (argCol s) (argRow s) <;>
      simp [execDecsec, h, hd, finishSection]

/-- Everything DECROT can answer (43_decode.md R194). -/
theorem execDecrot_cases (s : State) :
    (∃ c, decodeGuard s = some c ∧ (c = .notBuilt ∨ c = .badView) ∧ execDecrot s = .next (s.complete c)) ∨
    (decodeGuard s = none ∧ decodeRotation s (viewRows s) (viewCols s) (viewDot s) = .tooSmall ∧
      execDecrot s = .next (s.complete .tooSmall)) ∨
    (decodeGuard s = none ∧ decodeRotation s (viewRows s) (viewCols s) (viewDot s) = .ambiguous ∧
      execDecrot s = .next (s.complete .ambiguousOrientation)) ∨
    (∃ d, decodeGuard s = none ∧ decodeRotation s (viewRows s) (viewCols s) (viewDot s) = .rotation d ∧
      execDecrot s = .next ((s.withResRot d).complete .ok)) := by
  obtain ⟨_, h⟩ | ⟨_, _, h⟩ | ⟨_, _, h⟩ := decodeGuard_cases s
  · simp [execDecrot, h]
  · simp [execDecrot, h]
  · cases hd : decodeRotation s (viewRows s) (viewCols s) (viewDot s) <;> simp [execDecrot, h, hd, finishRotation]

/-! ### The engine and the transitions -/

@[simp] theorem engineStep_idle (s : State) (h : s.cmd = none) : engineStep s = .next s := by
  simp [engineStep, h]

theorem engineStep_busy (s : State) (w : Word) (h : s.cmd = some w) : engineStep s = execWord w s := by
  simp [engineStep, h]

theorem execWord_ok {w : Word} {i : Instr} (s : State) (h : decodeWord w = .ok i) : execWord w s = exec i s := by
  simp [execWord, h]

theorem execWord_error {w : Word} {e : DecodeError} (s : State) (h : decodeWord w = .error e) :
    execWord w s = .next (s.complete .illegalCmd) := by
  simp [execWord, h, completeIllegal]

/-- Everything executing a word can answer: a command's own answer, or the completion as illegal (40_command_issue.md R101,
R104). -/
theorem execWord_cases (w : Word) (s : State) :
    (∃ i, decodeWord w = .ok i ∧ execWord w s = exec i s) ∨
    ((∃ e, decodeWord w = .error e) ∧ execWord w s = .next (s.complete .illegalCmd)) := by
  cases h : decodeWord w with
  | ok i => exact .inl ⟨i, rfl, execWord_ok s h⟩
  | error e => exact .inr ⟨⟨e, rfl⟩, execWord_error s h⟩

/-- Everything a step can be: the engine's step with no event pending, or the oldest event (40_command_issue.md R102). -/
theorem step_cases (s : State) :
    (s.events = [] ∧ step s = engineStep s) ∨
    (∃ e rest, s.events = e :: rest ∧ step s = runEvent e { s with events := rest }) := by
  cases h : s.events with
  | nil => exact .inl ⟨rfl, by simp [step, nextTransition, h]⟩
  | cons e rest => exact .inr ⟨e, rest, rfl, by simp [step, nextTransition, h]⟩

/-- Everything an access and a completion in one cycle can be: an access alone, an access and then the engine's step, or the
engine's step and then an access (60_exceptions.md R235). -/
theorem coincide_cases (order : CycleOrder) (a : Access) (s : State) :
    (s.cmd = none ∧ coincide order a s = .next (hostAccess a s)) ∨
    (s.busy = true ∧ coincide order a s = engineStep (hostAccess a s)) ∨
    (s.busy = true ∧ order = .completionFirst ∧ a.isStatusWrite = false ∧ coincide order a s = engineThen a s) := by
  cases hb : s.busy
  · exact .inl ⟨by simpa using hb, by simp [coincide, hb]⟩
  · cases order
    · exact .inr (.inl ⟨rfl, by simp [coincide, hb]⟩)
    · cases ha : a.isStatusWrite
      · exact .inr (.inr ⟨rfl, rfl, rfl, by simp [coincide, hb, ha]⟩)
      · exact .inr (.inl ⟨rfl, by simp [coincide, hb, ha]⟩)

end Sys2Proof.Machine
end

