-- ==== Sys2Proof/Laws/Memory.lean ====
section
/-! SUPPORT. The laws of the matrix memory: a read after a write, the canonical form kept by every write, and the bytes that
a bus write and an ENCODE store. -/

namespace Sys2Proof.Machine

/-- A read after a write: the written byte at its offset, the old content elsewhere. -/
theorem Memory.get_set (m : Memory) (k a : Nat) (v : Byte) :
    Memory.get (Memory.set m k v) a = if a = k then some v else Memory.get m a := by
  induction m with
  | nil => simp [Memory.set, Memory.get]
  | cons p m ih =>
    obtain ⟨b, w⟩ := p
    simp only [Memory.set]
    split
    · simp [Memory.get]
    · split
      · subst_vars
        simp only [Memory.get]
        split <;> simp_all
      · simp only [Memory.get, ih]
        split <;> split <;> simp_all

@[simp] theorem Memory.get_set_self (m : Memory) (k : Nat) (v : Byte) : Memory.get (Memory.set m k v) k = some v := by
  simp [Memory.get_set]

theorem Memory.get_set_of_ne (m : Memory) {k a : Nat} (v : Byte) (h : a ≠ k) :
    Memory.get (Memory.set m k v) a = Memory.get m a := by
  simp [Memory.get_set, h]

/-- The canonical form from a bound holds from every lower bound. -/
theorem Memory.wfFrom_mono {low low' : Nat} {m : Memory} (hle : low' ≤ low) (h : Memory.wfFrom low m = true) :
    Memory.wfFrom low' m = true := by
  cases m with
  | nil => rfl
  | cons p m =>
    simp only [Memory.wfFrom, Bool.and_eq_true, decide_eq_true_eq] at h ⊢
    exact ⟨⟨⟨by omega, h.1.1.2⟩, h.1.2⟩, h.2⟩

/-- A write of a cell byte inside the RAM keeps the canonical form. -/
theorem Memory.wfFrom_set {low k : Nat} {v : Byte} {m : Memory} (hlow : low ≤ k) (hk : k < 0x8000)
    (hv : v.toNat < 4) (h : Memory.wfFrom low m = true) : Memory.wfFrom low (Memory.set m k v) = true := by
  induction m generalizing low with
  | nil => simp [Memory.set, Memory.wfFrom, hlow, hk, hv]
  | cons p m ih =>
    obtain ⟨b, w⟩ := p
    simp only [Memory.wfFrom, Bool.and_eq_true, decide_eq_true_eq] at h
    obtain ⟨⟨⟨h1, h2⟩, h3⟩, h4⟩ := h
    simp only [Memory.set]
    split
    · rename_i hkb
      simp only [Memory.wfFrom, Bool.and_eq_true, decide_eq_true_eq]
      exact ⟨⟨⟨hlow, hk⟩, hv⟩, ⟨⟨by omega, h2⟩, h3⟩, h4⟩
    · split
      · subst_vars
        simp only [Memory.wfFrom, Bool.and_eq_true, decide_eq_true_eq]
        exact ⟨⟨⟨h1, h2⟩, hv⟩, h4⟩
      · simp only [Memory.wfFrom, Bool.and_eq_true, decide_eq_true_eq]
        exact ⟨⟨⟨h1, h2⟩, h3⟩, ih (by omega) h4⟩

/-- Every single write to a cell of the RAM keeps the canonical form. -/
theorem Memory.wf_set {k : Nat} {v : Byte} {m : Memory} (hlow : 0x4000 ≤ k) (hk : k < 0x8000) (hv : v.toNat < 4)
    (h : Memory.wf m = true) : Memory.wf (Memory.set m k v) = true :=
  Memory.wfFrom_set hlow hk hv h

@[simp] theorem Memory.wf_nil : Memory.wf [] = true := rfl

/-- The stored form of a byte keeps its two low bits and clears the others (20_memory.md R63). -/
theorem cellMask_lt (b : Byte) : (cellMask b).toNat < 4 := by
  have := (b.extractLsb' 0 2).isLt
  simp only [cellMask, BitVec.toNat_setWidth]
  omega

theorem cellMask_bits (b : Byte) : (cellMask b).extractLsb' 0 2 = b.extractLsb' 0 2 := by
  apply BitVec.eq_of_getLsbD_eq
  intro i hi
  simp [cellMask, hi]
  omega

theorem dotByte_lt (d : Dot) : (dotByte d).toNat < 4 := by
  obtain ⟨a, b⟩ := d
  cases a <;> cases b <;> decide

/-- The two bits of a cell's byte are A and B (20_memory.md R63). -/
theorem dotByte_bits (d : Dot) :
    ((dotByte d).extractLsb' 0 2).getLsbD 0 = d.a ∧ ((dotByte d).extractLsb' 0 2).getLsbD 1 = d.b := by
  obtain ⟨a, b⟩ := d
  cases a <;> cases b <;> decide

/-! ### A bus write -/

/-- What a bus write of n bytes stores: each byte's low bits in its own cell, nothing elsewhere (20_memory.md R63). -/
theorem Memory.get_matWrite (m : Memory) (off n a : Nat) (v : Word) :
    Memory.get (matWrite m off n v) a =
      if off ≤ a ∧ a < off + n then some (cellMask (byteOf v (a - off))) else Memory.get m a := by
  unfold matWrite
  induction n with
  | zero => simp
  | succ n ih =>
    rw [List.range_succ, List.foldl_append]
    simp only [List.foldl_cons, List.foldl_nil, Memory.get_set, ih]
    by_cases h : a = off + n
    · subst h
      simp
    · by_cases h2 : off ≤ a ∧ a < off + n
      · rw [if_neg h, if_pos h2, if_pos (by omega)]
      · rw [if_neg h, if_neg h2, if_neg (by omega)]

/-- A bus write inside the RAM keeps the canonical form. -/
theorem Memory.wf_matWrite {m : Memory} {off n : Nat} (v : Word) (hlow : 0x4000 ≤ off) (hhi : off + n ≤ 0x8000)
    (h : Memory.wf m = true) : Memory.wf (matWrite m off n v) = true := by
  unfold matWrite
  induction n with
  | zero => simpa using h
  | succ n ih =>
    rw [List.range_succ, List.foldl_append]
    exact Memory.wf_set (by omega) (by omega) (cellMask_lt _) (ih (by omega))

/-! ### A list of writes -/

/-- An offset that a list of writes does not name keeps its content. -/
theorem Memory.get_setAll_of_not_mem (m : Memory) (cells : List Host.Cell) (a : Nat)
    (h : ∀ p ∈ cells, p.1 ≠ a) : Memory.get (Memory.setAll m cells) a = Memory.get m a := by
  induction cells with
  | nil => rfl
  | cons p ps ih =>
    have h1 : a ≠ p.1 := fun e => h p (by simp) e.symm
    simp only [Memory.setAll, List.foldr_cons] at ih ⊢
    rw [Memory.get_set_of_ne _ _ h1]
    exact ih fun q hq => h q (by simp [hq])

/-- An offset that a list of writes names, always with one byte, holds that byte. -/
theorem Memory.get_setAll_of_mem (m : Memory) (cells : List Host.Cell) (a : Nat) (v : Byte) (hmem : (a, v) ∈ cells)
    (huniq : ∀ p ∈ cells, p.1 = a → p.2 = v) : Memory.get (Memory.setAll m cells) a = some v := by
  induction cells with
  | nil => simp at hmem
  | cons p ps ih =>
    simp only [Memory.setAll, List.foldr_cons] at ih ⊢
    by_cases hp : a = p.1
    · subst hp
      rw [Memory.get_set_self, huniq p (by simp) rfl]
    · rw [Memory.get_set_of_ne _ _ hp]
      refine ih ?_ fun q hq => huniq q (by simp [hq])
      rcases List.mem_cons.mp hmem with h | h
      · exact absurd (congrArg Prod.fst h) hp
      · exact h

/-- A list of writes of cell bytes inside the RAM keeps the canonical form. -/
theorem Memory.wf_setAll {m : Memory} {cells : List Host.Cell}
    (hc : ∀ p ∈ cells, 0x4000 ≤ p.1 ∧ p.1 < 0x8000 ∧ p.2.toNat < 4) (h : Memory.wf m = true) :
    Memory.wf (Memory.setAll m cells) = true := by
  induction cells with
  | nil => exact h
  | cons p ps ih =>
    obtain ⟨h1, h2, h3⟩ := hc p (by simp)
    exact Memory.wf_set h1 h2 h3 (ih fun q hq => hc q (by simp [hq]))

/-! ### Cells -/

/-- The bits of a cell depend on the written cells and the epoch only. -/
theorem cellBits_congr {s t : State} (hm : t.mat = s.mat) (he : t.epoch = s.epoch) (off : Nat) :
    cellBits t off = cellBits s off := by
  simp only [cellBits, hm, he]

theorem dotAt_congr {s t : State} (hm : t.mat = s.mat) (he : t.epoch = s.epoch) (r c : Nat) :
    dotAt t r c = dotAt s r c := by
  simp only [dotAt, cellBits_congr hm he]

/-- A cell's byte lies below 4: bits [7:2] read as 0 (20_memory.md R63). -/
theorem cellByte_toNat (s : State) (off : Nat) : (cellByte s off).toNat = (cellBits s off).toNat := by
  have := (cellBits s off).isLt
  simp only [cellByte, BitVec.toNat_setWidth]
  omega

/-- Distinct cells of the RAM have distinct offsets (20_memory.md R63). -/
theorem cellOffset_inj {r c r' c' : Nat} (hc : c < 128) (hc' : c' < 128) (h : cellOffset r c = cellOffset r' c') :
    r = r' ∧ c = c' := by
  simp only [cellOffset, Config.matBase] at h
  omega

theorem cellOffset_bounds {r c : Nat} (hr : r < 128) (hc : c < 128) :
    0x4000 ≤ cellOffset r c ∧ cellOffset r c < 0x8000 := by
  simp only [cellOffset, Config.matBase]
  omega

end Sys2Proof.Machine
end

