-- ==== Sys2Proof/Laws/Layout.lean ====
section
/-! SUPPORT. The embedding rule: phases, the bits of a payload, and the cells an ENCODE writes. -/

namespace Sys2Proof.Machine

/-! ### Phases -/

theorem phase_lt (x : Nat) : phase x < 6 := Nat.mod_lt _ (by decide)

theorem phase_mod (x : Nat) : phase (x % 63) = phase x := by
  simp [phase]

/-- The address phases are the multiples of 3 (42_encode.md R152, R153). -/
theorem isAddressPhase_phase (x : Nat) : isAddressPhase (phase x) = decide (x % 3 = 0) := by
  simp only [isAddressPhase, phase, Config.seqLen, Config.tile, Bool.or_eq_decide, beq_iff_eq, decide_eq_decide]
  omega

/-- A mask bit is 0 at a cell that is no address cell (42_encode.md R152). -/
theorem maskA_of_not {p : PayloadBits} {rho gamma : Nat} (h : isAddressPhase gamma = false) : maskA p rho gamma = false := by
  simp [maskA, h]

theorem maskA_of_address {p : PayloadBits} {rho gamma : Nat} (h : isAddressPhase gamma = true) :
    maskA p rho gamma = p.getLsbD (slotA rho gamma) := by
  simp [maskA, h]

theorem maskB_of_not {p : PayloadBits} {rho gamma : Nat} (h : isAddressPhase rho = false) : maskB p rho gamma = false := by
  simp [maskB, h]

theorem maskB_of_address {p : PayloadBits} {rho gamma : Nat} (h : isAddressPhase rho = true) :
    maskB p rho gamma = p.getLsbD (slotB rho gamma) := by
  simp [maskB, h]

/-- Channel A of an embedded cell (42_encode.md R156). -/
theorem embed_a (rowSeq colSeq : SeqBits) (sx sy : BitVec 8) (r c : Nat) :
    (embed rowSeq colSeq sx sy r c).a = (seqBit rowSeq r ^^ maskA (payload sx sy) (phase r) (phase c)) := by
  simp [embed, rowIndex, seqBit]

/-- Channel B of an embedded cell (42_encode.md R156). -/
theorem embed_b (rowSeq colSeq : SeqBits) (sx sy : BitVec 8) (r c : Nat) :
    (embed rowSeq colSeq sx sy r c).b = (seqBit colSeq c ^^ maskB (payload sx sy) (phase r) (phase c)) := by
  simp [embed, colIndex, seqBit]

/-! ### Payload -/

/-- Where each bit of a payload comes from (42_encode.md R154). -/
theorem payload_getLsbD (sx sy : BitVec 8) (k : Nat) :
    (payload sx sy).getLsbD k =
      if k < 1 then decide (k = 0)
      else if k < 7 then (crc6 sx sy).getLsbD (k - 1)
      else if k < 12 then sy.getLsbD (k - 7)
      else if k < 13 then decide (k = 12)
      else if k < 21 then sx.getLsbD (k - 13)
      else if k < 24 then sy.getLsbD (k - 16)
      else false := by
  simp only [payload, BitVec.getLsbD_append, BitVec.getLsbD_extractLsb']
  split
  · simp_all
  · split
    · rw [if_pos (by omega)]
    · split
      · rw [if_neg (by omega), if_pos (by omega)]
        have : k - 1 - 6 < 5 := by omega
        simp only [this, decide_true, Bool.true_and]
        congr 1
        omega
      · split
        · have hk : k = 12 := by omega
          subst hk
          simp
        · split
          · simp (disch := omega) only [if_neg, if_pos]
            congr 1
          · simp (disch := omega) only [if_neg]
            split
            · have : k - 1 - 6 - 5 - 1 - 8 < 3 := by omega
              simp only [this, decide_true, Bool.true_and]
              congr 1
              omega
            · have : ¬ (k - 1 - 6 - 5 - 1 - 8 < 3) := by omega
              simp [this]

/-- The section a payload carries is the one it was made of (42_encode.md R154, 43_decode.md R187). -/
theorem payloadSx_payload (sx sy : BitVec 8) : payloadSx (payload sx sy) = sx := by
  apply BitVec.eq_of_getLsbD_eq
  intro i hi
  rw [payloadSx, BitVec.getLsbD_extractLsb', payload_getLsbD]
  simp (disch := omega) only [if_neg, if_pos]
  simp [hi]

theorem payloadSy_payload (sx sy : BitVec 8) : payloadSy (payload sx sy) = sy := by
  apply BitVec.eq_of_getLsbD_eq
  intro i hi
  rw [payloadSy, BitVec.getLsbD_append, BitVec.getLsbD_extractLsb', BitVec.getLsbD_extractLsb', payload_getLsbD,
    payload_getLsbD]
  split
  · rename_i h
    simp (disch := omega) only [if_neg, if_pos]
    simp [h]
  · have h3 : i - 5 < 3 := by omega
    simp (disch := omega) only [if_neg, if_pos]
    simp only [h3, decide_true, Bool.true_and]
    congr 1
    omega

/-! ### The cells an ENCODE writes -/

/-- The cells of a shape, one by one (42_encode.md R157). -/
theorem mem_encodeCells {s : State} {sx sy : BitVec 8} {rows cols : Nat} {p : Host.Cell} :
    p ∈ encodeCells s sx sy rows cols ↔
      ∃ r c, r < rows ∧ c < cols ∧ p = (cellOffset r c, dotByte (embed s.rowSeq s.colSeq sx sy r c)) := by
  simp only [encodeCells, List.mem_flatMap, List.mem_map, List.mem_range]
  constructor
  · rintro ⟨r, hr, c, hc, rfl⟩
    exact ⟨r, c, hr, hc, rfl⟩
  · rintro ⟨r, c, hr, hc, rfl⟩
    exact ⟨r, hr, c, hc, rfl⟩

/-- Inside the shape an encoded cell holds its embedded dot (42_encode.md R157). -/
theorem dotAt_encoded (s : State) {r c : Nat} (hC : viewCols s ≤ 128) (hr : r < viewRows s) (hc : c < viewCols s) :
    dotAt s.encoded r c = embed s.rowSeq s.colSeq (s.argSec.sx.setWidth 8) (s.argSec.sy.setWidth 8) r c := by
  have hg : Memory.get s.encoded.mat (cellOffset r c) =
      some (dotByte (embed s.rowSeq s.colSeq (s.argSec.sx.setWidth 8) (s.argSec.sy.setWidth 8) r c)) := by
    refine Memory.get_setAll_of_mem _ _ _ _ (mem_encodeCells.mpr ⟨r, c, hr, hc, rfl⟩) ?_
    intro p hp heq
    obtain ⟨r', c', _, hc', rfl⟩ := mem_encodeCells.mp hp
    obtain ⟨rfl, rfl⟩ := cellOffset_inj (by omega) (by omega) heq
    rfl
  have hbits : cellBits s.encoded (cellOffset r c) =
      (dotByte (embed s.rowSeq s.colSeq (s.argSec.sx.setWidth 8) (s.argSec.sy.setWidth 8) r c)).extractLsb' 0 2 := by
    rw [cellBits, hg]
  obtain ⟨h1, h2⟩ := dotByte_bits (embed s.rowSeq s.colSeq (s.argSec.sx.setWidth 8) (s.argSec.sy.setWidth 8) r c)
  rw [dotAt, hbits, h1, h2]

/-- Outside the shape an ENCODE leaves every cell (42_encode.md R157). -/
theorem cellBits_encoded_outside (s : State) {off : Nat}
    (h : ∀ r c, r < viewRows s → c < viewCols s → off ≠ cellOffset r c) : cellBits s.encoded off = cellBits s off := by
  have hg : Memory.get s.encoded.mat off = Memory.get s.mat off := by
    refine Memory.get_setAll_of_not_mem _ _ _ ?_
    intro p hp heq
    obtain ⟨r, c, hr, hc, rfl⟩ := mem_encodeCells.mp hp
    exact h r c hr hc heq.symm
  simp only [cellBits, hg, State.encoded_epoch]

/-- An ENCODE keeps the canonical form of the memory. -/
theorem wf_encoded {s : State} (hR : viewRows s ≤ 128) (hC : viewCols s ≤ 128) (h : Memory.wf s.mat = true) :
    Memory.wf s.encoded.mat = true := by
  refine Memory.wf_setAll ?_ h
  intro p hp
  obtain ⟨r, c, hr, hc, rfl⟩ := mem_encodeCells.mp hp
  obtain ⟨h1, h2⟩ := cellOffset_bounds (r := r) (c := c) (by omega) (by omega)
  exact ⟨h1, h2, dotByte_lt _⟩

end Sys2Proof.Machine
end

