-- ==== Sys2Proof/Laws/Sequence.lean ====
section
/-! SUPPORT. The sequence generator and the lookup table: the bits of a generated sequence, its windows as LFSR states, the
maximality check as distinctness, and what the build loop records. -/

namespace Sys2Proof.Machine

/-! ### The generator -/

theorem lfsrState_next (taps st : BitVec 6) (k : Nat) :
    lfsrState taps (lfsrNext taps st) k = lfsrState taps st (k + 1) := by
  induction k with
  | zero => rfl
  | succ k ih => rw [lfsrState, ih, ← lfsrState]

theorem lfsrRun_getD (taps : BitVec 6) (n k : Nat) (st : BitVec 6) (hk : k < n) :
    (lfsrRun taps n st).getD k false = lfsrOut (lfsrState taps st k) := by
  induction n generalizing st k with
  | zero => omega
  | succ n ih =>
    cases k with
    | zero => rfl
    | succ k =>
      have := ih k (lfsrNext taps st) (by omega)
      rw [lfsrState_next] at this
      simpa [lfsrRun] using this

/-- Bit k of a generated sequence is the output bit of S_k (41_sequence_lut.md R121). -/
theorem genSeq_getLsbD (taps seed : BitVec 6) (k : Nat) (hk : k < 63) :
    (genSeq taps seed).getLsbD k = lfsrOut (lfsrState taps seed k) := by
  rw [genSeq, getLsbD_ofBits 63 _ k hk, lfsrRun_getD taps 63 k seed hk]

/-- A step moves every bit up by one (41_sequence_lut.md R120). -/
theorem lfsrNext_getLsbD_succ (taps st : BitVec 6) (j : Nat) (hj : j < 5) :
    (lfsrNext taps st).getLsbD (j + 1) = st.getLsbD j := by
  have h : j + 1 < 6 := by omega
  have h' : j < 6 := by omega
  simp [lfsrNext, h, h']

/-- A step enters the feedback bit at bit 0 (41_sequence_lut.md R120). -/
theorem lfsrNext_getLsbD_zero (taps st : BitVec 6) : (lfsrNext taps st).getLsbD 0 = lfsrFeedback taps st := by
  simp [lfsrNext]

/-- After n more steps bit j has become bit j + n. -/
theorem lfsrState_shift (taps seed : BitVec 6) (k n j : Nat) (h : j + n < 6) :
    (lfsrState taps seed (k + n)).getLsbD (j + n) = (lfsrState taps seed k).getLsbD j := by
  induction n with
  | zero => rfl
  | succ n ih =>
    rw [← Nat.add_assoc, ← Nat.add_assoc, lfsrState, lfsrNext_getLsbD_succ _ _ _ (by omega), ih (by omega)]

/-- Bit 5 − k of S_i is the output bit of S_(i+k) (41_sequence_lut.md R122). -/
theorem lfsrState_bit (taps seed : BitVec 6) (i k : Nat) (hk : k < 6) :
    (lfsrState taps seed i).getLsbD (5 - k) = lfsrOut (lfsrState taps seed (i + k)) := by
  have h := lfsrState_shift taps seed i k (5 - k) (by omega)
  rw [Nat.sub_add_cancel (by omega)] at h
  exact h.symm

/-! ### Windows -/

/-- The bits of a window (41_sequence_lut.md R122). -/
theorem window_getLsbD (s : SeqBits) (i k : Nat) (hk : k < 6) :
    (window s i).getLsbD (5 - k) = s.getLsbD ((i + k) % 63) :=
  getLsbD_packWindow _ k hk

/-- A window depends on its index modulo L only (41_sequence_lut.md R121). -/
theorem window_mod (s : SeqBits) (i : Nat) : window s (i % 63) = window s i := by
  refine packWindow_congr fun k _ => ?_
  simp only [seqBit, Config.seqLen, Nat.mod_add_mod]

/-- The maximality check says that the windows are pairwise distinct (41_sequence_lut.md R123). -/
theorem pairwiseDistinct_iff (ws : List Window) : pairwiseDistinct ws = true ↔ ws.Nodup := by
  induction ws with
  | nil => simp [pairwiseDistinct]
  | cons w ws ih => simp [pairwiseDistinct, ih]

theorem maxCheck_iff (s : SeqBits) : maxCheck s = true ↔ ∀ i j, i < j → j < 63 → window s i ≠ window s j := by
  rw [maxCheck, pairwiseDistinct_iff, allWindows, List.nodup_iff_pairwise_ne, List.pairwise_map]
  simp only [List.pairwise_iff_getElem, List.length_range, List.getElem_range, Config.seqLen]
  exact ⟨fun h i j hij hj => h i j (by omega) hj hij, fun h i j _ hj hij => h i j hij hj⟩

/-- Distinct windows: equal windows have equal indices modulo L. -/
theorem window_inj {s : SeqBits} (hm : maxCheck s = true) {i j : Nat} (hi : i < 63) (hj : j < 63)
    (h : window s i = window s j) : i = j := by
  rw [maxCheck_iff] at hm
  rcases Nat.lt_trichotomy i j with hlt | heq | hgt
  · exact absurd h (hm i j hlt hj)
  · exact heq
  · exact absurd h.symm (hm j i hgt hi)

/-! ### The table -/

theorem lutEntry_set_self (t : Lut) (w : Window) (e : LutEntry) : lutEntry (t.set w.toNat e w.isLt) w = e := by
  simp [lutEntry]

theorem lutEntry_set_of_ne (t : Lut) {w w' : Window} (e : LutEntry) (h : w' ≠ w) :
    lutEntry (t.set w.toNat e w.isLt) w' = lutEntry t w' := by
  have : w.toNat ≠ w'.toNat := fun hn => h (BitVec.eq_of_toNat_eq hn.symm)
  simp [lutEntry, Vector.getElem_set_ne _ _ this]

@[simp] theorem lutEntry_empty (w : Window) : lutEntry Lut.empty w = { valid := false, index := 0 } := by
  simp [lutEntry, Lut.empty]

/-- What the build loop does over indices whose windows are distinct and not yet recorded: no collision, each window's entry
is its index, and every other entry stays (41_sequence_lut.md R124). -/
theorem buildLutFrom_distinct (s : SeqBits) (is : List Nat) (t : Lut) (hd : (is.map (window s)).Nodup)
    (ht : ∀ i ∈ is, (lutEntry t (window s i)).valid = false) :
    (buildLutFrom s is t).2 = false ∧
    (∀ i ∈ is, lutEntry (buildLutFrom s is t).1 (window s i) = { valid := true, index := BitVec.ofNat 6 i }) ∧
    (∀ w, w ∉ is.map (window s) → lutEntry (buildLutFrom s is t).1 w = lutEntry t w) := by
  induction is generalizing t with
  | nil => simp [buildLutFrom]
  | cons i is ih =>
    rw [List.map_cons, List.nodup_cons] at hd
    have hi := ht i (by simp)
    have hne : ∀ j ∈ is, window s j ≠ window s i := fun j hj h => hd.1 (h ▸ List.mem_map_of_mem hj)
    obtain ⟨h1, h2, h3⟩ := ih (t.set (window s i).toNat { valid := true, index := BitVec.ofNat 6 i } (window s i).isLt)
      hd.2 (fun j hj => by rw [lutEntry_set_of_ne _ _ (hne j hj)]; exact ht j (by simp [hj]))
    simp only [buildLutFrom, hi, Bool.false_eq_true, if_false]
    refine ⟨h1, ?_, ?_⟩
    · intro j hj
      rcases List.mem_cons.mp hj with rfl | hj
      · rw [h3 _ hd.1, lutEntry_set_self]
      · exact h2 j hj
    · intro w hw
      rw [List.map_cons, List.mem_cons, not_or] at hw
      rw [h3 w hw.2, lutEntry_set_of_ne _ _ hw.1]

/-- The table of a sequence with distinct windows (41_sequence_lut.md R124, R125). -/
theorem buildLut_maximal {s : SeqBits} (hm : maxCheck s = true) :
    (buildLut s).2 = false ∧
    (∀ i, i < 63 → lutEntry (buildLut s).1 (window s i) = { valid := true, index := BitVec.ofNat 6 i }) ∧
    (∀ w, (∀ i, i < 63 → window s i ≠ w) → lutEntry (buildLut s).1 w = { valid := false, index := 0 }) := by
  have hd : ((List.range 63).map (window s)).Nodup := (pairwiseDistinct_iff _).mp hm
  obtain ⟨h1, h2, h3⟩ := buildLutFrom_distinct s (List.range 63) Lut.empty hd (by simp)
  refine ⟨h1, fun i hi => h2 i (List.mem_range.mpr hi), fun w hw => ?_⟩
  rw [buildLut, h3 w, lutEntry_empty]
  intro hmem
  obtain ⟨i, hi, rfl⟩ := List.mem_map.mp hmem
  exact hw i (List.mem_range.mp hi) rfl

/-- A looked-up index is the entry's (41_sequence_lut.md R125). -/
theorem lutGet_of_entry {t : Lut} {w : Window} {n : BitVec 6} (h : lutEntry t w = { valid := true, index := n }) :
    lutGet t w = some n := by
  simp [lutGet, h]

end Sys2Proof.Machine
end

