-- ==== Sys2Proof/Laws/Decoders.lean ====
section
/-! SUPPORT. The decode functions: the first occurrence of a phase, the bits of the extracted payload, and that each function
reads only cells inside its grid (43_decode.md R180). -/

namespace Sys2Proof.Machine

/-! ### Phases of a grid -/

/-- The first index of a phase is inside the grid, has the phase, and no earlier index has it (43_decode.md R184). -/
theorem firstPhase_some {n p rho i : Nat} (h : firstPhase n p rho = some i) :
    i < n ∧ phase (p + i) = rho ∧ ∀ j, j < i → phase (p + j) ≠ rho := by
  rw [firstPhase, List.find?_range_eq_some] at h
  simpa [and_assoc, and_left_comm, and_comm] using h

/-- No first index: no index of the grid has the phase (43_decode.md R184). -/
theorem firstPhase_none {n p rho : Nat} (h : firstPhase n p rho = none) : ∀ i, i < n → phase (p + i) ≠ rho := by
  rw [firstPhase, List.find?_range_eq_none] at h
  simpa using h

theorem coversPhases_iff (n p : Nat) :
    coversPhases n p = true ↔ ∀ rho, rho < 6 → ∃ i, i < n ∧ phase (p + i) = rho := by
  rw [coversPhases, List.all_eq_true]
  simp only [List.mem_range]
  constructor
  · intro h rho hr
    obtain ⟨i, hi⟩ := Option.isSome_iff_exists.mp (h rho hr)
    obtain ⟨h1, h2, _⟩ := firstPhase_some hi
    exact ⟨i, h1, h2⟩
  · intro h rho hr
    obtain ⟨i, h1, h2⟩ := h rho hr
    cases hf : firstPhase n p rho with
    | some _ => rfl
    | none => exact absurd h2 (firstPhase_none hf i h1)

/-- Where every phase occurs, `firstOf` is its first occurrence (43_decode.md R184). -/
theorem firstOf_spec {n p : Nat} (hc : coversPhases n p = true) {rho : Nat} (hr : rho < 6) :
    firstOf n p rho < n ∧ phase (p + firstOf n p rho) = rho ∧ ∀ j, j < firstOf n p rho → phase (p + j) ≠ rho := by
  obtain ⟨i, h1, h2⟩ := (coversPhases_iff n p).mp hc rho hr
  cases hf : firstPhase n p rho with
  | none => exact absurd h2 (firstPhase_none hf i h1)
  | some k => simpa [firstOf, hf] using firstPhase_some hf

/-- Six phases need six indices (42_encode.md R160). -/
theorem six_le_of_coversPhases {n p : Nat} (h : coversPhases n p = true) : 6 ≤ n := by
  rw [coversPhases_iff] at h
  by_contra hn
  obtain ⟨i0, h0, e0⟩ := h 0 (by omega)
  obtain ⟨i1, h1, e1⟩ := h 1 (by omega)
  obtain ⟨i2, h2, e2⟩ := h 2 (by omega)
  obtain ⟨i3, h3, e3⟩ := h 3 (by omega)
  obtain ⟨i4, h4, e4⟩ := h 4 (by omega)
  obtain ⟨i5, h5, e5⟩ := h 5 (by omega)
  have ne : ∀ {a b x y : Nat}, phase (p + a) = x → phase (p + b) = y → x ≠ y → a ≠ b := by
    rintro a b x y rfl rfl hxy rfl
    exact hxy rfl
  have := ne e0 e1 (by omega)
  have := ne e0 e2 (by omega)
  have := ne e0 e3 (by omega)
  have := ne e0 e4 (by omega)
  have := ne e0 e5 (by omega)
  have := ne e1 e2 (by omega)
  have := ne e1 e3 (by omega)
  have := ne e1 e4 (by omega)
  have := ne e1 e5 (by omega)
  have := ne e2 e3 (by omega)
  have := ne e2 e4 (by omega)
  have := ne e2 e5 (by omega)
  have := ne e3 e4 (by omega)
  have := ne e3 e5 (by omega)
  have := ne e4 e5 (by omega)
  omega

/-! ### Grids that agree -/

/-- Two grids have the same cells inside rows × cols (43_decode.md R180). -/
def GridsAgree (rows cols : Nat) (g h : Nat → Nat → Dot) : Prop := ∀ i j, i < rows → j < cols → g i j = h i j

/-- The window of channel A reads rows 0 to 5 and columns 0 to 2 (43_decode.md R181). -/
theorem windowA_congr {g h : Nat → Nat → Dot} (hg : GridsAgree 6 6 g h) : windowA g = windowA h := by
  refine packWindow_congr fun k hk => ?_
  rw [hg k 0 hk (by omega), hg k 1 hk (by omega), hg k 2 hk (by omega)]

/-- The window of channel B reads rows 0 to 2 and columns 0 to 5 (43_decode.md R181). -/
theorem windowB_congr {g h : Nat → Nat → Dot} (hg : GridsAgree 6 6 g h) : windowB g = windowB h := by
  refine packWindow_congr fun k hk => ?_
  rw [hg 0 k (by omega) hk, hg 1 k (by omega) hk, hg 2 k (by omega) hk]

/-- DecodePosition reads only the 6 × 6 corner (43_decode.md R182). -/
theorem decodePosition_congr {s t : State} (hR : t.lutR = s.lutR) (hC : t.lutC = s.lutC) {rows cols : Nat}
    {g h : Nat → Nat → Dot} (hg : GridsAgree 6 6 g h) : decodePosition t rows cols g = decodePosition s rows cols h := by
  simp only [decodePosition, hR, hC, windowA_congr hg, windowB_congr hg]

/-- Everything DecodePosition can answer (43_decode.md R182). -/
theorem decodePosition_cases (s : State) (rows cols : Nat) (g : Nat → Nat → Dot) :
    ((rows < 6 ∨ cols < 6) ∧ decodePosition s rows cols g = .tooSmall) ∨
    (6 ≤ rows ∧ 6 ≤ cols ∧ (lutGet s.lutR (windowA g) = none ∨ lutGet s.lutC (windowB g) = none) ∧
      decodePosition s rows cols g = .invalidWindow (windowA g) (windowB g)) ∨
    (∃ row col, 6 ≤ rows ∧ 6 ≤ cols ∧ lutGet s.lutR (windowA g) = some row ∧ lutGet s.lutC (windowB g) = some col ∧
      decodePosition s rows cols g = .position (col.toNat % 63) (row.toNat % 63) (windowA g) (windowB g)) := by
  by_cases hs : rows < 6 ∨ cols < 6
  · exact .inl ⟨hs, by simp [decodePosition, hs]⟩
  · right
    cases hr : lutGet s.lutR (windowA g) with
    | none => exact .inl ⟨by omega, by omega, .inl rfl, by simp [decodePosition, hs, hr]⟩
    | some row =>
      cases hc : lutGet s.lutC (windowB g) with
      | none => exact .inl ⟨by omega, by omega, .inr rfl, by simp [decodePosition, hs, hr, hc]⟩
      | some col => exact .inr ⟨row, col, by omega, by omega, rfl, rfl, by simp [decodePosition, hs, hr, hc]⟩

/-- The bits of an extracted payload (43_decode.md R185). -/
theorem extractPayload_getLsbD (s : State) (rows cols : Nat) (g : Nat → Nat → Dot) (pc pr k : Nat) (hk : k < 24) :
    (extractPayload s rows cols g pc pr).getLsbD k = extractBit s rows cols g pc pr k :=
  getLsbD_ofBits_map_range 24 _ k hk

/-- The extraction reads only cells inside the grid, where every phase occurs (43_decode.md R185). -/
theorem extractBit_congr {s t : State} (hR : t.rowSeq = s.rowSeq) (hC : t.colSeq = s.colSeq) {rows cols pc pr : Nat}
    (hr : coversPhases rows pr = true) (hc : coversPhases cols pc = true) {g h : Nat → Nat → Dot}
    (hg : GridsAgree rows cols g h) {k : Nat} (hk : k < 24) :
    extractBit t rows cols g pc pr k = extractBit s rows cols h pc pr k := by
  unfold extractBit
  split
  · have h1 := (firstOf_spec hr (rho := k / 2) (by omega)).1
    have h2 := (firstOf_spec hc (rho := 3 * (k % 2)) (by omega)).1
    simp only [undoA, hg _ _ h1 h2, hR]
  · have h1 := (firstOf_spec hr (rho := 3 * ((k - 12) / 6)) (by omega)).1
    have h2 := (firstOf_spec hc (rho := (k - 12) % 6) (by omega)).1
    simp only [undoB, hg _ _ h1 h2, hC]

theorem extractPayload_congr {s t : State} (hR : t.rowSeq = s.rowSeq) (hC : t.colSeq = s.colSeq)
    {rows cols pc pr : Nat} (hr : coversPhases rows pr = true) (hc : coversPhases cols pc = true)
    {g h : Nat → Nat → Dot} (hg : GridsAgree rows cols g h) :
    extractPayload t rows cols g pc pr = extractPayload s rows cols h pc pr := by
  apply BitVec.eq_of_getLsbD_eq
  intro k hk
  rw [extractPayload_getLsbD _ _ _ _ _ _ _ hk, extractPayload_getLsbD _ _ _ _ _ _ _ hk,
    extractBit_congr hR hC hr hc hg hk]

theorem copiesConsistent_iff (s : State) (rows cols : Nat) (g : Nat → Nat → Dot) (pc pr : Nat) (p : PayloadBits) :
    copiesConsistent s rows cols g pc pr p = true ↔
      ∀ i j, i < rows → j < cols → cellConsistent s g pc pr p i j = true := by
  simp only [copiesConsistent, List.all_eq_true, List.mem_range]
  exact ⟨fun h i j hi hj => h i hi j hj, fun h i hi j hj => h i j hi hj⟩

/-- What the copies of one cell say (43_decode.md R186). -/
theorem cellConsistent_iff (s : State) (g : Nat → Nat → Dot) (pc pr : Nat) (p : PayloadBits) (i j : Nat) :
    cellConsistent s g pc pr p i j = true ↔
      (isAddressPhase (phase (pc + j)) = true →
        undoA s g pr i j = p.getLsbD (slotA (phase (pr + i)) (phase (pc + j)))) ∧
      (isAddressPhase (phase (pr + i)) = true →
        undoB s g pc i j = p.getLsbD (slotB (phase (pr + i)) (phase (pc + j)))) := by
  simp only [cellConsistent, Bool.and_eq_true, Bool.or_eq_true, Bool.not_eq_true', beq_iff_eq]
  constructor
  · rintro ⟨h1, h2⟩
    exact ⟨fun h => h1.resolve_left (by simp [h]), fun h => h2.resolve_left (by simp [h])⟩
  · rintro ⟨h1, h2⟩
    constructor
    · cases h : isAddressPhase (phase (pc + j))
      · exact .inl rfl
      · exact .inr (h1 h)
    · cases h : isAddressPhase (phase (pr + i))
      · exact .inl rfl
      · exact .inr (h2 h)

theorem copiesConsistent_congr {s t : State} (hR : t.rowSeq = s.rowSeq) (hC : t.colSeq = s.colSeq)
    {rows cols pc pr : Nat} {p : PayloadBits} {g h : Nat → Nat → Dot} (hg : GridsAgree rows cols g h) :
    copiesConsistent t rows cols g pc pr p = copiesConsistent s rows cols h pc pr p := by
  rw [Bool.eq_iff_iff, copiesConsistent_iff, copiesConsistent_iff]
  refine forall_congr' fun i => forall_congr' fun j => forall_congr' fun hi => forall_congr' fun hj => ?_
  simp only [cellConsistent, undoA, undoB, hg i j hi hj, hR, hC]

/-- DecodeSection reads only cells inside its grid (43_decode.md R180, R188). -/
theorem decodeSection_congr {s t : State} (hR : t.rowSeq = s.rowSeq) (hC : t.colSeq = s.colSeq) {rows cols pc pr : Nat}
    {g h : Nat → Nat → Dot} (hg : GridsAgree rows cols g h) :
    decodeSection t rows cols g pc pr = decodeSection s rows cols h pc pr := by
  unfold decodeSection
  by_cases hb : Config.seqLen ≤ pc ∨ Config.seqLen ≤ pr
  · simp [hb]
  · cases hr : coversPhases rows pr
    · simp
    · cases hc : coversPhases cols pc
      · simp
      · simp only [checkPayload, extractPayload_congr hR hC hr hc hg, copiesConsistent_congr hR hC hg]

/-- A section was found: both numbers are below L and every phase occurs (43_decode.md R188). -/
theorem decodeSection_found {s : State} {rows cols : Nat} {g : Nat → Nat → Dot} {pc pr : Nat} {sx sy : BitVec 8} :
    decodeSection s rows cols g pc pr = .found sx sy ↔
      pc < 63 ∧ pr < 63 ∧ coversPhases rows pr = true ∧ coversPhases cols pc = true ∧
      copiesConsistent s rows cols g pc pr (extractPayload s rows cols g pc pr) = true ∧
      validPayload (extractPayload s rows cols g pc pr) = true ∧
      payloadSx (extractPayload s rows cols g pc pr) = sx ∧ payloadSy (extractPayload s rows cols g pc pr) = sy := by
  unfold decodeSection checkPayload
  by_cases hb : Config.seqLen ≤ pc ∨ Config.seqLen ≤ pr
  · simp [hb]
    intro h1 h2
    simp only [Config.seqLen] at hb
    omega
  · have h1 : pc < 63 := by simp only [Config.seqLen] at hb; omega
    have h2 : pr < 63 := by simp only [Config.seqLen] at hb; omega
    cases coversPhases rows pr <;> cases coversPhases cols pc <;>
      cases copiesConsistent s rows cols g pc pr (extractPayload s rows cols g pc pr) <;>
      cases validPayload (extractPayload s rows cols g pc pr) <;> simp [hb, h1, h2]

/-- Both decodes read only cells inside the grid (43_decode.md R180, R192). -/
theorem gridValidates_congr {s : State} {rows cols : Nat} {g h : Nat → Nat → Dot} (hg : GridsAgree rows cols g h) :
    gridValidates s rows cols g = gridValidates s rows cols h := by
  unfold gridValidates
  by_cases hs : rows < 6 ∨ cols < 6
  · simp [decodePosition, hs]
  · rw [decodePosition_congr rfl rfl (g := g) (h := h) fun i j hi hj => hg i j (by omega) (by omega)]
    cases decodePosition s rows cols h with
    | position pc pr wA wB => simp only [decodeSection_congr rfl rfl hg]
    | _ => rfl

end Sys2Proof.Machine
end

