-- ==== Sys2Proof/Laws/Host.lean ====
section
/-! SUPPORT. Host accesses: the address map in numbers, and everything a read, a write and an access at a bus address can
do to the block. -/

namespace Sys2Proof.Machine

/-! ### The address map -/

theorem wordAligned_iff (off n : Nat) : wordAligned off n = true ↔ n = 4 ∧ off % 4 = 0 := by
  simp [wordAligned]

theorem matAligned_iff (off n : Nat) : matAligned off n = true ↔ (n = 1 ∨ n = 2 ∨ n = 4) ∧ off % n = 0 := by
  simp [matAligned, or_assoc]

/-- The offsets of the registers below 0x100 (10_state.md section 2). -/
theorem regAt_isSome_iff (off : Nat) (h4 : off % 4 = 0) (h : off < 0x100) :
    (regAt off).isSome = true ↔ off ≤ 0x030 ∨ (0x040 ≤ off ∧ off ≤ 0x04C) := by
  obtain ⟨q, rfl⟩ : ∃ q, off = 4 * q := ⟨off / 4, by omega⟩
  have hq : q < 64 := by omega
  clear h4 h
  revert q
  decide

/-- Where each target lies (20_memory.md R60, R61). -/
def Target.At : Target → Nat → Nat → Prop
  | .reg r, off, n => off < 0x100 ∧ n = 4 ∧ off % 4 = 0 ∧ regAt off = some r
  | .seqRow i, off, n => off = 0x1000 + 4 * i ∧ i < 64 ∧ n = 4
  | .seqCol i, off, n => off = 0x1100 + 4 * i ∧ i < 64 ∧ n = 4
  | .lutRow w, off, n => off = 0x1200 + 4 * w ∧ w < 64 ∧ n = 4
  | .lutCol w, off, n => off = 0x1300 + 4 * w ∧ w < 64 ∧ n = 4
  | .mat o m, off, n => o = off ∧ m = n ∧ 0x4000 ≤ off ∧ off + n ≤ 0x8000 ∧ (n = 1 ∨ n = 2 ∨ n = 4) ∧ off % n = 0

/-- The address map answers a target only where it lies. -/
theorem target_at {off n : Nat} {t : Target} (h : target off n = some t) : t.At off n := by
  simp only [target, Config.matBase, Config.apertureBytes] at h
  split_ifs at h with h1 ha _ _ ha _ ha _ ha _ ha _ _ ha
  · obtain ⟨r, hr, rfl⟩ := Option.map_eq_some_iff.mp h
    have hw := (wordAligned_iff off n).mp ha
    exact ⟨h1, hw.1, hw.2, hr⟩
  all_goals cases h
  all_goals first | have hw := (wordAligned_iff off n).mp ha | have hw := (matAligned_iff off n).mp ha
  all_goals try exact ⟨by omega, by omega, hw.1⟩
  refine ⟨rfl, rfl, by omega, ?_, hw⟩
  rcases hw with ⟨rfl | rfl | rfl, hm⟩ <;> omega

theorem target_reg {off : Nat} {r : Reg} (h : off < 0x100) (h4 : off % 4 = 0) (hr : regAt off = some r) :
    target off 4 = some (.reg r) := by
  simp [target, h, wordAligned, h4, hr]

theorem target_seqRow {i : Nat} (h : i < 64) : target (0x1000 + 4 * i) 4 = some (.seqRow i) := by
  have ha : wordAligned (0x1000 + 4 * i) 4 = true := (wordAligned_iff _ _).mpr ⟨rfl, by omega⟩
  simp (disch := omega) [target, ha, if_neg, if_pos]

theorem target_seqCol {i : Nat} (h : i < 64) : target (0x1100 + 4 * i) 4 = some (.seqCol i) := by
  have ha : wordAligned (0x1100 + 4 * i) 4 = true := (wordAligned_iff _ _).mpr ⟨rfl, by omega⟩
  simp (disch := omega) [target, ha, if_neg, if_pos]

theorem target_lutRow {w : Nat} (h : w < 64) : target (0x1200 + 4 * w) 4 = some (.lutRow w) := by
  have ha : wordAligned (0x1200 + 4 * w) 4 = true := (wordAligned_iff _ _).mpr ⟨rfl, by omega⟩
  simp (disch := omega) [target, ha, if_neg, if_pos]

theorem target_lutCol {w : Nat} (h : w < 64) : target (0x1300 + 4 * w) 4 = some (.lutCol w) := by
  have ha : wordAligned (0x1300 + 4 * w) 4 = true := (wordAligned_iff _ _).mpr ⟨rfl, by omega⟩
  simp (disch := omega) [target, ha, if_neg, if_pos]

theorem target_mat {off n : Nat} (h1 : 0x4000 ≤ off) (h2 : off < 0x8000) (hn : n = 1 ∨ n = 2 ∨ n = 4)
    (hm : off % n = 0) : target off n = some (.mat off n) := by
  have ha : matAligned off n = true := (matAligned_iff off n).mpr ⟨hn, hm⟩
  simp only [target, Config.matBase, Config.apertureBytes]
  split_ifs <;> first | omega | rfl

/-! ### Reads -/

/-- A read changes the model's response and free-value count only (20_memory.md R68). -/
theorem hostRead_frame (s : State) (off n : Nat) :
    hostRead s off n = { s with resp := (hostRead s off n).resp, tick := (hostRead s off n).tick } := by
  unfold hostRead
  split
  · rfl
  · split <;> rfl

/-- A read of a target answers its datum (20_memory.md R62). -/
theorem hostRead_target {s : State} {off n : Nat} {t : Target} (h : off < 0x8000) (ht : target off n = some t) :
    hostRead s off n = { s with resp := .data n (targetRead s t), tick := tickAfterRead s t } := by
  simp only [hostRead, Config.apertureBytes, ht]
  rw [if_neg (by omega)]

/-- A read of a register answers its fields (20_memory.md R62). -/
theorem hostRead_reg {s : State} {off : Nat} {r : Reg} (h : off < 0x100) (h4 : off % 4 = 0)
    (hr : regAt off = some r) : hostRead s off 4 = { s with resp := .data 4 (regRead s r) } := by
  rw [hostRead_target (by omega) (target_reg h h4 hr)]
  rfl

/-! ### Writes -/

theorem hostWrite_target {s : State} {off n : Nat} {v : Word} {t : Target} (h : off < 0x8000)
    (ht : target off n = some t) : hostWrite s off n v = (targetWrite s v t).respond .written := by
  simp only [hostWrite, Config.apertureBytes, ht]
  rw [if_neg (by omega)]

theorem targetWrite_idle {s : State} (v : Word) (t : Target) (h : s.cmd = none) :
    targetWrite s v t = targetWriteIdle s v t := by
  simp [targetWrite, State.busy, h]

theorem targetWrite_busy {s : State} (v : Word) (t : Target) (h : s.busy = true) :
    targetWrite s v t = targetWriteBusy s v t := by
  simp only [targetWrite, h, if_true]

/-- An idle write to a register (20_memory.md R62). -/
theorem hostWrite_reg {s : State} {off : Nat} {r : Reg} (v : Word) (hc : s.cmd = none) (h : off < 0x100)
    (h4 : off % 4 = 0) (hr : regAt off = some r) : hostWrite s off 4 v = (regWrite s r v).respond .written := by
  rw [hostWrite_target (by omega) (target_reg h h4 hr), targetWrite_idle v _ hc]
  rfl

/-- SRST = 1 is a soft reset (10_state.md R25). -/
theorem ctrlWrite_reset (s : State) {v : Word} (h : v.getLsbD 1 = true) : ctrlWrite s v = s.afterReset := if_pos h

/-- SRST = 0 stores IE (10_state.md R25). -/
theorem ctrlWrite_ie (s : State) {v : Word} (h : v.getLsbD 1 = false) :
    ctrlWrite s v = { s with ctrlIe := v.getLsbD 0 } := if_neg (by rw [h]; decide)

/-- A write to CTRL is performed whether or not a command is in flight (10_state.md R25). -/
theorem hostWrite_ctrl (s : State) (v : Word) : hostWrite s 0x004 4 v = (ctrlWrite s v).respond .written := by
  rw [hostWrite_target (by omega) (target_reg (r := .ctrl) (by omega) (by omega) rfl), targetWrite]
  split <;> rfl

/-- A write to STATUS is performed whether or not a command is in flight (10_state.md R26). -/
theorem hostWrite_status (s : State) (v : Word) : hostWrite s 0x008 4 v = (s.clearStatus v).respond .written := by
  rw [hostWrite_target (by omega) (target_reg (r := .status) (by omega) (by omega) rfl), targetWrite]
  split <;> rfl

/-- Only offset 0x004 is CTRL and only offset 0x008 is STATUS. -/
theorem regAt_ctrl {off : Nat} (h : regAt off = some .ctrl) : off = 0x004 := by
  unfold regAt at h
  split at h <;> simp_all

theorem regAt_status {off : Nat} (h : regAt off = some .status) : off = 0x008 := by
  unfold regAt at h
  split at h <;> simp_all

/-- Everything a write can do while a command is in flight (40_command_issue.md R105). -/
theorem hostWrite_busy_cases (s : State) (off n : Nat) (v : Word) (hb : s.busy = true) :
    (0x8000 ≤ off ∧ hostWrite s off n v = s) ∨
    (off < 0x8000 ∧ target off n = none ∧ hostWrite s off n v = s.respond .busError) ∨
    (off = 0x004 ∧ n = 4 ∧ v.getLsbD 1 = true ∧ hostWrite s off n v = s.afterReset.respond .written) ∨
    (off = 0x004 ∧ n = 4 ∧ v.getLsbD 1 = false ∧
      hostWrite s off n v = { s with ctrlIe := v.getLsbD 0, resp := .written }) ∨
    (off = 0x008 ∧ n = 4 ∧ hostWrite s off n v = (s.clearStatus v).respond .written) ∨
    (off ≠ 0x004 ∧ off ≠ 0x008 ∧ target off n ≠ none ∧ hostWrite s off n v = s.dropWrite.respond .written) := by
  by_cases ha : 0x8000 ≤ off
  · exact .inl ⟨ha, by simp [hostWrite, ha]⟩
  · cases ht : target off n with
    | none => exact .inr (.inl ⟨by omega, by simp, by simp [hostWrite, ha, ht]⟩)
    | some t =>
      right; right
      have hat := target_at ht
      have hw := hostWrite_target (s := s) (v := v) (by omega) ht
      rw [targetWrite_busy v t hb] at hw
      by_cases h4 : off = 0x004
      · subst h4
        have hn : n = 4 := by
          cases t <;> simp only [Target.At] at hat <;> omega
        subst hn
        have hc := hostWrite_ctrl s v
        cases h1 : v.getLsbD 1
        · exact .inr (.inl ⟨rfl, rfl, rfl, by rw [hc, ctrlWrite_ie s h1]; rfl⟩)
        · exact .inl ⟨rfl, rfl, rfl, by rw [hc, ctrlWrite_reset s h1]⟩
      · by_cases h8 : off = 0x008
        · subst h8
          have hn : n = 4 := by
            cases t <;> simp only [Target.At] at hat <;> omega
          subst hn
          exact .inr (.inr (.inl ⟨rfl, rfl, hostWrite_status s v⟩))
        · refine .inr (.inr (.inr ⟨h4, h8, by simp, ?_⟩))
          rw [hw]
          cases t with
          | reg r =>
            obtain ⟨_, _, _, hr⟩ := hat
            cases r <;>
              first
                | exact absurd (regAt_ctrl hr) h4
                | exact absurd (regAt_status hr) h8
                | rfl
          | _ => rfl

/-- Everything a write can do while no command is in flight (20_memory.md R62, R63, R69). -/
theorem hostWrite_idle_cases (s : State) (off n : Nat) (v : Word) (hc : s.cmd = none) :
    (0x8000 ≤ off ∧ hostWrite s off n v = s) ∨
    (off < 0x8000 ∧ target off n = none ∧ hostWrite s off n v = s.respond .busError) ∨
    (∃ r, n = 4 ∧ regAt off = some r ∧ hostWrite s off n v = (regWrite s r v).respond .written) ∨
    (0x4000 ≤ off ∧ off + n ≤ 0x8000 ∧
      hostWrite s off n v = { s with mat := matWrite s.mat off n v, resp := .written }) ∨
    (0x1000 ≤ off ∧ off < 0x1400 ∧ hostWrite s off n v = s.respond .written) := by
  by_cases ha : 0x8000 ≤ off
  · exact .inl ⟨ha, by simp [hostWrite, ha]⟩
  · cases ht : target off n with
    | none => exact .inr (.inl ⟨by omega, by simp, by simp [hostWrite, ha, ht]⟩)
    | some t =>
      right; right
      have hat := target_at ht
      have hw := hostWrite_target (s := s) (v := v) (by omega) ht
      rw [targetWrite_idle v t hc] at hw
      cases t with
      | reg r =>
        obtain ⟨_, h4, _, hr⟩ := hat
        exact .inl ⟨r, h4, hr, hw⟩
      | mat o m =>
        obtain ⟨rfl, rfl, h1, h2, _⟩ := hat
        exact .inr (.inl ⟨h1, h2, hw⟩)
      | seqRow i => exact .inr (.inr ⟨by simp only [Target.At] at hat; omega, by simp only [Target.At] at hat; omega, hw⟩)
      | seqCol i => exact .inr (.inr ⟨by simp only [Target.At] at hat; omega, by simp only [Target.At] at hat; omega, hw⟩)
      | lutRow i => exact .inr (.inr ⟨by simp only [Target.At] at hat; omega, by simp only [Target.At] at hat; omega, hw⟩)
      | lutCol i => exact .inr (.inr ⟨by simp only [Target.At] at hat; omega, by simp only [Target.At] at hat; omega, hw⟩)

/-! ### Bus addresses -/

/-- An access at a bus address is an access at an offset, or is not seen (20_memory.md R60). -/
theorem busAccess_cases (a : Access) (s : State) :
    busAccess a s = s ∨ ∃ b : Access, busAccess a s = hostAccess b s := by
  cases a with
  | read addr n =>
    cases h : busOffset addr with
    | none => exact .inl (by simp [busAccess, h])
    | some off => exact .inr ⟨.read off n, by simp [busAccess, h, hostAccess]⟩
  | write addr n v =>
    cases h : busOffset addr with
    | none => exact .inl (by simp [busAccess, h])
    | some off => exact .inr ⟨.write off n v, by simp [busAccess, h, hostAccess]⟩

end Sys2Proof.Machine
end

