-- ==== Sys2Proof/Laws/PerInstr.lean ====
section
/-! SUPPORT. The statement about every command as syntax, one lemma per constructor: its word is legal and decodes to it, and
its RSV field is 0 (30_encoding.md R80, R81). -/

namespace Sys2Proof.Laws.Encoding

/-- The word of a command is legal and decodes to the command. -/
def Statement (i : Instr) : Prop :=
  i.wellFormed = true ∧ wordRsv (encode i) = 0 ∧ wordOpcode (encode i) = opcodeOf i ∧ legalWord (encode i) = true ∧
    decodeWord (encode i) = .ok i

theorem nop : Statement .nop := ⟨rfl, rfl, rfl, rfl, rfl⟩
theorem build : Statement .build := ⟨rfl, rfl, rfl, rfl, rfl⟩
theorem encode : Statement .encode := ⟨rfl, rfl, rfl, rfl, rfl⟩
theorem decpos : Statement .decpos := ⟨rfl, rfl, rfl, rfl, rfl⟩
theorem decsec : Statement .decsec := ⟨rfl, rfl, rfl, rfl, rfl⟩
theorem decrot : Statement .decrot := ⟨rfl, rfl, rfl, rfl, rfl⟩

end Sys2Proof.Laws.Encoding
end

