-- ==== Sys2Proof/Machine/HostProgram.lean ====
section
/-! DEFINITION. The host notation of 30_encoding.md R85 and R86: a small host that drives the block. It is the host's own
and no part of the block's state: its statements make bus accesses, and its temporaries and branches stay with it. -/

namespace Sys2Proof.Machine

/-- A host temporary t0 to t7 (30_encoding.md R85). -/
abbrev HostTemp := Fin 8

/-- The value of a write: an immediate or a temporary (30_encoding.md R85). -/
inductive HostValue where
  | imm (v : Word)
  | temp (t : HostTemp)
  deriving DecidableEq, Repr

/-- The statements of the host notation (30_encoding.md R85). A label is a number. -/
inductive HostStmt where
  | wr (off : Nat) (v : HostValue)
  | wrh (off : Nat) (v : HostValue)
  | wrb (off : Nat) (v : HostValue)
  | rd (t : HostTemp) (off : Nat)
  | rdb (t : HostTemp) (off : Nat)
  | andi (t m : HostTemp) (imm : Word)
  | srli (t m : HostTemp) (imm : Nat)
  | bnez (t : HostTemp) (label : Nat)
  | beqi (t : HostTemp) (imm : Word) (label : Nat)
  | bnei (t : HostTemp) (imm : Word) (label : Nat)
  | jump (label : Nat)
  | label (l : Nat)
  | halt
  deriving DecidableEq, Repr

/-- The host between two statements: its temporaries, the index of its next statement, and whether it has halted. -/
structure HostCpu where
  temps : Vector Word 8
  next : Nat
  halted : Bool
  deriving DecidableEq, Repr

/-- The host at the start of a program. -/
def HostCpu.start : HostCpu := { temps := Vector.replicate 8 0, next := 0, halted := false }

/-- The value a write statement sends. -/
def HostCpu.value (h : HostCpu) : HostValue → Word
  | .imm v => v
  | .temp t => h.temps[t]

/-- Write a temporary and go on. -/
def HostCpu.put (h : HostCpu) (t : HostTemp) (v : Word) : HostCpu := { h with temps := h.temps.set t v, next := h.next + 1 }

/-- Go on with the next statement. -/
def HostCpu.goOn (h : HostCpu) : HostCpu := { h with next := h.next + 1 }

/-- The index of the statement that carries a label; past the end where none does. -/
def labelIndex (p : List HostStmt) (l : Nat) : Nat := p.findIdx (fun st => st == .label l)

/-- Branch to a label if a condition holds. -/
def HostCpu.branch (h : HostCpu) (p : List HostStmt) (c : Bool) (l : Nat) : HostCpu :=
  if c then { h with next := labelIndex p l } else h.goOn

/-- The datum a read brings back: a BusError brings none, and the temporary then keeps its value (log 14). -/
def readDatum (s : State) (off n : Nat) (old : Word) : Word :=
  match (hostRead (s.respond .idle) off n).resp with
  | .data _ v => v
  | _ => old

/-- A host read into a temporary. -/
def HostCpu.load (h : HostCpu) (s : State) (t : HostTemp) (off n : Nat) : HostCpu × State :=
  (h.put t (readDatum s off n h.temps[t]), hostRead s off n)

/-- One statement of a host program (30_encoding.md R85). The end of the program halts. -/
def hostStep (p : List HostStmt) (h : HostCpu) (s : State) : HostCpu × State :=
  if h.halted then (h, s)
  else
    match p[h.next]? with
    | none => ({ h with halted := true }, s)
    | some (.wr off v) => (h.goOn, hostWrite s off 4 (h.value v))
    | some (.wrh off v) => (h.goOn, hostWrite s off 2 (h.value v))
    | some (.wrb off v) => (h.goOn, hostWrite s off 1 (h.value v))
    | some (.rd t off) => h.load s t off 4
    | some (.rdb t off) => h.load s t off 1
    | some (.andi t m imm) => (h.put t (h.temps[m] &&& imm), s)
    | some (.srli t m imm) => (h.put t (h.temps[m] >>> imm), s)
    | some (.bnez t l) => (h.branch p (h.temps[t] != 0) l, s)
    | some (.beqi t imm l) => (h.branch p (h.temps[t] == imm) l, s)
    | some (.bnei t imm l) => (h.branch p (h.temps[t] != imm) l, s)
    | some (.jump l) => ({ h with next := labelIndex p l }, s)
    | some (.label _) => (h.goOn, s)
    | some .halt => ({ h with halted := true }, s)

/-! The pseudo-statements (30_encoding.md R86). `l` is the label that one use of `wait` makes. -/

/-- `wait`: poll STATUS.BUSY with t7. -/
def pseudoWait (l : Nat) : List HostStmt := [.label l, .rd 7 0x008, .andi 7 7 1, .bnez 7 l]

/-- `cmd <MNEMONIC>`: write that command word to CMD (30_encoding.md R85). -/
def hostCmd (i : Instr) : HostStmt := .wr 0x00C (.imm (encode i))

/-- A word of two 8-bit fields, `(hi << 8) | lo`. -/
def packPair (hi lo : BitVec 8) : HostValue := .imm (packBytes hi lo)

/-- `clrdone`: clear DONE and OVR. -/
def pseudoClrdone : List HostStmt := [.wr 0x008 (.imm 0x12)]

/-- `build`. -/
def pseudoBuild (l : Nat) : List HostStmt := hostCmd .build :: pseudoWait l

/-- `encode R, C, SX, SY`. -/
def pseudoEncode (l : Nat) (r c : BitVec 8) (sx sy : BitVec 16) : List HostStmt :=
  [.wr 0x028 (packPair c r), .wr 0x02C (.imm (sy ++ sx)), hostCmd .encode] ++ pseudoWait l

/-- `decpos ROW0, COL0, R, C`. -/
def pseudoDecpos (l : Nat) (row0 col0 r c : BitVec 8) : List HostStmt :=
  [.wr 0x024 (packPair col0 row0), .wr 0x028 (packPair c r), hostCmd .decpos] ++ pseudoWait l

/-- `decsec ROW0, COL0, R, C, PC, PR`. -/
def pseudoDecsec (l : Nat) (row0 col0 r c : BitVec 8) (pc pr : BitVec 16) : List HostStmt :=
  [.wr 0x024 (packPair col0 row0), .wr 0x028 (packPair c r), .wr 0x030 (.imm (pr ++ pc)), hostCmd .decsec] ++ pseudoWait l

/-- `decrot ROW0, COL0, R, C`. -/
def pseudoDecrot (l : Nat) (row0 col0 r c : BitVec 8) : List HostStmt :=
  [.wr 0x024 (packPair col0 row0), .wr 0x028 (packPair c r), hostCmd .decrot] ++ pseudoWait l

/-- `setdim R, C`. -/
def pseudoSetdim (r c : BitVec 8) : List HostStmt := [.wr 0x020 (packPair c r)]

end Sys2Proof.Machine
end

