-- ==== Sys2Proof/Tests/Slice0.lean ====
section
/-! SUPPORT. The model's own tests. Expected values come from the spec: words written out from 30_encoding.md, tables and
results from 41_sequence_lut.md and 95_test_vectors.md. Below them, one witness for each statement that has hypotheses. -/

namespace Sys2Proof.Tests

open Sys2Proof Sys2Proof.Machine

-- One theorem at a time: many kernel evaluations side by side need too much memory.
set_option Elab.async false

/-! ### Helpers -/

/-- The state an outcome goes on in. -/
def after : Host.Outcome State Fault Refusal → Option State
  | .next s => some s
  | .fault _ => none
  | .refused _ => none

/-- A sequence from its 63 digits as the spec writes them, s[0] first. -/
def seqOf (digits : Nat) : SeqBits := ofBits 63 ((List.range 63).map fun i => digits.testBit (62 - i))

/-- A lookup table from its 64 entries as the spec's tables write them, 63 standing for an invalid entry. -/
def lutOf (l : List Nat) (h : l.length = 64) : Lut :=
  ⟨(l.map fun n => if n = 63 then { valid := false, index := 0 } else { valid := true, index := BitVec.ofNat 6 n }).toArray,
    by simp [h]⟩

/-- 41_sequence_lut.md R128, rowSeq. -/
def refRow : SeqBits := seqOf 0b100000100001100010100111101000111001001011011101100110101011111

/-- 41_sequence_lut.md R128, colSeq. -/
def refCol : SeqBits := seqOf 0b100000101111110010101000110011110111010110100110110001001000011

/-- 95_test_vectors.md table 1.1a. -/
def refLutR : Lut :=
  lutOf ([63, 1, 2, 7, 3, 13, 8, 27, 4, 33, 14, 36, 9, 49, 28, 19] ++
    [5, 25, 34, 17, 15, 53, 37, 55, 10, 46, 50, 39, 29, 42, 20, 57] ++
    [0, 6, 12, 26, 32, 35, 48, 18, 24, 16, 52, 54, 45, 38, 41, 56] ++
    [62, 11, 31, 47, 23, 51, 44, 40, 61, 30, 22, 43, 60, 21, 59, 58]) rfl

/-- 95_test_vectors.md table 1.1b. -/
def refLutC : Lut :=
  lutOf ([63, 1, 2, 57, 50, 3, 21, 58, 54, 51, 14, 4, 22, 43, 59, 26] ++
    [55, 19, 52, 41, 17, 15, 36, 5, 47, 23, 38, 44, 60, 32, 27, 7] ++
    [0, 56, 49, 20, 53, 13, 42, 25, 18, 40, 16, 35, 46, 37, 31, 6] ++
    [62, 48, 12, 24, 39, 34, 45, 30, 61, 11, 33, 29, 10, 28, 9, 8]) rfl

/-- The reset state with the reference tables built. -/
def refBuilt : State :=
  { State.reset with built := true, rowSeq := refRow, colSeq := refCol, lutR := refLutR, lutC := refLutC }

/-- The operands of the spec's scenario: 9 × 16 at section (10, 2) (95_test_vectors.md section 1.1, step 3). -/
def refOperands : State := { refBuilt with viewDim := ⟨9, 16⟩, argSec := ⟨10, 2⟩ }

/-- The state after the scenario's ENCODE. -/
def refEncoded : State := refOperands.encoded.complete .ok

/-- A state with a view and a position set. -/
def withView (s : State) (row0 col0 rows cols : BitVec 8) (col row : BitVec 16) : State :=
  { s with viewOrg := ⟨row0, col0⟩, viewDim := ⟨rows, cols⟩, argPos := ⟨col, row⟩ }

/-- The 6 × 6 matrix RAM corner with the same byte in every cell, MAT_DIM set to it. -/
def flatCorner (b : Byte) : State :=
  { refBuilt with
    mat := (List.range 36).map fun k => (cellOffset (k / 6) (k % 6), b)
    matDim := ⟨6, 6⟩
    viewDim := ⟨6, 6⟩ }

/-- The capture turned once, of 95_test_vectors.md section 1.1 step 7, as digits row by row. -/
def turnedDigits : List Nat :=
  [1, 1, 1, 2, 1, 1, 0, 0, 0, 2, 0, 0, 0, 2, 0, 1, 0, 2, 0, 0, 0, 2, 0, 0] ++
  [0, 0, 0, 3, 0, 0, 0, 0, 0, 2, 0, 0, 0, 0, 0, 3, 0, 0, 1, 1, 1, 3, 1, 1]

/-- The state with that capture loaded at the RAM origin. -/
def turnedCapture : State :=
  { refBuilt with
    mat := (List.range 48).map fun k => (cellOffset (k / 6) (k % 6), BitVec.ofNat 8 (turnedDigits.getD k 0))
    matDim := ⟨8, 6⟩
    viewDim := ⟨8, 6⟩ }

/-! ### Decoding, encoding, well-formedness -/

theorem test_decode_nop : decodeWord 0b00000000000000000000000000000000 = .ok .nop := by decide
theorem test_decode_build : decodeWord 0b00000000000000000000000000000001 = .ok .build := by decide
theorem test_decode_encode : decodeWord 0b00000000000000000000000000000010 = .ok .encode := by decide
theorem test_decode_decpos : decodeWord 0b00000000000000000000000000000011 = .ok .decpos := by decide
theorem test_decode_decsec : decodeWord 0b00000000000000000000000000000100 = .ok .decsec := by decide
theorem test_decode_decrot : decodeWord 0b00000000000000000000000000000101 = .ok .decrot := by decide

/-- 95_test_vectors.md N7, N8: a reserved bit makes the word illegal, whatever its opcode. -/
theorem test_decode_reserved_field :
    decodeWord 0x00000101 = .error .reservedField ∧ decodeWord 0x80000003 = .error .reservedField := by decide

/-- 95_test_vectors.md N4, N5: the ends of the reserved opcodes. -/
theorem test_decode_reserved_opcode :
    decodeWord 0x00000006 = .error .reservedOpcode ∧ decodeWord 0x000000FF = .error .reservedOpcode := by decide

theorem test_decodeTableWord : decodeTableWord 32 3 = some .decpos ∧ decodeTableWord 32 6 = none := by decide

/-- The checks of WellFormed, each with a word it refuses: RSV, and the opcode. -/
theorem test_wellFormed_smoke :
    rsvClear 0x00000101 = false ∧ opcodeAssigned 0x00000101 = true ∧ legalWord 0x00000101 = false ∧
    rsvClear 0x00000006 = true ∧ opcodeAssigned 0x00000006 = false ∧ legalWord 0x00000006 = false ∧
    legalWord 0x00000005 = true := by decide

/-! ### Commands (95_test_vectors.md) -/

/-- N3: NOP clears a stale error code. -/
theorem test_nop_clears_code :
    (after (step ({ refBuilt with errcode := .checksumMismatch }.withFetchWord 32 0))).map statusWord =
      some 0x00000006 := by decide +kernel

/-- N7: 0x101 is not BUILD. -/
theorem test_illegal_word :
    (after (step (State.reset.withFetchWord 32 0x101))).map (fun t => (statusWord t, t.built)) =
      some (0x0000200A, false) := by decide +kernel

/-- 41_sequence_lut.md R128: the generators of the reset configuration. -/
theorem test_generate_ref : genSeq 0x30 0x20 = refRow ∧ genSeq 0x36 0x20 = refCol := by decide +kernel

/-- 95_test_vectors.md tables 1.1a and 1.1b. -/
theorem test_buildLut_ref : buildLut refRow = (refLutR, false) ∧ buildLut refCol = (refLutC, false) := by decide +kernel

/-- B1: BUILD from reset. -/
theorem test_build_ref :
    after (step (State.reset.withFetchWord 32 1)) = some { refBuilt with done := true } := by decide +kernel

/-- B3: row period 10. -/
theorem test_build_not_maximal :
    (after (exec .build { State.reset with tapsRow := 0x31 })).map statusWord = some 0x0000010A := by decide +kernel

/-- E1: rows 0 and 8 of the scenario's matrix, and MAT_DIM. -/
theorem test_encode_ref :
    (after (step (refOperands.withFetchWord 32 2))).map (fun t =>
      (statusWord t, regRead t .matDim, (t.mat.take 16).map fun c => c.2.toNat,
        (t.mat.drop 128).map fun c => c.2.toNat)) =
      some (0x00000006, 0x00001009, [0, 1, 3, 1, 3, 1, 0, 1, 1, 3, 1, 3, 0, 3, 3, 1],
        [3, 0, 0, 0, 0, 0, 3, 0, 2, 2, 2, 2, 3, 2, 0, 0]) := by decide +kernel

/-- E9: the shape is checked before the section. -/
theorem test_encode_shape_first :
    (after (exec .encode { refBuilt with viewDim := ⟨200, 0⟩, argSec := ⟨300, 0⟩ })).map statusWord =
      some 0x0000240E := by decide +kernel

/-- P1: RES_WIN and RES_POS of the scenario's view. -/
theorem test_decpos_ref :
    (after (step ((withView refEncoded 3 7 6 6 0 0).withFetchWord 32 3))).map (fun t =>
      (statusWord t, regRead t .resWin, regRead t .resPos)) = some (0x00000006, 0x00001F04, 0x00030007) := by
  decide +kernel

/-- 43_decode.md R183, corner case: a view of (1, 1) cells decodes to col 8, row 58. -/
theorem test_decpos_all_ones :
    (after (exec .decpos (flatCorner 3))).map (fun t => (t.errcode, t.resPos.col.toNat, t.resPos.row.toNat)) =
      some (.ok, 8, 58) := by decide +kernel

/-- S1: the scenario's section. -/
theorem test_decsec_ref :
    (after (step ((withView refEncoded 3 7 6 6 7 3).withFetchWord 32 4))).map (fun t =>
      (statusWord t, regRead t .resSec)) = some (0x00000006, 0x0002000A) := by decide +kernel

/-- 43_decode.md R189, example: a wrong position gives CHECKSUM_MISMATCH. -/
theorem test_decsec_wrong_position :
    (after (exec .decsec (withView refEncoded 3 7 6 6 8 3))).map (fun t => t.errcode) = some .checksumMismatch := by
  decide +kernel

/-- Step 6: the scenario's rotation. -/
theorem test_decrot_ref :
    (after (step ((withView refEncoded 3 7 6 8 0 0).withFetchWord 32 5))).map (fun t =>
      (statusWord t, regRead t .resRot)) = some (0x00000006, 0) := by decide +kernel

/-- Step 7, k = 1. -/
theorem test_decrot_turned :
    (after (exec .decrot turnedCapture)).map (fun t => (t.errcode, t.resRot)) = some (.ok, 1) := by decide +kernel

/-- 42_encode.md R155 and 95_test_vectors.md section 2.3: payloads. -/
theorem test_payload :
    payload 10 2 = 0x015111 ∧ payload 128 77 = 0x5016D3 ∧ payload 255 255 = 0xFFFFA5 := by decide +kernel

/-! ### Host accesses (95_test_vectors.md section 2.7) -/

/-- M3, M5, M6: BusError for an unmapped offset, a narrow register access and a misaligned one. -/
theorem test_bus_errors :
    (hostRead State.reset 0x034 4).resp = .busError ∧ (hostRead State.reset 0x008 1).resp = .busError ∧
    (hostRead State.reset 0x4002 4).resp = .busError := by decide

/-- M12: a halfword lands in its two cells, little-endian. -/
theorem test_matrix_halfword :
    (hostWrite State.reset 0x4082 2 0x0201).mat = [(0x4082, 1), (0x4083, 2)] := by decide +kernel

/-- M13: bits [7:2] of a written byte are dropped, and the byte reads back without them. -/
theorem test_matrix_byte :
    (hostRead (hostWrite State.reset 0x4085 1 0xFD) 0x4085 1).resp = .data 1 0x01 := by decide +kernel

/-- M14: MAT_DIM is clamped. -/
theorem test_mat_dim_clamp :
    (hostRead (hostWrite State.reset 0x020 4 0xFFFFFFFF) 0x020 4).resp = .data 4 0x00008080 := by decide +kernel

/-- M19: a STATUS write clears DONE and OVR only. -/
theorem test_status_w1c :
    statusWord (hostWrite { refBuilt with errcode := .checksumMismatch, done := true, ovr := true } 0x008 4 0xFFFFFFFF) =
      0x0000120C := by decide +kernel

/-- B19, B21: the LUT windows. -/
theorem test_lut_window :
    (hostRead refBuilt 0x1280 4).resp = .data 4 0x80000000 ∧ (hostRead refBuilt 0x130C 4).resp = .data 4 0x80000039 := by
  decide +kernel

/-- X1, line 2: a write while an ENCODE is in flight is dropped and sets OVR. -/
theorem test_busy_write_dropped :
    hostWrite { refBuilt with cmd := some 2 } 0x028 4 0x00000C0C =
      { refBuilt with cmd := some 2, ovr := true, resp := .written } := by decide +kernel

/-- 70_reset_and_hazards.md R260: STATUS and `irq` after reset. -/
theorem test_reset_status : statusWord State.reset = 0 ∧ State.reset.irq = false := by decide

/-- 30_encoding.md R85: `rdb t4, 0x4101` of program H2 (95_test_vectors.md section 3.2) reads MAT[2][1]. -/
theorem test_host_rdb :
    (hostStep [.rdb 4 0x4101] .start { refBuilt with mat := [(0x4101, 2)] }).1.temps[4] = 2 := by decide +kernel

/-- 30_encoding.md R86: `encode 9, 16, 10, 2` of program H1 writes VIEW_DIM, ARG_SEC and CMD with the values of the trace. -/
theorem test_host_pseudo_encode :
    (pseudoEncode 0 9 16 10 2).take 3 =
      [.wr 0x028 (.imm 0x00001009), .wr 0x02C (.imm 0x0002000A), .wr 0x00C (.imm 2)] := by decide +kernel

/-! ### Witnesses: a state and operands that meet every hypothesis of each statement, at the ends of its ranges -/

theorem next_of_after {x : Host.Outcome State Fault Refusal} {t : State} (h : after x = some t) : x = .next t := by
  cases x with
  | next u => simpa [after] using h
  | fault r => cases r
  | refused r => simp [after] at h

theorem exists_next {x : Host.Outcome State Fault Refusal} (h : (after x).isSome = true) : ∃ t, x = .next t :=
  ⟨(after x).get h, next_of_after (by simp)⟩

theorem witness_encode_ok : exec .encode refOperands = .next refEncoded := next_of_after (by decide +kernel)

theorem refOperands_inv : refOperands.Inv where
  memory := by decide
  matRows := by decide
  matCols := by decide
  tables := fun _ =>
    { rowSeq := by decide +kernel, colSeq := by decide +kernel, lutR := by decide +kernel, lutC := by decide +kernel }
  resCol := by decide
  resRow := by decide
  resSx := by decide
  resSy := by decide

theorem witness_DecodeInvertsEncode : Instr.build.wellFormed = true := by decide

theorem witness_StepRunsTheDecodedCommand :
    decodeWord 2 = .ok .encode ∧ { refBuilt with cmd := some 2 }.events = [] ∧
    { refBuilt with cmd := some 2, events := [.engine, .reset] }.events = .engine :: [.reset] := by decide

theorem witness_StepTakesTheOldestTransition :
    { State.reset with events := [.host (.read 0 4)] }.events = .host (.read 0 4) :: [] ∧
    { State.reset with events := [.bus (.read 0 4)] }.events = .bus (.read 0 4) :: [] ∧
    { State.reset with events := [.coincide .accessFirst (.read 0 4), .reset] }.events =
      .coincide .accessFirst (.read 0 4) :: [.reset] ∧
    { State.reset with events := [.reset, .engine] }.events = .reset :: [.engine] ∧
    { State.reset with cmd := some 6, events := [.engine] }.events = .engine :: [] ∧
    { State.reset with cmd := some 6 }.events = [] ∧ State.reset.cmd = none := by decide

/-- The ends of both ranges of illegal words, idle and in flight. -/
theorem witness_IllegalWordCompletesWithItsCode :
    (0x00000100 : Word).toNat / 256 ≠ 0 ∧ (0xFFFFFFFF : Word).toNat / 256 ≠ 0 ∧ 6 ≤ (0x00000006 : Word).toNat % 256 ∧
    6 ≤ (0x000000FF : Word).toNat % 256 ∧ State.reset.cmd = none ∧
    { State.reset with cmd := some 0x00000006 }.cmd = some 0x00000006 := by decide

theorem witness_CodesEachCommandReports :
    Code.ok.byte = Code.ok.byte ∧ exec .nop State.reset = .next { State.reset with done := true } ∧
    exec .build refBuilt = .next { refBuilt with errcode := .alreadyBuilt, done := true } ∧
    exec .encode refOperands = .next refEncoded ∧
    exec .decpos State.reset = .next { State.reset with errcode := .notBuilt, done := true } ∧
    exec .decsec State.reset = .next { State.reset with errcode := .notBuilt, done := true } ∧
    exec .decrot State.reset = .next { State.reset with errcode := .notBuilt, done := true } :=
  ⟨rfl, next_of_after (by decide +kernel), next_of_after (by decide +kernel), witness_encode_ok,
    next_of_after (by decide +kernel), next_of_after (by decide +kernel), next_of_after (by decide +kernel)⟩

/-- A command that fails and writes RES_WIN: DECPOS on a view of (0, 0) cells, with RES_WIN not 0 before. -/
theorem witness_FailingCommandsWriteNoResult :
    exec .decpos ((flatCorner 0).withResWin 1 2) =
      .next { flatCorner 0 with errcode := .invalidWindow, done := true } ∧
    { flatCorner 0 with errcode := .invalidWindow, done := true }.errcode ≠ .ok ∧
    { flatCorner 0 with errcode := .invalidWindow, done := true }.resWin ≠ ((flatCorner 0).withResWin 1 2).resWin :=
  ⟨next_of_after (by decide +kernel), by decide, by decide⟩

theorem witness_EachCommandWritesOnlyItsOwnState :
    exec .encode refOperands = .next refEncoded ∧ Instr.encode ≠ .build ∧
    exec .build refBuilt = .next { refBuilt with errcode := .alreadyBuilt, done := true } ∧ Instr.build ≠ .encode :=
  ⟨witness_encode_ok, by decide, next_of_after (by decide +kernel), by decide⟩

/-- Each clause of BUILD: built, the row generator fails, the column generator fails, both are maximal. -/
theorem witness_BuildFollowsItsRule :
    refBuilt.built = true ∧ State.reset.built = false ∧ maxCheck (genSeq 0x31 0x20) = false ∧
    maxCheck (genSeq 0x36 0x00) = false ∧ maxCheck (genSeq State.reset.tapsRow State.reset.seedRow) = true ∧
    maxCheck (genSeq State.reset.tapsCol State.reset.seedCol) = true := by decide +kernel

theorem witness_WindowsAreTheLfsrStates :
    5 < 6 ∧ 57 ≤ 57 ∧ 62 < 63 ∧ maxCheck (genSeq 0x30 0x20) = true := by decide +kernel

theorem witness_MaximalityIsTheFullPeriod :
    0 < 62 ∧ 62 < 63 ∧ 1 ≤ 1 ∧ maxCheck refRow = true ∧ maxCheck (genSeq 0x30 0x20) = true := by decide +kernel

/-- The periods of 41_sequence_lut.md R127's two examples, at both ends of the ranges. -/
theorem witness_SixTapMasksAreMaximal : 1 ≤ 1 ∧ 9 < 10 ∧ 6 < 7 ∧ maxCheck (genSeq 0x21 0x01) = true := by decide +kernel

theorem witness_LookupFindsEveryWindow :
    (maxCheck refCol = true ∧ 0 < 63 ∧ 62 < 63 ∧ maxCheck (genSeq 0x36 0x20) = true) ∧
    exec .build State.reset = .next { refBuilt with done := true } ∧ { refBuilt with done := true }.errcode = .ok :=
  ⟨by decide +kernel, next_of_after (by decide +kernel), by decide⟩

theorem witness_ValidPayloadsAreExactlyTheEncoded :
    5 < 6 ∧ 4 < 5 ∧ 7 < 8 ∧ 2 < 3 ∧ validPayload 0x015111 = true ∧ validPayload 0x015110 = false := by decide +kernel

theorem witness_CrcDetectsShortBursts : 0 ≤ 10 ∧ 10 ≤ 10 ∧ (0x3F : BitVec 6) ≠ 0 := by decide

theorem witness_EmbedIsTheEmbeddingRule :
    0 < 12 ∧ 11 < 12 ∧ 12 ≤ 12 ∧ 23 < 24 ∧ slotA 5 3 = 11 ∧ isAddressPhase 3 = true ∧ slotB 3 5 = 23 := by decide

/-- Each clause of ENCODE: not built, a shape of 129 rows or columns, a section of 256 in x or y, and the largest shape with
the largest section. -/
theorem witness_EncodeFollowsItsRule :
    State.reset.built = false ∧ 0 < 128 ∧ 127 < 128 ∧
    (let s := { refBuilt with viewDim := ⟨129, 0⟩ }; s.built = true ∧ 128 < s.viewDim.rows.toNat) ∧
    (let s := { refBuilt with viewDim := ⟨0, 129⟩ }; s.built = true ∧ 128 < s.viewDim.cols.toNat) ∧
    (let s := { refBuilt with viewDim := ⟨128, 128⟩, argSec := ⟨256, 255⟩ };
      s.built = true ∧ s.viewDim.rows.toNat ≤ 128 ∧ s.viewDim.cols.toNat ≤ 128 ∧ 256 ≤ s.argSec.sx.toNat) ∧
    (let s := { refBuilt with viewDim := ⟨128, 128⟩, argSec := ⟨255, 256⟩ };
      s.built = true ∧ s.viewDim.rows.toNat ≤ 128 ∧ s.viewDim.cols.toNat ≤ 128 ∧ 256 ≤ s.argSec.sy.toNat) ∧
    (let s := { refBuilt with viewDim := ⟨128, 128⟩, argSec := ⟨255, 255⟩ };
      s.built = true ∧ s.viewDim.rows.toNat ≤ 128 ∧ s.viewDim.cols.toNat ≤ 128 ∧ s.argSec.sx.toNat < 256 ∧
        s.argSec.sy.toNat < 256 ∧ 127 < s.viewDim.rows.toNat ∧ cellOffset 127 127 = 0x7FFF) := by decide +kernel

/-- The smallest shape, and two sections that differ in one bit. -/
theorem witness_DistinctSectionsEncodeDifferently :
    (let s₁ := { refBuilt with viewDim := ⟨6, 6⟩ };
      let s₂ := { refBuilt with viewDim := ⟨6, 6⟩, argSec := ⟨0, 128⟩ };
      (exec .encode s₁ = .next (s₁.encoded.complete .ok) ∧ exec .encode s₂ = .next (s₂.encoded.complete .ok)) ∧
      (s₁.encoded.complete .ok).errcode = .ok ∧ (s₂.encoded.complete .ok).errcode = .ok ∧ s₁.rowSeq = s₂.rowSeq ∧
      s₁.colSeq = s₂.colSeq ∧ s₁.viewDim = s₂.viewDim ∧ 6 ≤ s₁.viewDim.rows.toNat ∧ 6 ≤ s₁.viewDim.cols.toNat ∧
      s₁.argSec ≠ s₂.argSec) :=
  ⟨⟨next_of_after (by decide +kernel), next_of_after (by decide +kernel)⟩, by decide +kernel⟩

/-- 42_encode.md R160: the ends of the rows of the table. -/
theorem witness_PhaseCoverageNeedsTheTabledSize :
    coversPhases 6 0 = true ∧ coversPhases 6 57 = true ∧ coversPhases 9 58 = true ∧ coversPhases 9 60 = true ∧
    coversPhases 8 61 = true ∧ coversPhases 7 62 = true ∧ coversPhases 5 0 = false ∧ coversPhases 8 58 = false ∧
    coversPhases 8 60 = false ∧ coversPhases 7 61 = false ∧ coversPhases 6 62 = false ∧ 5 < 6 ∧ 62 < 63 ∧ 11 < 12 ∧
    12 ≤ 12 ∧ 23 < 24 := by decide +kernel

/-- The clauses of the decode commands that come after BAD_VIEW: built, and the view inside MAT_DIM. -/
abbrev Admitted (s : State) : Prop :=
  s.built = true ∧ s.viewOrg.row0.toNat + s.viewDim.rows.toNat ≤ s.matDim.rows.toNat ∧
    s.viewOrg.col0.toNat + s.viewDim.cols.toNat ≤ s.matDim.cols.toNat

/-- The clauses of BAD_VIEW: a view one row too low, and one column too far right. -/
theorem witness_badView :
    State.reset.built = false ∧
    (let s := withView refEncoded 4 10 6 6 0 0;
      s.built = true ∧ s.matDim.rows.toNat < s.viewOrg.row0.toNat + s.viewDim.rows.toNat) ∧
    (let s := withView refEncoded 3 11 6 6 0 0;
      s.built = true ∧ s.matDim.cols.toNat < s.viewOrg.col0.toNat + s.viewDim.cols.toNat) := by decide +kernel

/-- Each clause of DECPOS: (not built, BAD_VIEW: `witness_badView`) five rows, five columns, a lookup that misses, two that
hit, at the lower and right edges of the matrix. -/
theorem witness_DecposFollowsItsRule :
    (let s := withView refEncoded 4 10 5 6 0 0; Admitted s ∧ s.viewDim.rows.toNat < 6) ∧
    (let s := withView refEncoded 3 11 6 5 0 0; Admitted s ∧ s.viewDim.cols.toNat < 6) ∧
    (let s := flatCorner 0;
      Admitted s ∧ 6 ≤ s.viewDim.rows.toNat ∧ 6 ≤ s.viewDim.cols.toNat ∧ lutGet s.lutR (windowA (viewDot s)) = none) ∧
    (let s := withView refEncoded 3 10 6 6 0 0;
      Admitted s ∧ 6 ≤ s.viewDim.rows.toNat ∧ 6 ≤ s.viewDim.cols.toNat ∧
        lutGet s.lutR (windowA (viewDot s)) = some 3 ∧ lutGet s.lutC (windowB (viewDot s)) = some 10) := by decide +kernel

theorem witness_DecposReadsOnlyTheCorner :
    (∃ t, exec .decpos (withView refEncoded 3 7 6 6 0 0) = .next t) ∧
    (∃ u, exec .decpos { withView refEncoded 3 7 6 6 0 0 with
      mat := Memory.set refEncoded.mat 0x4000 3, epoch := 0 } = .next u) ∧
    ∀ i j, i < 6 → j < 6 →
      viewDot { withView refEncoded 3 7 6 6 0 0 with mat := Memory.set refEncoded.mat 0x4000 3, epoch := 0 } i j =
        viewDot (withView refEncoded 3 7 6 6 0 0) i j := by
  refine ⟨exists_next (by decide +kernel), exists_next (by decide +kernel), fun i j hi hj => ?_⟩
  have h : ∀ i ∈ List.range 6, ∀ j ∈ List.range 6,
      viewDot { withView refEncoded 3 7 6 6 0 0 with mat := Memory.set refEncoded.mat 0x4000 3, epoch := 0 } i j =
        viewDot (withView refEncoded 3 7 6 6 0 0) i j := by decide +kernel
  exact h i (List.mem_range.2 hi) j (List.mem_range.2 hj)

/-- Each clause of DECSEC: (not built, BAD_VIEW: `witness_badView`) a position of 63 in column or row, five rows, a 6 × 6
view from row 58, copies that disagree, a payload that is not valid, and a section. -/
theorem witness_DecsecFollowsItsRule :
    (let s := withView refEncoded 3 7 6 6 63 0; Admitted s ∧ 63 ≤ s.argPos.col.toNat) ∧
    (let s := withView refEncoded 3 7 6 6 0 63; Admitted s ∧ 63 ≤ s.argPos.row.toNat) ∧
    (let s := withView refEncoded 3 7 5 6 62 62;
      Admitted s ∧ s.argPos.col.toNat < 63 ∧ s.argPos.row.toNat < 63 ∧
        coversPhases s.viewDim.rows.toNat s.argPos.row.toNat = false) ∧
    (let s := withView refEncoded 3 7 6 6 58 0;
      Admitted s ∧ s.argPos.col.toNat < 63 ∧ s.argPos.row.toNat < 63 ∧
        coversPhases s.viewDim.cols.toNat s.argPos.col.toNat = false) := by decide +kernel

/-- The last clauses of DECSEC. -/
theorem witness_DecsecFollowsItsRule_payload :
    (let s := withView refEncoded 0 0 9 16 1 0;
      Admitted s ∧ s.argPos.col.toNat < 63 ∧ s.argPos.row.toNat < 63 ∧ coversPhases 9 0 = true ∧
        coversPhases 16 1 = true ∧
        copiesConsistent s 9 16 (viewDot s) 1 0 (extractPayload s 9 16 (viewDot s) 1 0) = false) ∧
    (let s := flatCorner 0;
      Admitted s ∧ s.argPos.col.toNat < 63 ∧ s.argPos.row.toNat < 63 ∧ coversPhases 6 0 = true ∧
        copiesConsistent s 6 6 (viewDot s) 0 0 (extractPayload s 6 6 (viewDot s) 0 0) = true ∧
        validPayload (extractPayload s 6 6 (viewDot s) 0 0) = false) ∧
    (let s := withView refEncoded 0 0 9 16 0 0;
      Admitted s ∧ s.argPos.col.toNat < 63 ∧ s.argPos.row.toNat < 63 ∧ coversPhases 9 0 = true ∧
        coversPhases 16 0 = true ∧ extractPayload s 9 16 (viewDot s) 0 0 = 0x015111 ∧
        copiesConsistent s 9 16 (viewDot s) 0 0 0x015111 = true ∧ validPayload 0x015111 = true) := by decide +kernel

theorem witness_SectionFoundIffEveryCopyCarriesIt :
    decodeSection refEncoded 9 16 (viewDot refEncoded) 0 0 = .found 10 2 ∧
    isAddressPhase (phase 15) = true ∧ isAddressPhase (phase 0) = true := by decide +kernel

theorem witness_QuarterTurnsCompose : 0 < 6 ∧ 5 < 6 ∧ 7 < 8 := by decide

/-- Each clause of DECROT: (not built, BAD_VIEW: `witness_badView`) five rows, five columns, exactly candidate 0, and no
candidate. -/
theorem witness_DecrotFollowsItsRule :
    (let s := withView refEncoded 4 10 5 6 0 0; Admitted s ∧ s.viewDim.rows.toNat < 6) ∧
    (let s := withView refEncoded 3 11 6 5 0 0; Admitted s ∧ s.viewDim.cols.toNat < 6) ∧
    (let s := withView refEncoded 3 7 6 8 0 0;
      Admitted s ∧ 6 ≤ s.viewDim.rows.toNat ∧ 6 ≤ s.viewDim.cols.toNat ∧
        candidateValidates s 6 8 (viewDot s) 0 = true ∧ candidateValidates s 6 8 (viewDot s) 1 = false ∧
        candidateValidates s 6 8 (viewDot s) 2 = false ∧ candidateValidates s 6 8 (viewDot s) 3 = false) ∧
    (let s := flatCorner 0;
      Admitted s ∧ 6 ≤ s.viewDim.rows.toNat ∧ 6 ≤ s.viewDim.cols.toNat ∧
        allTurns.filter (candidateValidates s 6 6 (viewDot s)) = []) := by decide +kernel

/-- The view at the lower edge of the matrix, and at its right edge. -/
theorem witness_PositionRoundTrip :
    refOperands.Inv ∧ exec .encode refOperands = .next refEncoded ∧ refEncoded.errcode = .ok ∧
    (3 : BitVec 8).toNat + (6 : BitVec 8).toNat ≤ refEncoded.matDim.rows.toNat ∧
    (10 : BitVec 8).toNat + (6 : BitVec 8).toNat ≤ refEncoded.matDim.cols.toNat ∧ 6 ≤ (6 : BitVec 8).toNat :=
  ⟨refOperands_inv, witness_encode_ok, by decide, by decide, by decide, by decide⟩

theorem witness_SectionRoundTrip :
    exec .encode refOperands = .next refEncoded ∧ refEncoded.errcode = .ok ∧
    (3 : BitVec 8).toNat + (6 : BitVec 8).toNat ≤ refEncoded.matDim.rows.toNat ∧
    (10 : BitVec 8).toNat + (6 : BitVec 8).toNat ≤ refEncoded.matDim.cols.toNat ∧
    (10 : BitVec 16).toNat = (10 : BitVec 8).toNat % 63 ∧ (3 : BitVec 16).toNat = (3 : BitVec 8).toNat % 63 ∧
    coversPhases 6 3 = true ∧ coversPhases 6 10 = true :=
  ⟨witness_encode_ok, by decide, by decide, by decide, by decide, by decide, by decide +kernel, by decide +kernel⟩

theorem witness_UprightViewNeverGetsAWrongRotation :
    refOperands.Inv ∧ exec .encode refOperands = .next refEncoded ∧ refEncoded.errcode = .ok ∧
    (3 : BitVec 8).toNat + (6 : BitVec 8).toNat ≤ refEncoded.matDim.rows.toNat ∧
    (10 : BitVec 8).toNat + (6 : BitVec 8).toNat ≤ refEncoded.matDim.cols.toNat ∧
    coversPhases 6 ((3 : BitVec 8).toNat % 63) = true ∧ coversPhases 6 ((10 : BitVec 8).toNat % 63) = true :=
  ⟨refOperands_inv, witness_encode_ok, by decide, by decide, by decide, by decide +kernel, by decide +kernel⟩

/-- Legal accesses at the ends of every range, and illegal ones beside them. -/
theorem witness_IllegalAccessGetsBusErrorOnly :
    (target 0x030 4).isSome = true ∧ (target 0x034 4).isSome = false ∧ (target 0x03C 4).isSome = false ∧
    (target 0x040 4).isSome = true ∧ (target 0x04C 4).isSome = true ∧ (target 0x050 4).isSome = false ∧
    (target 0x0FFC 4).isSome = false ∧ (target 0x1000 4).isSome = true ∧ (target 0x13FC 4).isSome = true ∧
    (target 0x1400 4).isSome = false ∧ (target 0x3FFC 4).isSome = false ∧ (target 0x4000 4).isSome = true ∧
    (target 0x7FFC 4).isSome = true ∧ (target 0x7FFF 1).isSome = true ∧ (target 0x7FFF 2).isSome = false ∧
    (target 0x4000 0).isSome = false ∧ (target 0x4000 8).isSome = false ∧ 0x7FFF < 0x8000 := by decide

theorem witness_ReadsHaveNoSideEffect :
    0x3FFF < 0x4000 ∧ refBuilt.encodeInFlight = false ∧ { refBuilt with cmd := some 2 }.encodeInFlight = true := by
  decide

theorem witness_OperandRegistersReadBack : State.reset.cmd = none ∧ State.reset.built = false := by decide

theorem witness_ConfigurationIsLockedWhileBuilt :
    refBuilt.cmd = none ∧ refBuilt.built = true ∧ State.reset.cmd = none ∧ State.reset.built = false := by decide

theorem witness_ReadOnlyTargetsIgnoreWrites :
    refBuilt.cmd = none ∧ 0x1000 ≤ 0x1000 ∧ 0x13FC < 0x1400 ∧ 0x13FC % 4 = 0 := by decide

theorem witness_IssueOnlyLatchesTheWord : State.reset.cmd = none := by decide

theorem witness_CtrlWriteStoresIeOrResets :
    (0x00000003 : Word).getLsbD 1 = true ∧ (0x00000001 : Word).getLsbD 1 = false := by decide

theorem witness_BusyWritesAreDroppedAndSetOvr :
    { refBuilt with cmd := some 2 }.busy = true ∧ 0x7FFC < 0x8000 ∧
    (hostWrite { refBuilt with cmd := some 2 } 0x7FFC 4 0).resp ≠ .busError ∧ 0x7FFC ≠ 0x004 ∧ 0x7FFC ≠ 0x008 := by
  decide +kernel

theorem witness_OvrRisesOnlyOnADroppedWrite :
    (refBuilt.ovr = false ∧ writeLost { refBuilt with cmd := some 2 } 0x00C 4 = true ∧
      { refBuilt with ovr := true }.ovr = true ∧ (hostWrite { refBuilt with ovr := true } 0x008 4 0x10).ovr = false ∧
      (hostWrite { refBuilt with ovr := true } 0x004 4 0x02).ovr = false ∧ (0x10 : Word).getLsbD 4 = true) ∧
    engineStep { refBuilt with cmd := some 0, ovr := true } = .next { refBuilt with done := true, ovr := true } :=
  ⟨by decide +kernel, next_of_after (by decide +kernel)⟩

theorem witness_MatrixWriteStoresItsCellsOnly :
    refBuilt.cmd = none ∧ 0x4000 ≤ 0x4000 ∧ 0x7FFC < 0x8000 ∧ 0x7FFC % 4 = 0 ∧ 3 < 4 ∧ 0x7FFB < 0x7FFC ∧
    0x4000 + 4 ≤ 0x4004 := by decide

theorem witness_MatrixReadIsLittleEndian :
    refBuilt.encodeInFlight = false ∧ 0x4000 ≤ 0x4000 ∧ 0x7FFF < 0x8000 ∧ 0x7FFF % 1 = 0 := by decide

theorem witness_MatrixReadDuringEncodeIsFree :
    { refBuilt with cmd := some 2 }.cmd = some (encode .encode) ∧ 0x4000 ≤ 0x7FFE ∧ 0x7FFE < 0x8000 ∧
    0x7FFE % 2 = 0 := by decide

theorem witness_WindowsShowTheBuiltTables :
    0 < 64 ∧ 63 < 64 ∧ State.reset.built = false ∧ refBuilt.built = true ∧ refBuilt.cmd = none ∧
    { refBuilt with cmd := some 2 }.busy = true ∧ 0x1300 ∈ [(0x1000 : Nat), 0x1100, 0x1200, 0x1300] := by decide

theorem witness_BusAddressesReachTheirOffset : 0x7FFF < 0x8000 ∧ Config.base + 0x8000 ≤ Config.base + 0x8000 :=
  ⟨by decide, Nat.le_refl _⟩

theorem witness_IrqFollowsIeAndDone :
    exec .nop { State.reset with ctrlIe := true } = .next { State.reset with ctrlIe := true, done := true } ∧
    (0x00000002 : Word).getLsbD 1 = true := ⟨next_of_after (by decide +kernel), by decide⟩

theorem witness_ResetAbandonsTheCommandInFlight :
    { refBuilt with cmd := some 1 }.busy = true ∧ (0x00000002 : Word).getLsbD 1 = true := by decide

theorem witness_CompletionWinsOverAClearOfDone :
    { refBuilt with cmd := some 0, done := true }.cmd = some 0 ∧ decodeWord 0 = .ok .nop ∧
    (0x00000012 : Word).getLsbD 4 = true := by decide

/-- Between issue and completion: IE is set, a write is dropped, DONE is cleared, a register is read. -/
theorem witness_LatencyDoesNotChangeResults :
    { refBuilt with cmd := some 0 }.busy = true ∧
    (∀ off n v, Access.write off n v ∈
      [Access.write 0x004 4 1, .write 0x028 4 0, .write 0x008 4 2, .read 0x008 4] →
      ¬ (off = 0x004 ∧ n = 4 ∧ v.getLsbD 1 = true)) ∧
    engineStep { refBuilt with cmd := some 0 } = .next { refBuilt with done := true } ∧
    engineStep ([Access.write 0x004 4 1, .write 0x028 4 0, .write 0x008 4 2, .read 0x008 4].foldl
      (fun x a => hostAccess a x) { refBuilt with cmd := some 0 }) =
      .next { refBuilt with done := true, ctrlIe := true, ovr := true, resp := .data 4 0x15 } := by
  refine ⟨by decide, fun off n v h => ?_, next_of_after (by decide +kernel), next_of_after (by decide +kernel)⟩
  simp only [List.mem_cons, List.not_mem_nil, or_false, Access.write.injEq, reduceCtorEq] at h
  rintro ⟨rfl, rfl, hv⟩
  obtain ⟨_, _, rfl⟩ | h | h := h
  · simp at hv
  · exact absurd h.1 (by decide)
  · exact absurd h.1 (by decide)

theorem witness_TablesAreImmutableWhileBuilt :
    refBuilt.built = true ∧ step refBuilt = .next refBuilt ∧
    { refBuilt with events := [.reset] }.built = true ∧
    step { refBuilt with events := [.reset] } = .next { State.reset with epoch := 1 } :=
  ⟨by decide, next_of_after (by decide +kernel), by decide, next_of_after (by decide +kernel)⟩

/-- A state with the tables built and an ENCODE in flight meets the invariant and steps. -/
theorem witness_EveryStepKeepsTheInvariant :
    (refOperands.withFetchWord 32 2).Inv ∧ step (refOperands.withFetchWord 32 2) = .next refEncoded :=
  ⟨{ memory := refOperands_inv.memory, matRows := refOperands_inv.matRows, matCols := refOperands_inv.matCols,
     tables := fun h =>
      { rowSeq := (refOperands_inv.tables h).rowSeq, colSeq := (refOperands_inv.tables h).colSeq,
        lutR := (refOperands_inv.tables h).lutR, lutC := (refOperands_inv.tables h).lutC },
     resCol := refOperands_inv.resCol, resRow := refOperands_inv.resRow, resSx := refOperands_inv.resSx,
     resSy := refOperands_inv.resSy },
    next_of_after (by decide +kernel)⟩

end Sys2Proof.Tests
end

namespace Sys2Proof.Machine


/-! ### What a command writes before it completes -/

/-- What a command has written of the state before its completion (40_command_issue.md R101, R106): nothing, or its own
results, with the checks that went before. -/
inductive CommandWrites (s : State) : State → Prop
  | nothing : CommandWrites s s
  | tables (notBuilt : s.built = false)
      (rowMax : maxCheck (genSeq s.tapsRow s.seedRow) = true) (colMax : maxCheck (genSeq s.tapsCol s.seedCol) = true)
      (rowLut : (buildLut (genSeq s.tapsRow s.seedRow)).2 = false)
      (colLut : (buildLut (genSeq s.tapsCol s.seedCol)).2 = false) :
      CommandWrites s (s.installTables (genSeq s.tapsRow s.seedRow) (genSeq s.tapsCol s.seedCol)
        (buildLut (genSeq s.tapsRow s.seedRow)).1 (buildLut (genSeq s.tapsCol s.seedCol)).1)
  | cells (rows : viewRows s ≤ 128) (cols : viewCols s ≤ 128) : CommandWrites s s.encoded
  | windows (wA wB : Window) : CommandWrites s (s.withResWin wA wB)
  | position (wA wB : Window) {col row : Nat} (hcol : col < 63) (hrow : row < 63) :
      CommandWrites s ((s.withResWin wA wB).withResPos col row)
  | sectionAddr (sx sy : BitVec 8) : CommandWrites s (s.withResSec sx sy)
  | rotation (d : Fin 4) : CommandWrites s (s.withResRot d)

/-- A position that DecodePosition finds lies below L in both coordinates (43_decode.md R182). -/
theorem decodePosition_lt {s : State} {rows cols col row : Nat} {g : Nat → Nat → Dot} {wA wB : Window}
    (h : decodePosition s rows cols g = .position col row wA wB) : col < 63 ∧ row < 63 := by
  obtain ⟨_, h'⟩ | ⟨_, _, _, h'⟩ | ⟨row', col', _, _, _, _, h'⟩ := decodePosition_cases s rows cols g
  · simp [h'] at h
  · simp [h'] at h
  · rw [h', PosResult.position.injEq] at h
    omega

/-- Every command completes, after it has written its results (40_command_issue.md R101). -/
theorem exec_completes (i : Instr) (s : State) :
    ∃ c u, CommandWrites s u ∧ exec i s = .next (u.complete c) := by
  cases i with
  | nop => exact ⟨_, _, .nothing, rfl⟩
  | build =>
    obtain ⟨_, h⟩ | ⟨_, _, h⟩ | ⟨_, _, _, _, h⟩ | ⟨hb, hr, hc, hlr, hlc, h⟩ := execBuild_cases s
    · exact ⟨_, _, .nothing, h⟩
    · exact ⟨_, _, .nothing, h⟩
    · exact ⟨_, _, .nothing, h⟩
    · exact ⟨_, _, .tables hb hr hc hlr hlc, h⟩
  | encode =>
    obtain ⟨_, h⟩ | ⟨_, _, h⟩ | ⟨_, _, _, _, h⟩ | ⟨_, hr, hc, _, _, h⟩ := execEncode_cases s
    · exact ⟨_, _, .nothing, h⟩
    · exact ⟨_, _, .nothing, h⟩
    · exact ⟨_, _, .nothing, h⟩
    · exact ⟨_, _, .cells hr hc, h⟩
  | decpos =>
    obtain ⟨_, _, _, h⟩ | ⟨_, _, h⟩ | ⟨wA, wB, _, _, h⟩ | ⟨_, _, wA, wB, _, hd, h⟩ := execDecpos_cases s
    · exact ⟨_, _, .nothing, h⟩
    · exact ⟨_, _, .nothing, h⟩
    · exact ⟨_, _, .windows wA wB, h⟩
    · obtain ⟨hcol, hrow⟩ := decodePosition_lt hd
      exact ⟨_, _, .position wA wB hcol hrow, h⟩
  | decsec =>
    obtain ⟨_, _, _, h⟩ | ⟨_, _, _, h⟩ | ⟨sx, sy, _, _, h⟩ := execDecsec_cases s
    · exact ⟨_, _, .nothing, h⟩
    · exact ⟨_, _, .nothing, h⟩
    · exact ⟨_, _, .sectionAddr sx sy, h⟩
  | decrot =>
    obtain ⟨_, _, _, h⟩ | ⟨_, _, h⟩ | ⟨_, _, h⟩ | ⟨d, _, _, h⟩ := execDecrot_cases s
    · exact ⟨_, _, .nothing, h⟩
    · exact ⟨_, _, .nothing, h⟩
    · exact ⟨_, _, .nothing, h⟩
    · exact ⟨_, _, .rotation d, h⟩

/-- Everything the engine's step can answer: the same state while no command is in flight, or a completion after the
results (40_command_issue.md R101, R102, R104). -/
theorem engineStep_cases (s : State) :
    (s.cmd = none ∧ engineStep s = .next s) ∨
    (s.busy = true ∧ ∃ c u, CommandWrites s u ∧ engineStep s = .next (u.complete c)) := by
  cases hcmd : s.cmd with
  | none => exact .inl ⟨rfl, engineStep_idle s hcmd⟩
  | some w =>
    refine .inr ⟨by simp [hcmd], ?_⟩
    rw [engineStep_busy s w hcmd]
    obtain ⟨i, _, h⟩ | ⟨_, h⟩ := execWord_cases w s
    · rw [h]
      exact exec_completes i s
    · exact ⟨_, _, .nothing, h⟩

/-- No command writes CTRL.IE (10_state.md R23). -/
theorem CommandWrites.ctrlIe_eq {s u : State} (h : CommandWrites s u) : u.ctrlIe = s.ctrlIe := by
  cases h <;> rfl

/-- No command writes OVR (10_state.md R31). -/
theorem CommandWrites.ovr_eq {s u : State} (h : CommandWrites s u) : u.ovr = s.ovr := by
  cases h <;> rfl

/-- Everything one transition can do, in terms of host accesses, the engine's step and reset (40_command_issue.md R102,
60_exceptions.md R235). -/
inductive Transition (s : State) : State → Prop
  | unseen : Transition s s
  | access (a : Access) : Transition s (hostAccess a s)
  | engine {t : State} (h : engineStep s = .next t) : Transition s t
  | accessThenEngine (a : Access) {t : State} (h : engineStep (hostAccess a s) = .next t) : Transition s t
  | engineThenAccess (a : Access) {t : State} (h : engineStep s = .next t) : Transition s (hostAccess a t)
  | reset : Transition s s.afterReset

theorem coincide_transition {order : CycleOrder} {a : Access} {s t : State} (h : coincide order a s = .next t) :
    Transition s t := by
  obtain ⟨_, h'⟩ | ⟨_, h'⟩ | ⟨_, _, _, h'⟩ := coincide_cases order a s <;> rw [h'] at h
  · cases h
    exact .access a
  · exact .accessThenEngine a h
  · cases he : engineStep s with
    | next u =>
      simp only [engineThen, he, Host.Outcome.next.injEq] at h
      exact h ▸ .engineThenAccess a he
    | fault r => simp [engineThen, he] at h
    | refused r => simp [engineThen, he] at h

theorem runEvent_transition {e : Event} {s t : State} (h : runEvent e s = .next t) : Transition s t := by
  cases e with
  | host a => cases h; exact .access a
  | bus a =>
    cases h
    obtain h' | ⟨b, h'⟩ := busAccess_cases a s
    · rw [h']; exact .unseen
    · rw [h']; exact .access b
  | engine => exact .engine h
  | coincide order a => exact coincide_transition h
  | reset => cases h; exact .reset

/-- A step is a transition in the state without the event it takes (40_command_issue.md R102). -/
theorem step_transition {s t : State} (h : step s = .next t) : ∃ es, Transition { s with events := es } t := by
  obtain ⟨_, h'⟩ | ⟨e, rest, _, h'⟩ := step_cases s <;> rw [h'] at h
  · exact ⟨s.events, .engine h⟩
  · exact ⟨rest, runEvent_transition h⟩

/-! ### The invariant -/

/-- The invariant field by field, so that an update of a field it does not speak of drops out by `simp`. -/
theorem State.inv_iff (s : State) :
    s.Inv ↔ Memory.wf s.mat = true ∧ (s.matDim.rows.toNat ≤ 128 ∧ s.matDim.cols.toNat ≤ 128) ∧
      (s.built = true → generate s.tapsRow s.seedRow = (s.rowSeq, true) ∧
        generate s.tapsCol s.seedCol = (s.colSeq, true) ∧ buildLut s.rowSeq = (s.lutR, false) ∧
        buildLut s.colSeq = (s.lutC, false)) ∧
      (s.resPos.col.toNat < 63 ∧ s.resPos.row.toNat < 63) ∧ s.resSec.sx.toNat < 256 ∧ s.resSec.sy.toNat < 256 := by
  constructor
  · rintro ⟨hm, hr, hc, ht, hpc, hpr, hsx, hsy⟩
    exact ⟨hm, ⟨hr, hc⟩, fun hb => ⟨(ht hb).rowSeq, (ht hb).colSeq, (ht hb).lutR, (ht hb).lutC⟩, ⟨hpc, hpr⟩, hsx, hsy⟩
  · rintro ⟨hm, ⟨hr, hc⟩, ht, ⟨hpc, hpr⟩, hsx, hsy⟩
    refine ⟨hm, hr, hc, fun hb => ?_, hpc, hpr, hsx, hsy⟩
    obtain ⟨h1, h2, h3, h4⟩ := ht hb
    exact ⟨h1, h2, h3, h4⟩

theorem State.respond_inv (s : State) (r : Response) : (s.respond r).Inv ↔ s.Inv := by simp [State.inv_iff]
theorem State.complete_inv (s : State) (c : Code) : (s.complete c).Inv ↔ s.Inv := by simp [State.inv_iff]
theorem State.dropWrite_inv (s : State) : s.dropWrite.Inv ↔ s.Inv := by simp [State.inv_iff]
theorem State.clearStatus_inv (s : State) (v : Word) : (s.clearStatus v).Inv ↔ s.Inv := by simp [State.inv_iff]

/-- Reset establishes the invariant from every state (70_reset_and_hazards.md R260). -/
theorem State.afterReset_inv (s : State) : s.afterReset.Inv := by simp [State.inv_iff]

theorem clampDim_le (v : BitVec 8) : (clampDim v).toNat ≤ 128 := by
  unfold clampDim
  split
  · assumption
  · decide

/-- A locked write keeps the invariant, whatever it stores while not built. -/
theorem lockedWrite_inv {s t : State} (hs : s.Inv) (ht : s.built = false → t.Inv) : (lockedWrite s t).Inv := by
  cases hb : s.built
  · simpa [lockedWrite, hb] using ht hb
  · simpa [lockedWrite, hb] using hs

theorem ctrlWrite_inv {s : State} (v : Word) (h : s.Inv) : (ctrlWrite s v).Inv := by
  cases hv : v.getLsbD 1
  · rw [ctrlWrite_ie s hv]
    simpa [State.inv_iff] using h
  · rw [ctrlWrite_reset s hv]
    exact s.afterReset_inv

/-- A register write keeps the invariant: MAT_DIM is clamped (10_state.md R36), and TAPS and SEED are locked while the
tables are built from them (R35). -/
theorem regWrite_inv {s : State} (r : Reg) (v : Word) (h : s.Inv) : (regWrite s r v).Inv := by
  cases r with
  | ctrl => exact ctrlWrite_inv v h
  | matDim =>
    have hrows := clampDim_le (v.extractLsb' 0 8)
    have hcols := clampDim_le (v.extractLsb' 8 8)
    rw [State.inv_iff] at h ⊢
    obtain ⟨hm, _, hrest⟩ := h
    exact ⟨hm, ⟨hrows, hcols⟩, hrest⟩
  | tapsRow | seedRow | tapsCol | seedCol =>
    refine lockedWrite_inv h fun hb => ?_
    simpa [State.inv_iff, hb] using h
  | _ => simpa [regWrite, State.inv_iff] using h

theorem hostWrite_inv {s : State} (off n : Nat) (v : Word) (h : s.Inv) : (hostWrite s off n v).Inv := by
  cases hcmd : s.cmd with
  | none =>
    obtain ⟨_, h'⟩ | ⟨_, _, h'⟩ | ⟨r, _, _, h'⟩ | ⟨hlo, hhi, h'⟩ | ⟨_, _, h'⟩ :=
      hostWrite_idle_cases s off n v hcmd <;> rw [h']
    · exact h
    · exact (s.respond_inv _).mpr h
    · exact (State.respond_inv _ _).mpr (regWrite_inv r v h)
    · rw [State.inv_iff] at h ⊢
      obtain ⟨hm, hrest⟩ := h
      exact ⟨Memory.wf_matWrite v hlo hhi hm, hrest⟩
    · exact (s.respond_inv _).mpr h
  | some w =>
    obtain ⟨_, h'⟩ | ⟨_, _, h'⟩ | ⟨_, _, _, h'⟩ | ⟨_, _, _, h'⟩ | ⟨_, _, h'⟩ | ⟨_, _, _, h'⟩ :=
      hostWrite_busy_cases s off n v (by simp [hcmd]) <;> rw [h']
    · exact h
    · exact (s.respond_inv _).mpr h
    · exact (State.respond_inv _ _).mpr s.afterReset_inv
    · simpa [State.inv_iff] using h
    · exact (State.respond_inv _ _).mpr ((s.clearStatus_inv v).mpr h)
    · exact (State.respond_inv _ _).mpr (s.dropWrite_inv.mpr h)

theorem hostAccess_inv {s : State} (a : Access) (h : s.Inv) : (hostAccess a s).Inv := by
  cases a with
  | read off n =>
    rw [hostAccess, hostRead_frame]
    simpa [State.inv_iff] using h
  | write off n v => exact hostWrite_inv off n v h

/-- What a command writes keeps the invariant: BUILD installs the tables of the present configuration, ENCODE writes
cells of the RAM and a shape inside it, and each result is in its range. -/
theorem CommandWrites.inv {s u : State} (hw : CommandWrites s u) (h : s.Inv) : u.Inv := by
  cases hw with
  | nothing => exact h
  | tables hb hr hc hlr hlc =>
    rw [State.inv_iff] at h ⊢
    obtain ⟨hm, hd, _, hres⟩ := h
    exact ⟨hm, hd, fun _ => ⟨Prod.ext rfl hr, Prod.ext rfl hc, Prod.ext rfl hlr, Prod.ext rfl hlc⟩, hres⟩
  | cells hr hc =>
    rw [State.inv_iff] at h ⊢
    obtain ⟨hm, _, ht, hres⟩ := h
    exact ⟨wf_encoded hr hc hm, ⟨hr, hc⟩, ht, hres⟩
  | windows wA wB => simpa [State.inv_iff] using h
  | @position wA wB col row hcol hrow =>
    rw [State.inv_iff] at h ⊢
    obtain ⟨hm, hd, ht, _, hres⟩ := h
    refine ⟨hm, hd, ht, ⟨?_, ?_⟩, hres⟩
    · simp; omega
    · simp; omega
  | sectionAddr sx sy =>
    rw [State.inv_iff] at h ⊢
    obtain ⟨hm, hd, ht, hpos, _⟩ := h
    have := sx.isLt
    have := sy.isLt
    refine ⟨hm, hd, ht, hpos, ?_, ?_⟩
    · simp; omega
    · simp; omega
  | rotation d => simpa [State.inv_iff] using h

theorem engineStep_inv {s t : State} (h : s.Inv) (he : engineStep s = .next t) : t.Inv := by
  obtain ⟨_, h'⟩ | ⟨_, c, u, hw, h'⟩ := engineStep_cases s <;> rw [h'] at he <;> cases he
  · exact h
  · exact (u.complete_inv c).mpr (hw.inv h)

/-- Every transition keeps the invariant. -/
theorem Transition.inv {s t : State} (ht : Transition s t) (h : s.Inv) : t.Inv := by
  cases ht with
  | unseen => exact h
  | access a => exact hostAccess_inv a h
  | engine he => exact engineStep_inv h he
  | accessThenEngine a he => exact engineStep_inv (hostAccess_inv a h) he
  | engineThenAccess a he => exact hostAccess_inv a (engineStep_inv h he)
  | reset => exact s.afterReset_inv

/-- Settles O59: a step is a transition, and every transition keeps the invariant. -/
theorem everyStepKeepsTheInvariant : Obligations.EveryStepKeepsTheInvariant := by
  unfold Obligations.EveryStepKeepsTheInvariant
  intro s t h hstep
  obtain ⟨es, ht⟩ := step_transition hstep
  exact ht.inv (by simpa [State.inv_iff] using h)


/-! ### The tables while BUILT = 1 -/

/-- What BUILT = 1 locks (10_state.md R29, R35): BUILT itself, both sequences and tables, TAPS and SEED, and the model's
epoch, which only a reset moves. -/
def State.locked (s : State) :=
  (s.built, s.rowSeq, s.colSeq, s.lutR, s.lutC, s.tapsRow, s.seedRow, s.tapsCol, s.seedCol, s.epoch)

theorem State.built_of_locked_eq {s t : State} (h : t.locked = s.locked) (hb : s.built = true) : t.built = true :=
  (congrArg Prod.fst h).trans hb

/-- While BUILT = 1 a command writes nothing that is locked: BUILD alone would, and it refuses (41_sequence_lut.md
R126). -/
theorem CommandWrites.locked_eq {s u : State} (hw : CommandWrites s u) (hb : s.built = true) : u.locked = s.locked := by
  cases hw with
  | tables notBuilt => rw [hb] at notBuilt; contradiction
  | _ => rfl

/-- While BUILT = 1 the engine's step keeps what is locked (10_state.md R29). -/
theorem engineStep_locked {s t : State} (hb : s.built = true) (h : engineStep s = .next t) : t.locked = s.locked := by
  obtain ⟨_, h'⟩ | ⟨_, c, u, hw, h'⟩ := engineStep_cases s <;> rw [h'] at h <;> cases h
  · rfl
  · exact hw.locked_eq hb

theorem lockedWrite_built {s : State} (t : State) (hb : s.built = true) : lockedWrite s t = s := if_pos hb
theorem lockedWrite_notBuilt {s : State} (t : State) (hb : s.built = false) : lockedWrite s t = t := by
  simp [lockedWrite, hb]

/-- While BUILT = 1 a register write keeps what is locked, or is the soft reset (10_state.md R35). -/
theorem regWrite_locked {s : State} (r : Reg) (v : Word) (hb : s.built = true) :
    (regWrite s r v).locked = s.locked ∨ regWrite s r v = s.afterReset := by
  cases r with
  | ctrl =>
    cases hv : v.getLsbD 1
    · exact .inl (by rw [regWrite, ctrlWrite_ie s hv]; rfl)
    · exact .inr (ctrlWrite_reset s hv)
  | tapsRow | seedRow | tapsCol | seedCol => exact .inl (by rw [regWrite, lockedWrite_built _ hb])
  | _ => exact .inl rfl

/-- While BUILT = 1 a host access keeps what is locked, or is a soft reset (10_state.md R35). -/
theorem hostAccess_locked {s : State} (a : Access) (hb : s.built = true) :
    (hostAccess a s).locked = s.locked ∨ hostAccess a s = s.afterReset.respond .written := by
  cases a with
  | read off n => exact .inl (by rw [hostAccess, hostRead_frame]; rfl)
  | write off n v =>
    rw [hostAccess]
    cases hcmd : s.cmd with
    | none =>
      obtain ⟨_, h⟩ | ⟨_, _, h⟩ | ⟨r, _, _, h⟩ | ⟨_, _, h⟩ | ⟨_, _, h⟩ :=
        hostWrite_idle_cases s off n v hcmd <;> rw [h]
      · exact .inl rfl
      · exact .inl rfl
      · obtain hr | hr := regWrite_locked r v hb
        · exact .inl hr
        · exact .inr (by rw [hr])
      · exact .inl rfl
      · exact .inl rfl
    | some w =>
      obtain ⟨_, h⟩ | ⟨_, _, h⟩ | ⟨_, _, _, h⟩ | ⟨_, _, _, h⟩ | ⟨_, _, h⟩ | ⟨_, _, _, h⟩ :=
        hostWrite_busy_cases s off n v (by simp [hcmd]) <;> rw [h]
      · exact .inl rfl
      · exact .inl rfl
      · exact .inr rfl
      · exact .inl rfl
      · exact .inl rfl
      · exact .inl rfl

/-- While BUILT = 1 a transition keeps what is locked, or it resets the block (10_state.md R29). -/
theorem Transition.locked_or_reset {s t : State} (ht : Transition s t) (hb : s.built = true) :
    t.locked = s.locked ∨ (t.built = false ∧ t.epoch = s.epoch + 1) := by
  cases ht with
  | unseen => exact .inl rfl
  | access a =>
    obtain h | h := hostAccess_locked a hb
    · exact .inl h
    · exact .inr (by simp [h])
  | engine he => exact .inl (engineStep_locked hb he)
  | accessThenEngine a he =>
    obtain h | h := hostAccess_locked a hb
    · exact .inl ((engineStep_locked (State.built_of_locked_eq h hb) he).trans h)
    · rw [h, engineStep_idle _ rfl] at he
      cases he
      exact .inr (by simp)
  | @engineThenAccess a u he =>
    have hu := engineStep_locked hb he
    obtain h | h := hostAccess_locked a (State.built_of_locked_eq hu hb)
    · exact .inl (h.trans hu)
    · have hepoch : u.epoch = s.epoch := by simp only [State.locked, Prod.mk.injEq] at hu; tauto
      exact .inr (by simp [h, hepoch])
  | reset => exact .inr (by simp)

/-- Settles O57: a step is a transition, and a transition keeps what BUILT locks or resets the block. -/
theorem tablesAreImmutableWhileBuilt : Obligations.TablesAreImmutableWhileBuilt := by
  unfold Obligations.TablesAreImmutableWhileBuilt
  intro s t hb hstep
  obtain ⟨es, ht⟩ := step_transition hstep
  exact (ht.locked_or_reset hb).imp (fun h => by simpa [State.locked, hb] using h) id

/-! ### The engine does not see host accesses -/

/-- The fields that host accesses other than a soft reset can change while a command is in flight (40_command_issue.md
R105). -/
structure HostSide where
  ctrlIe : Bool
  done : Bool
  ovr : Bool
  resp : Response
  tick : Nat

/-- The state with other values in the fields of the host's side. -/
def State.withHostSide (s : State) (h : HostSide) : State :=
  { s with ctrlIe := h.ctrlIe, done := h.done, ovr := h.ovr, resp := h.resp, tick := h.tick }


/-- A completion sets DONE and keeps the rest of the host's side (60_exceptions.md R230). -/
def HostSide.completed (h : HostSide) : HostSide := { h with done := true }

/-- An outcome whose next state is changed. -/
def mapNext (f : State → State) : Host.Outcome State Fault Refusal → Host.Outcome State Fault Refusal
  | .next s => .next (f s)
  | .fault r => .fault r
  | .refused r => .refused r

/-- The meaning of a command gives the same results whatever the host's side holds. -/
def IgnoresHostSide (f : State → Host.Outcome State Fault Refusal) : Prop :=
  ∀ s h, f (s.withHostSide h) = mapNext (·.withHostSide h.completed) (f s)

theorem finish_ignoresHostSide (c : Code) : IgnoresHostSide (finish c) := fun _ _ => rfl

theorem execBuild_ignoresHostSide : IgnoresHostSide execBuild := by
  intro s h
  have hr : generate (s.withHostSide h).tapsRow (s.withHostSide h).seedRow = generate s.tapsRow s.seedRow := rfl
  have hc : generate (s.withHostSide h).tapsCol (s.withHostSide h).seedCol = generate s.tapsCol s.seedCol := rfl
  unfold execBuild
  by_cases hb : s.built = true
  · rw [if_pos hb, if_pos (show (s.withHostSide h).built = true from hb)]
    rfl
  · rw [if_neg hb, if_neg (show ¬ (s.withHostSide h).built = true from hb), hr, hc]
    rcases generate s.tapsRow s.seedRow with ⟨sr, _ | _⟩
    · rfl
    · rcases generate s.tapsCol s.seedCol with ⟨sc, _ | _⟩
      · rfl
      · dsimp only
        rcases buildLut sr with ⟨tr, _ | _⟩
        · dsimp only
          rcases buildLut sc with ⟨tc, _ | _⟩ <;> rfl
        · rfl

theorem execEncode_ignoresHostSide : IgnoresHostSide execEncode := by
  intro s h
  unfold execEncode
  simp only [apply_ite (mapNext _)]
  rfl

/-- The checks of a decode command do not see the host's side, so the command does not where neither its decode function
nor its last stage does. -/
theorem decodeCommand_ignoresHostSide {R : Type} {f : State → Host.Outcome State Fault Refusal} {decode : State → R}
    {last : State → R → Host.Outcome State Fault Refusal}
    (hsome : ∀ s c, decodeGuard s = some c → f s = finish c s)
    (hnone : ∀ s, decodeGuard s = none → f s = last s (decode s))
    (hd : ∀ s h, decode (s.withHostSide h) = decode s) (hl : ∀ r, IgnoresHostSide (last · r)) : IgnoresHostSide f := by
  intro s h
  cases hg : decodeGuard s with
  | none => rw [hnone s hg, hnone (s.withHostSide h) hg, hd, ← hl]
  | some c => rw [hsome s c hg, hsome (s.withHostSide h) c hg, ← finish_ignoresHostSide]

theorem execDecpos_ignoresHostSide : IgnoresHostSide execDecpos :=
  decodeCommand_ignoresHostSide (last := finishPosition) (fun s _ hg => by simp [execDecpos, hg])
    (fun s hg => by rw [execDecpos, hg]) (fun _ _ => rfl) fun r _ _ => by cases r <;> rfl

theorem execDecsec_ignoresHostSide : IgnoresHostSide execDecsec :=
  decodeCommand_ignoresHostSide (last := finishSection) (fun s _ hg => by simp [execDecsec, hg])
    (fun s hg => by rw [execDecsec, hg]) (fun _ _ => rfl) fun r _ _ => by cases r <;> rfl

theorem execDecrot_ignoresHostSide : IgnoresHostSide execDecrot :=
  decodeCommand_ignoresHostSide (last := finishRotation) (fun s _ hg => by simp [execDecrot, hg])
    (fun s hg => by rw [execDecrot, hg]) (fun _ _ => rfl) fun r _ _ => by cases r <;> rfl

/-- No command reads the host's side (10_state.md R48). -/
theorem exec_ignoresHostSide (i : Instr) : IgnoresHostSide (exec i) := by
  cases i with
  | nop => exact finish_ignoresHostSide .ok
  | build => exact execBuild_ignoresHostSide
  | encode => exact execEncode_ignoresHostSide
  | decpos => exact execDecpos_ignoresHostSide
  | decsec => exact execDecsec_ignoresHostSide
  | decrot => exact execDecrot_ignoresHostSide

/-- The completion of the word in flight does not see the host's side. -/
theorem engineStep_withHostSide {s : State} (h : HostSide) (hb : s.busy = true) :
    engineStep (s.withHostSide h) = mapNext (·.withHostSide h.completed) (engineStep s) := by
  obtain ⟨w, hw⟩ := s.busy_eq_true.mp hb
  rw [engineStep_busy s w hw, engineStep_busy (s.withHostSide h) w hw]
  obtain ⟨i, hi, _⟩ | ⟨⟨e, he⟩, _⟩ := execWord_cases w s
  · rw [execWord_ok _ hi, execWord_ok _ hi]
    exact exec_ignoresHostSide i s h
  · rw [execWord_error _ he, execWord_error _ he]
    rfl

/-- A host access that is no soft reset changes only the host's side while a command is in flight (40_command_issue.md
R105). -/
theorem hostAccess_busy {s : State} (a : Access) (hb : s.busy = true)
    (hn : ∀ off n v, a = .write off n v → ¬ (off = 0x004 ∧ n = 4 ∧ v.getLsbD 1 = true)) :
    ∃ h, hostAccess a s = s.withHostSide h := by
  cases a with
  | read off n =>
    exact ⟨⟨s.ctrlIe, s.done, s.ovr, (hostRead s off n).resp, (hostRead s off n).tick⟩, hostRead_frame s off n⟩
  | write off n v =>
    obtain ⟨_, h⟩ | ⟨_, _, h⟩ | ⟨h1, h2, h3, _⟩ | ⟨_, _, _, h⟩ | ⟨_, _, h⟩ | ⟨_, _, _, h⟩ :=
      hostWrite_busy_cases s off n v hb
    · exact ⟨⟨s.ctrlIe, s.done, s.ovr, s.resp, s.tick⟩, h⟩
    · exact ⟨⟨s.ctrlIe, s.done, s.ovr, .busError, s.tick⟩, h⟩
    · exact absurd ⟨h1, h2, h3⟩ (hn off n v rfl)
    · exact ⟨⟨v.getLsbD 0, s.done, s.ovr, .written, s.tick⟩, h⟩
    · exact ⟨⟨s.ctrlIe, s.done && !v.getLsbD 1, s.ovr && !v.getLsbD 4, .written, s.tick⟩, h⟩
    · exact ⟨⟨s.ctrlIe, s.done, true, .written, s.tick⟩, h⟩

/-- Any list of host accesses without a soft reset changes only the host's side while a command is in flight. -/
theorem foldl_hostAccess_busy {s : State} (between : List Access) (hb : s.busy = true)
    (hn : ∀ off n v, Access.write off n v ∈ between → ¬ (off = 0x004 ∧ n = 4 ∧ v.getLsbD 1 = true)) :
    ∃ h, between.foldl (fun x a => hostAccess a x) s = s.withHostSide h := by
  induction between generalizing s with
  | nil => exact ⟨⟨s.ctrlIe, s.done, s.ovr, s.resp, s.tick⟩, rfl⟩
  | cons a rest ih =>
    obtain ⟨h, ha⟩ := hostAccess_busy a hb fun off n v e => hn off n v (by simp [e])
    obtain ⟨h', hrest⟩ := ih (s := s.withHostSide h) hb fun off n v hm => hn off n v (by simp [hm])
    exact ⟨h', by rw [List.foldl_cons, ha, hrest]; rfl⟩

/-- Settles O56: the accesses change only the host's side, which the completion does not see. -/
theorem latencyDoesNotChangeResults : Obligations.LatencyDoesNotChangeResults := by
  unfold Obligations.LatencyDoesNotChangeResults
  intro s between t u hb hn ht hu
  obtain ⟨h, hs⟩ := foldl_hostAccess_busy between hb hn
  rw [hs, engineStep_withHostSide h hb, ht, mapNext, Host.Outcome.next.injEq] at hu
  obtain ⟨hc, _⟩ | ⟨_, c, v, _, hc⟩ := engineStep_cases s
  · simp [State.busy, hc] at hb
  · rw [ht, Host.Outcome.next.injEq] at hc
    subst hc hu
    rfl

/-- Settles O55: in either order the STATUS write comes first and changes only the host's side, and the completion sets
DONE. -/
theorem completionWinsOverAClearOfDone : Obligations.CompletionWinsOverAClearOfDone := by
  unfold Obligations.CompletionWinsOverAClearOfDone
  intro s order v w i hcmd hw
  have hb : s.busy = true := by simp [hcmd]
  obtain ⟨c, u, hwr, hu⟩ := exec_completes i s
  have he : engineStep s = .next (u.complete c) := by rw [engineStep_busy s w hcmd, execWord_ok s hw, hu]
  have ho : coincide order (.write 0x008 4 v) s = engineStep (hostWrite s 0x008 4 v) := by
    cases order <;> simp [coincide, hb, Access.isStatusWrite, hostAccess]
  obtain ⟨h, hs, hovr⟩ :
      ∃ h : HostSide, hostWrite s 0x008 4 v = s.withHostSide h ∧ h.ovr = (s.ovr && !v.getLsbD 4) :=
    ⟨⟨s.ctrlIe, s.done && !v.getLsbD 1, s.ovr && !v.getLsbD 4, .written, s.tick⟩, hostWrite_status s v, rfl⟩
  refine ⟨(u.complete c).withHostSide h.completed, u.complete c, ?_, hu, rfl, rfl, rfl, fun hv => ?_⟩
  · rw [ho, hs, engineStep_withHostSide h hb, he, mapNext]
  · exact hovr.trans (by simp [hv])


/-! ### The operand registers -/

theorem toNat_append_eq_add {m n : Nat} (x : BitVec m) (y : BitVec n) : (x ++ y).toNat = 2 ^ n * x.toNat + y.toNat := by
  rw [BitVec.toNat_append, Nat.shiftLeft_eq, Nat.mul_comm, Nat.two_pow_add_eq_or_of_lt y.isLt]

/-- Two bytes as a register, as a number (10_state.md R36 to R38). -/
theorem packBytes_eq_ofNat (hi lo : BitVec 8) : packBytes hi lo = BitVec.ofNat 32 (256 * hi.toNat + lo.toNat) := by
  have := hi.isLt
  have := lo.isLt
  apply BitVec.eq_of_toNat_eq
  rw [packBytes, toNat_append_eq_add, toNat_append_eq_add, BitVec.toNat_ofNat]
  simp
  omega

/-- Two halves as a register, as a number (10_state.md R39, R40). -/
theorem append_halves_eq_ofNat (hi lo : BitVec 16) : hi ++ lo = BitVec.ofNat 32 (65536 * hi.toNat + lo.toNat) := by
  have := hi.isLt
  have := lo.isLt
  apply BitVec.eq_of_toNat_eq
  rw [toNat_append_eq_add, BitVec.toNat_ofNat]
  omega

/-- The clamp of MAT_DIM as a number (10_state.md R36). -/
theorem clampDim_toNat (v : BitVec 8) : (clampDim v).toNat = min v.toNat 128 := by
  unfold clampDim
  split
  · next h => exact (Nat.min_eq_left h).symm
  · next h => exact (Nat.min_eq_right (Nat.le_of_not_le h)).symm

theorem toNat_byte0 (v : Word) : (v.extractLsb' 0 8).toNat = v.toNat % 256 := by
  simp [BitVec.extractLsb'_toNat]

theorem toNat_byte1 (v : Word) : (v.extractLsb' 8 8).toNat = v.toNat / 256 % 256 := by
  simp [BitVec.extractLsb'_toNat, Nat.shiftRight_eq_div_pow]

/-- The two low bytes of a word, packed again, are its bits [15:0]. -/
theorem packBytes_extract (v : Word) :
    packBytes (v.extractLsb' 8 8) (v.extractLsb' 0 8) = BitVec.ofNat 32 (v.toNat % 65536) := by
  rw [packBytes_eq_ofNat, toNat_byte0, toNat_byte1]
  congr 1
  omega

/-- The two halves of a word, joined again, are the word. -/
theorem append_halves_extract (v : Word) : v.extractLsb' 16 16 ++ v.extractLsb' 0 16 = v := by
  rw [BitVec.extractLsb'_append_extractLsb'_eq_extractLsb' (start₁ := 0) (len₁ := 16) rfl]
  exact BitVec.extractLsb'_eq_self

theorem setWidth_low6 (v : Word) : (v.extractLsb' 0 6).setWidth 32 = BitVec.ofNat 32 (v.toNat % 64) := by
  rw [← BitVec.ofNat_toNat]
  simp [BitVec.extractLsb'_toNat]

/-- The bus response is no part of what a register reads as. -/
theorem regRead_respond (s : State) (x : Response) (r : Reg) : regRead (s.respond x) r = regRead s r := by
  cases r <;> rfl

/-- Every register has a word-aligned offset below 0x100 (10_state.md section 2). -/
theorem regAt_aligned {off : Nat} {r : Reg} (hr : regAt off = some r) : off < 0x100 ∧ off % 4 = 0 := by
  unfold regAt at hr
  split at hr <;> simp_all

/-- An idle write of a register, by its place in the map alone (20_memory.md R62). -/
theorem hostWrite_regAt {s : State} {off : Nat} {r : Reg} (hr : regAt off = some r) (v : Word) (hc : s.cmd = none) :
    hostWrite s off 4 v = (regWrite s r v).respond .written :=
  hostWrite_reg v hc (regAt_aligned hr).1 (regAt_aligned hr).2 hr

/-- A read of a register, by its place in the map alone (20_memory.md R62). -/
theorem hostRead_regAt {s : State} {off : Nat} {r : Reg} (hr : regAt off = some r) :
    (hostRead s off 4).resp = .data 4 (regRead s r) := by
  rw [hostRead_reg (regAt_aligned hr).1 (regAt_aligned hr).2 hr]

/-- A read of a register after an idle write to it. -/
theorem hostRead_hostWrite_regAt {s : State} {off : Nat} {r : Reg} (hr : regAt off = some r) (v : Word)
    (hc : s.cmd = none) : (hostRead (hostWrite s off 4 v) off 4).resp = .data 4 (regRead (regWrite s r v) r) := by
  rw [hostWrite_regAt hr v hc, hostRead_regAt hr, regRead_respond]

/-- What an operand register reads as: its fields, reserved bits 0 (10_state.md R33 to R40). -/
theorem operandRegisters_read (s : State) :
    (hostRead s 0x010 4).resp = .data 4 (BitVec.ofNat 32 s.tapsRow.toNat) ∧
    (hostRead s 0x014 4).resp = .data 4 (BitVec.ofNat 32 s.seedRow.toNat) ∧
    (hostRead s 0x018 4).resp = .data 4 (BitVec.ofNat 32 s.tapsCol.toNat) ∧
    (hostRead s 0x01C 4).resp = .data 4 (BitVec.ofNat 32 s.seedCol.toNat) ∧
    (hostRead s 0x020 4).resp = .data 4 (BitVec.ofNat 32 (256 * s.matDim.cols.toNat + s.matDim.rows.toNat)) ∧
    (hostRead s 0x024 4).resp = .data 4 (BitVec.ofNat 32 (256 * s.viewOrg.col0.toNat + s.viewOrg.row0.toNat)) ∧
    (hostRead s 0x028 4).resp = .data 4 (BitVec.ofNat 32 (256 * s.viewDim.cols.toNat + s.viewDim.rows.toNat)) ∧
    (hostRead s 0x02C 4).resp = .data 4 (BitVec.ofNat 32 (65536 * s.argSec.sy.toNat + s.argSec.sx.toNat)) ∧
    (hostRead s 0x030 4).resp = .data 4 (BitVec.ofNat 32 (65536 * s.argPos.row.toNat + s.argPos.col.toNat)) := by
  simp only [BitVec.ofNat_toNat, ← packBytes_eq_ofNat, ← append_halves_eq_ofNat]
  exact ⟨rfl, rfl, rfl, rfl, rfl, rfl, rfl, rfl, rfl⟩

/-- Settles O39: each register's read is its fields, and an idle write stores the fields of the word. -/
theorem operandRegistersReadBack : Obligations.OperandRegistersReadBack := by
  unfold Obligations.OperandRegistersReadBack
  refine ⟨operandRegisters_read, fun s v hc => ?_⟩
  refine ⟨fun off hoff => ?_, fun off hoff => ?_, ?_, fun off hoff hb => ?_, ?_, ?_, ?_, ?_, ?_⟩
  · simp only [List.mem_cons, List.not_mem_nil, or_false] at hoff
    rw [← packBytes_extract]
    obtain rfl | rfl := hoff
    · exact hostRead_hostWrite_regAt (r := .viewOrg) rfl v hc
    · exact hostRead_hostWrite_regAt (r := .viewDim) rfl v hc
  · simp only [List.mem_cons, List.not_mem_nil, or_false] at hoff
    have hv := congrArg (Response.data 4) (append_halves_extract v)
    obtain rfl | rfl := hoff
    · exact (hostRead_hostWrite_regAt (r := .argSec) rfl v hc).trans hv
    · exact (hostRead_hostWrite_regAt (r := .argPos) rfl v hc).trans hv
  · rw [hostRead_hostWrite_regAt (r := .matDim) rfl v hc, ← toNat_byte0, ← toNat_byte1, ← clampDim_toNat,
      ← clampDim_toNat, ← packBytes_eq_ofNat]
    rfl
  · simp only [List.mem_cons, List.not_mem_nil, or_false] at hoff
    rw [← setWidth_low6]
    obtain rfl | rfl | rfl | rfl := hoff
    all_goals rw [hostRead_hostWrite_regAt rfl v hc, regWrite, lockedWrite_notBuilt _ hb, regRead]
  all_goals
    rw [hostWrite_regAt rfl v hc]
    rfl

/-- Settles O40, by what a locked write is while built and while not built. -/
theorem configurationIsLockedWhileBuilt : Obligations.ConfigurationIsLockedWhileBuilt := by
  unfold Obligations.ConfigurationIsLockedWhileBuilt
  intro s v hc
  refine ⟨fun hb off hoff => ?_, fun hb => ⟨?_, ?_, ?_, ?_⟩⟩
  · simp only [List.mem_cons, List.not_mem_nil, or_false] at hoff
    obtain rfl | rfl | rfl | rfl := hoff
    all_goals
      rw [hostWrite_regAt rfl v hc, regWrite, lockedWrite_built _ hb]
      rfl
  all_goals
    rw [hostWrite_regAt rfl v hc, regWrite, lockedWrite_notBuilt _ hb]
    rfl


/-! ### OVR -/

/-- The address map has no target outside the aperture (20_memory.md R60). -/
theorem target_outside {off : Nat} (n : Nat) (h : 0x8000 ≤ off) : target off n = none := by
  cases ht : target off n with
  | none => rfl
  | some t =>
    have hat := target_at ht
    cases t <;> simp only [Target.At] at hat <;> omega

/-- A write of nothing addressed is not lost. -/
theorem writeLost_none {s : State} {off n : Nat} (ht : target off n = none) : writeLost s off n = false := by
  simp [writeLost, ht]

/-- A write of a target other than CTRL and STATUS is lost exactly while a command is in flight (40_command_issue.md
R105). -/
theorem writeLost_target {s : State} {off n : Nat} {t : Target} (ht : target off n = some t)
    (hc : t ≠ .reg .ctrl) (hs : t ≠ .reg .status) : writeLost s off n = s.busy := by
  rw [writeLost, ht]
  split
  · contradiction
  · simp_all
  · simp_all
  · exact Bool.and_true _

theorem targetWriteBusy_drop {s : State} {t : Target} (v : Word) (hc : t ≠ .reg .ctrl) (hs : t ≠ .reg .status) :
    targetWriteBusy s v t = s.dropWrite := by
  unfold targetWriteBusy
  split
  · exact absurd rfl hc
  · exact absurd rfl hs
  · rfl

theorem lockedWrite_ovr {s t : State} (h : t.ovr = s.ovr) : (lockedWrite s t).ovr = s.ovr := by
  unfold lockedWrite
  split
  · rfl
  · exact h

/-- An idle write of a target other than CTRL and STATUS leaves OVR (10_state.md R31). -/
theorem targetWriteIdle_ovr {s : State} {t : Target} (v : Word) (hc : t ≠ .reg .ctrl) (hs : t ≠ .reg .status) :
    (targetWriteIdle s v t).ovr = s.ovr := by
  cases t with
  | reg r =>
    cases r with
    | ctrl => exact absurd rfl hc
    | status => exact absurd rfl hs
    | tapsRow | seedRow | tapsCol | seedCol => exact lockedWrite_ovr rfl
    | _ => rfl
  | _ => rfl

/-- A write of CTRL leaves OVR, but for a soft reset (10_state.md R25). -/
theorem ctrlWrite_ovr (s : State) (v : Word) : (ctrlWrite s v).ovr = (s.ovr && !v.getLsbD 1) := by
  cases hv : v.getLsbD 1
  · rw [ctrlWrite_ie s hv, Bool.not_false, Bool.and_true]
  · rw [ctrlWrite_reset s hv, Bool.not_true, Bool.and_false]
    rfl

/-- What a host write does to OVR (10_state.md R31): STATUS clears it by bit 4, CTRL by the soft reset of bit 1, and
every other write sets it exactly if it is lost. -/
theorem hostWrite_ovr_cases (s : State) (off n : Nat) (v : Word) :
    (off = 0x008 ∧ n = 4 ∧ (hostWrite s off n v).ovr = (s.ovr && !v.getLsbD 4) ∧ writeLost s off n = false) ∨
    (off = 0x004 ∧ n = 4 ∧ (hostWrite s off n v).ovr = (s.ovr && !v.getLsbD 1) ∧ writeLost s off n = false) ∨
    (hostWrite s off n v).ovr = (s.ovr || writeLost s off n) := by
  by_cases ha : 0x8000 ≤ off
  · exact .inr (.inr (by simp [hostWrite, ha, writeLost_none (target_outside n ha)]))
  · cases ht : target off n with
    | none => exact .inr (.inr (by simp [hostWrite, ha, ht, writeLost_none ht]))
    | some t =>
      have hat := target_at ht
      by_cases hs : t = .reg .status
      · subst hs
        obtain ⟨_, rfl, _, hr⟩ := hat
        obtain rfl := regAt_status hr
        exact .inl ⟨rfl, rfl, by rw [hostWrite_status]; rfl, by simp [writeLost, ht]⟩
      · by_cases hc : t = .reg .ctrl
        · subst hc
          obtain ⟨_, rfl, _, hr⟩ := hat
          obtain rfl := regAt_ctrl hr
          refine .inr (.inl ⟨rfl, rfl, ?_, by simp [writeLost, ht]⟩)
          rw [hostWrite_ctrl, State.respond_ovr, ctrlWrite_ovr]
        · refine .inr (.inr ?_)
          rw [hostWrite_target (by omega) ht, State.respond_ovr, writeLost_target ht hc hs]
          cases hb : s.busy
          · rw [targetWrite_idle v t (s.busy_eq_false.mp hb), targetWriteIdle_ovr v hc hs, Bool.or_false]
          · rw [targetWrite_busy v t hb, targetWriteBusy_drop v hc hs, Bool.or_true]
            rfl

/-- The engine's step leaves OVR (10_state.md R31). -/
theorem engineStep_ovr {s t : State} (h : engineStep s = .next t) : t.ovr = s.ovr := by
  obtain ⟨_, h'⟩ | ⟨_, c, u, hw, h'⟩ := engineStep_cases s <;> rw [h'] at h <;> cases h
  · rfl
  · exact hw.ovr_eq

/-- Settles O46, from what a host write and the engine's step do to OVR. -/
theorem ovrRisesOnlyOnADroppedWrite : Obligations.OvrRisesOnlyOnADroppedWrite := by
  unfold Obligations.OvrRisesOnlyOnADroppedWrite
  refine ⟨fun s off n v => ⟨fun h => ?_, fun h hw => ?_, fun h => ?_, rfl, ?_⟩, fun s t => engineStep_ovr⟩
  · obtain ⟨_, _, ho, hl⟩ | ⟨_, _, ho, hl⟩ | ho := hostWrite_ovr_cases s off n v
    · simp [ho, h, hl]
    · simp [ho, h, hl]
    · simp [ho, h]
  · obtain ⟨h8, hn, ho, _⟩ | ⟨h4, hn, ho, _⟩ | ho := hostWrite_ovr_cases s off n v
    · exact ⟨hn, .inl ⟨h8, by simpa [ho, h] using hw⟩⟩
    · exact ⟨hn, .inr ⟨h4, by simpa [ho, h] using hw⟩⟩
    · simp [ho, h] at hw
  · simp [hostWrite_status, h]
  · rw [hostRead_frame]

/-! ### CTRL, STATUS and the interrupt -/

theorem hostWrite_ctrl_ie (s : State) {v : Word} (h : v.getLsbD 1 = false) :
    hostWrite s 0x004 4 v = { s with ctrlIe := v.getLsbD 0, resp := .written } := by
  rw [hostWrite_ctrl, ctrlWrite_ie s h]
  rfl

theorem hostWrite_ctrl_reset (s : State) {v : Word} (h : v.getLsbD 1 = true) :
    hostWrite s 0x004 4 v = { s.afterReset with resp := .written } := by
  rw [hostWrite_ctrl, ctrlWrite_reset s h]
  rfl

/-- Settles O43, by the two cases of the SRST bit. -/
theorem ctrlWriteStoresIeOrResets : Obligations.CtrlWriteStoresIeOrResets := by
  unfold Obligations.CtrlWriteStoresIeOrResets
  intro s v
  refine ⟨fun h => ?_, hostWrite_ctrl_ie s, ?_⟩
  · rw [hostWrite_ctrl_reset s h]
    exact ⟨rfl, rfl⟩
  · rw [hostRead_regAt (r := .ctrl) rfl, regRead]
    cases s.ctrlIe <;> rfl

/-- Settles O52: a command sets DONE and keeps IE, and a STATUS or CTRL write changes one of the two. -/
theorem irqFollowsIeAndDone : Obligations.IrqFollowsIeAndDone := by
  unfold Obligations.IrqFollowsIeAndDone
  refine ⟨fun s => by simp [State.irq], fun i s t h => ?_, fun s v hv => ?_, fun s => ⟨?_, ?_, ?_⟩⟩
  · obtain ⟨c, u, hw, he⟩ := exec_completes i s
    rw [he, Host.Outcome.next.injEq] at h
    simp [← h, State.irq, hw.ctrlIe_eq]
  · simp [hostWrite_status, State.irq, hv]
  · rw [hostWrite_ctrl_ie s (by decide)]
  · rw [hostWrite_ctrl_ie s (by decide)]
    simp [State.irq]
  · rw [hostWrite_ctrl_ie s (by decide)]
    simp [State.irq]

/-- Only OK has the value 0 (60_exceptions.md R231). -/
theorem Code.byte_eq_zero_iff (c : Code) : c.byte = 0 ↔ c = .ok := by
  cases c <;> decide

/-- ERR says that ERRCODE is not OK (10_state.md R30). -/
theorem State.err_iff (s : State) : s.err = true ↔ s.errcode ≠ .ok := by
  simp [State.err, ← Code.byte_eq_zero_iff]

/-- The flags of STATUS (10_state.md R26). -/
theorem statusWord_flags (s : State) :
    (statusWord s).getLsbD 0 = s.busy ∧ (statusWord s).getLsbD 1 = s.done ∧ (statusWord s).getLsbD 2 = s.built ∧
      (statusWord s).getLsbD 3 = s.err ∧ (statusWord s).getLsbD 4 = s.ovr := by
  simp only [statusWord, BitVec.getLsbD_append, BitVec.getLsbD_ofBool]
  simp

/-- STATUS above its flags: ERRCODE from bit 8, and 0 elsewhere (10_state.md R26). -/
theorem statusWord_getLsbD_add (s : State) (k : Nat) :
    (statusWord s).getLsbD (5 + k) = (decide (3 ≤ k) && s.errcode.byte.getLsbD (k - 3)) := by
  simp only [statusWord, BitVec.getLsbD_append, BitVec.getLsbD_ofBool]
  by_cases h3 : 3 ≤ k
  · by_cases h8 : k - 3 < 8
    · simp [Nat.add_comm 5 k, h3, h8]
    · simp [Nat.add_comm 5 k, h3, h8, BitVec.getLsbD_of_ge _ _ (Nat.le_of_not_lt h8)]
  · simp [Nat.add_comm 5 k, h3]

/-- The fields of STATUS above its flags (10_state.md R26). -/
theorem statusWord_fields (s : State) :
    (statusWord s).extractLsb' 5 3 = 0 ∧ (statusWord s).extractLsb' 8 8 = s.errcode.byte ∧
      (statusWord s).extractLsb' 16 16 = 0 := by
  refine ⟨BitVec.eq_of_getLsbD_eq fun i hi => ?_, BitVec.eq_of_getLsbD_eq fun i hi => ?_,
    BitVec.eq_of_getLsbD_eq fun i hi => ?_⟩ <;> rw [BitVec.getLsbD_extractLsb']
  · simp [statusWord_getLsbD_add, hi]
  · rw [show 8 + i = 5 + (3 + i) by omega, statusWord_getLsbD_add]
    simp [hi]
  · rw [show 16 + i = 5 + (11 + i) by omega, statusWord_getLsbD_add]
    simp [show 11 + i - 3 = 8 + i by omega]

/-- Settles O44, from the bits of STATUS and the one effect of a STATUS write. -/
theorem statusReadsItsFieldsAndClearsOnOne : Obligations.StatusReadsItsFieldsAndClearsOnOne := by
  unfold Obligations.StatusReadsItsFieldsAndClearsOnOne
  intro s v
  obtain ⟨hbusy, hdone, hbuilt, herr, hovr⟩ := statusWord_flags s
  obtain ⟨h5, h8, h16⟩ := statusWord_fields s
  refine ⟨hbusy, hdone, hbuilt, herr ▸ s.err_iff, hovr, h5, h8, h16, hostRead_regAt (r := .status) rfl, ?_⟩
  rw [hostWrite_status, Bool.if_false_left, Bool.if_false_left, Bool.and_comm _ s.done, Bool.and_comm _ s.ovr,
    Bool.decide_eq_true, Bool.decide_eq_true]
  rfl

end Sys2Proof.Machine

namespace Sys2Proof.Machine

/-! ### The address map and BusError -/

/-- The accesses of the aperture that get no BusError: a 4-byte aligned access to a mapped register or a window, and an
aligned 1-, 2- or 4-byte access to the matrix RAM (20_memory.md R61). -/
def LegalAccess (off n : Nat) : Prop :=
  (((off < 0x100 ∧ (off ≤ 0x030 ∨ (0x040 ≤ off ∧ off ≤ 0x04C))) ∨ (0x1000 ≤ off ∧ off < 0x1400)) ∧ n = 4 ∧ off % 4 = 0) ∨
    (0x4000 ≤ off ∧ (n = 1 ∨ n = 2 ∨ n = 4) ∧ off % n = 0)

/-- The target is a word of one of the four SEQ/LUT windows (20_memory.md R69). -/
def Target.isWindow : Target → Bool
  | .seqRow _ | .seqCol _ | .lutRow _ | .lutCol _ => true
  | .reg _ | .mat _ _ => false

/-- Every aligned word from 0x1000 up to 0x1400 is one of a window (20_memory.md R60). -/
theorem target_window {off : Nat} (hlo : 0x1000 ≤ off) (hhi : off < 0x1400) (h4 : off % 4 = 0) :
    ∃ t : Target, t.isWindow = true ∧ target off 4 = some t := by
  obtain ⟨i, hi, h | h | h | h⟩ : ∃ i, i < 64 ∧
      (off = 0x1000 + 4 * i ∨ off = 0x1100 + 4 * i ∨ off = 0x1200 + 4 * i ∨ off = 0x1300 + 4 * i) :=
    ⟨off % 256 / 4, by omega, by omega⟩
  · exact ⟨.seqRow i, rfl, h ▸ target_seqRow hi⟩
  · exact ⟨.seqCol i, rfl, h ▸ target_seqCol hi⟩
  · exact ⟨.lutRow i, rfl, h ▸ target_lutRow hi⟩
  · exact ⟨.lutCol i, rfl, h ▸ target_lutCol hi⟩

/-- A target lies only at a legal access. -/
theorem Target.At.legalAccess {t : Target} {off n : Nat} (h : t.At off n) : LegalAccess off n := by
  unfold LegalAccess
  cases t with
  | reg r =>
    obtain ⟨hlt, hn, h4, hr⟩ := h
    exact .inl ⟨.inl ⟨hlt, (regAt_isSome_iff off h4 hlt).mp (by simp [hr])⟩, hn, h4⟩
  | mat o m =>
    obtain ⟨_, _, hlo, _, hn, hm⟩ := h
    exact .inr ⟨hlo, hn, hm⟩
  | _ =>
    obtain ⟨hoff, hi, hn⟩ := h
    exact .inl ⟨.inr (by omega), hn, by omega⟩

/-- In the aperture the address map has a target for exactly the legal accesses (20_memory.md R61). -/
theorem exists_target_iff {off : Nat} (n : Nat) (h : off < 0x8000) :
    (∃ t, target off n = some t) ↔ LegalAccess off n := by
  refine ⟨fun ⟨t, ht⟩ => (target_at ht).legalAccess, ?_⟩
  rintro (⟨⟨hlt, hr⟩ | ⟨hlo, hhi⟩, rfl, h4⟩ | ⟨hlo, hn, hm⟩)
  · obtain ⟨r, hr⟩ := Option.isSome_iff_exists.mp ((regAt_isSome_iff off h4 hlt).mpr hr)
    exact ⟨_, target_reg hlt h4 hr⟩
  · obtain ⟨t, _, ht⟩ := target_window hlo hhi h4
    exact ⟨t, ht⟩
  · exact ⟨_, target_mat hlo h hn hm⟩

/-- A read of a target answers its datum on the bus (20_memory.md R62). -/
theorem hostRead_target_resp {s : State} {off n : Nat} {t : Target} (h : off < 0x8000) (ht : target off n = some t) :
    (hostRead s off n).resp = .data n (targetRead s t) := by
  rw [hostRead_target h ht]

/-- The block does not see a read outside the aperture (20_memory.md R60). -/
theorem hostRead_outside (s : State) {off : Nat} (n : Nat) (h : 0x8000 ≤ off) : hostRead s off n = s := if_pos h

theorem hostRead_busError (s : State) {off n : Nat} (h : off < 0x8000) (ht : target off n = none) :
    hostRead s off n = s.respond .busError := by
  rw [hostRead, if_neg (Nat.not_le.mpr h), ht]

theorem hostWrite_busError (s : State) {off n : Nat} (v : Word) (h : off < 0x8000) (ht : target off n = none) :
    hostWrite s off n v = s.respond .busError := by
  rw [hostWrite, if_neg (Nat.not_le.mpr h), ht]

/-- Settles O37: the legal accesses are those with a target, and only an access without one gets BusError. -/
theorem illegalAccessGetsBusErrorOnly : Obligations.IllegalAccessGetsBusErrorOnly := by
  unfold Obligations.IllegalAccessGetsBusErrorOnly
  intro s off n v h
  refine ⟨fun hlegal => ?_, fun hillegal => ?_⟩
  · obtain ⟨t, ht⟩ := (exists_target_iff n h).mpr hlegal
    rw [hostRead_target h ht, hostWrite_target h ht]
    exact ⟨nofun, nofun⟩
  · have ht : target off n = none :=
      Option.eq_none_iff_forall_ne_some.mpr fun t ht => hillegal ((exists_target_iff n h).mp ⟨t, ht⟩)
    exact ⟨hostRead_busError s h ht, hostWrite_busError s v h ht⟩

/-! ### Repeated reads -/

/-- The bus response is no part of the datum of a target. -/
theorem targetRead_respond (s : State) (x : Response) (t : Target) : targetRead (s.respond x) t = targetRead s t := by
  cases t with
  | reg r => exact regRead_respond s x r
  | _ => rfl

/-- Only a read of the matrix RAM while an ENCODE is in flight moves the count of free answers (20_memory.md R71). -/
theorem tickAfterRead_eq {s : State} {off n : Nat} {t : Target} (ht : t.At off n)
    (h : off < 0x4000 ∨ s.encodeInFlight = false) : tickAfterRead s t = s.tick := by
  cases t with
  | mat o m =>
    obtain ⟨_, _, hlo, _⟩ := ht
    have he : s.encodeInFlight = false := h.resolve_left (by omega)
    simp [tickAfterRead, he]
  | _ => rfl

/-- A read that moves no count changes the bus response only (20_memory.md R68). -/
theorem hostRead_target_respond {s : State} {off n : Nat} {t : Target} (hoff : off < 0x8000)
    (ht : target off n = some t) (h : off < 0x4000 ∨ s.encodeInFlight = false) :
    hostRead s off n = s.respond (.data n (targetRead s t)) := by
  rw [hostRead_target hoff ht, tickAfterRead_eq (target_at ht) h]
  rfl

/-- Settles O38: the second read sees a state that differs in the bus response only, which is no part of a datum. -/
theorem readsHaveNoSideEffect : Obligations.ReadsHaveNoSideEffect := by
  unfold Obligations.ReadsHaveNoSideEffect
  refine fun s off n => ⟨hostRead_frame s off n, fun h => ?_⟩
  by_cases hoff : off < 0x8000
  · cases ht : target off n with
    | none =>
      rw [hostRead_busError s hoff ht, hostRead_busError _ hoff ht]
      exact ⟨rfl, rfl⟩
    | some t =>
      rw [hostRead_target_respond hoff ht h, hostRead_target_resp hoff ht, targetRead_respond]
      exact ⟨rfl, rfl⟩
  · have hr := hostRead_outside s n (Nat.le_of_not_lt hoff)
    exact ⟨by rw [hr, hr], by rw [hr]⟩

/-! ### The SEQ/LUT windows and the read-only registers -/

/-- An idle write to a window is ignored (20_memory.md R69). -/
theorem hostWrite_window_idle {s : State} {off : Nat} (v : Word) (hc : s.cmd = none) (hlo : 0x1000 ≤ off)
    (hhi : off < 0x1400) (h4 : off % 4 = 0) : hostWrite s off 4 v = s.respond .written := by
  obtain ⟨t, hw, ht⟩ := target_window hlo hhi h4
  rw [hostWrite_target (by omega) ht, targetWrite_idle v t hc]
  cases t with
  | reg _ | mat _ _ => contradiction
  | _ => rfl

/-- A write to a window is dropped while a command is in flight (40_command_issue.md R105). -/
theorem hostWrite_window_busy {s : State} {off : Nat} (v : Word) (hb : s.busy = true) (hlo : 0x1000 ≤ off)
    (hhi : off < 0x1400) (h4 : off % 4 = 0) : hostWrite s off 4 v = s.dropWrite.respond .written := by
  obtain ⟨t, hw, ht⟩ := target_window hlo hhi h4
  have hreg (r : Reg) : t ≠ .reg r := by
    rintro rfl
    contradiction
  rw [hostWrite_target (by omega) ht, targetWrite_busy v t hb, targetWriteBusy_drop v (hreg _) (hreg _)]

/-- Every window reads 0 before BUILD (20_memory.md R69). -/
theorem hostRead_window_notBuilt {s : State} {off : Nat} (hb : s.built = false) (hlo : 0x1000 ≤ off)
    (hhi : off < 0x1400) (h4 : off % 4 = 0) : (hostRead s off 4).resp = .data 4 0 := by
  obtain ⟨t, hw, ht⟩ := target_window hlo hhi h4
  rw [hostRead_target_resp (by omega) ht]
  cases t with
  | reg _ | mat _ _ => contradiction
  | seqRow _ | seqCol _ => simp [targetRead, seqWindow, hb]
  | lutRow _ | lutCol _ => simp [targetRead, lutWindow, hb]

/-- A sequence window after BUILD: the sequence bit, and 0 at index 63 (20_memory.md R69). -/
theorem seqWindow_built {s : State} (seq : SeqBits) (i : Nat) (hb : s.built = true) :
    seqWindow s seq i = if i < 63 ∧ seq.getLsbD i = true then 1 else 0 := by
  by_cases hi : i < 63
  · simp only [seqWindow, Config.seqLen, hb, hi, decide_true, Bool.and_self, if_true, true_and]
    cases seq.getLsbD i <;> rfl
  · simp [seqWindow, hb, hi]

/-- A table entry as its window shows it, as a number: valid is bit 31 (20_memory.md R69). -/
theorem lutWord_eq_ofNat (e : LutEntry) :
    lutWord e = if e.valid then BitVec.ofNat 32 (2 ^ 31 + e.index.toNat) else 0 := by
  have hidx := e.index.isLt
  have hor := Nat.two_pow_add_eq_or_of_lt (i := 31) (show e.index.toNat < 2 ^ 31 by omega) 1
  rw [lutWord]
  congr 1
  apply BitVec.eq_of_toNat_eq
  rw [BitVec.toNat_or, BitVec.toNat_setWidth_of_le (by omega), BitVec.toNat_ofNat, Nat.mod_eq_of_lt (by omega)]
  exact hor.symm

/-- A table window after BUILD: the entry at its index (20_memory.md R69). -/
theorem lutWindow_built {s : State} (t : Lut) {i : Nat} (hi : i < 64) (hb : s.built = true) :
    lutWindow s t i = if t[i].valid then BitVec.ofNat 32 (2 ^ 31 + t[i].index.toNat) else 0 := by
  rw [lutWindow, if_pos hb, ← lutWord_eq_ofNat, Vector.getElem?_eq_getElem hi]
  rfl

/-- Settles O41: a write of a read-only target is no write, and each of these registers reads as its fields. -/
theorem readOnlyTargetsIgnoreWrites : Obligations.ReadOnlyTargetsIgnoreWrites := by
  unfold Obligations.ReadOnlyTargetsIgnoreWrites
  intro s v
  refine ⟨fun hc off hoff => ?_, fun hc off hlo hhi h4 => hostWrite_window_idle v hc hlo hhi h4,
    hostRead_regAt (r := .id) rfl, hostRead_regAt (r := .cmd) rfl, hostRead_regAt (r := .resPos) rfl,
    hostRead_regAt (r := .resSec) rfl, ?_, ?_⟩
  · simp only [List.mem_cons, List.not_mem_nil, or_false] at hoff
    obtain rfl | rfl | rfl | rfl | rfl := hoff
    all_goals
      rw [hostWrite_regAt rfl v hc]
      rfl
  · rw [BitVec.ofNat_toNat]
    exact hostRead_regAt (r := .resRot) rfl
  · rw [hostRead_regAt (r := .resWin) rfl, regRead, packBytes_eq_ofNat,
      BitVec.toNat_setWidth_of_le (by omega), BitVec.toNat_setWidth_of_le (by omega)]

/-- Settles O50: each address is a word of a window, and after BUILD each window shows its table at the index. -/
theorem windowsShowTheBuiltTables : Obligations.WindowsShowTheBuiltTables := by
  unfold Obligations.WindowsShowTheBuiltTables
  intro s i hi v
  refine ⟨fun b hb => ?_, fun hb => ⟨?_, ?_, ?_, ?_⟩⟩
  · obtain ⟨hlo, hhi, h4⟩ : 0x1000 ≤ b + 4 * i ∧ b + 4 * i < 0x1400 ∧ (b + 4 * i) % 4 = 0 := by
      simp only [List.mem_cons, List.not_mem_nil, or_false] at hb
      omega
    exact ⟨fun hn => hostRead_window_notBuilt hn hlo hhi h4, fun hc => hostWrite_window_idle v hc hlo hhi h4,
      fun hbusy => hostWrite_window_busy v hbusy hlo hhi h4⟩
  · rw [hostRead_target_resp (by omega) (target_seqRow hi), targetRead, seqWindow_built _ _ hb]
  · rw [hostRead_target_resp (by omega) (target_seqCol hi), targetRead, seqWindow_built _ _ hb]
  · rw [hostRead_target_resp (by omega) (target_lutRow hi), targetRead, lutWindow_built _ hi hb]
  · rw [hostRead_target_resp (by omega) (target_lutCol hi), targetRead, lutWindow_built _ hi hb]

/-! ### The matrix RAM -/

/-- An aligned idle write to the matrix RAM (20_memory.md R63). -/
theorem hostWrite_mat {s : State} {off n : Nat} (v : Word) (hc : s.cmd = none) (hlo : 0x4000 ≤ off) (hhi : off < 0x8000)
    (hn : n = 1 ∨ n = 2 ∨ n = 4) (hm : off % n = 0) :
    hostWrite s off n v = { s with mat := matWrite s.mat off n v, resp := .written } := by
  rw [hostWrite_target hhi (target_mat hlo hhi hn hm), targetWrite_idle v _ hc]
  rfl

/-- The two stored bits of byte k of a datum are its bits 8k and 8k + 1 (20_memory.md R63). -/
theorem cellMask_byteOf_bits (v : Word) (k : Nat) : (cellMask (byteOf v k)).extractLsb' 0 2 = v.extractLsb' (8 * k) 2 := by
  rw [cellMask_bits, byteOf]
  apply BitVec.eq_of_getLsbD_eq
  intro i hi
  simp [hi]
  omega

/-- The cells after a bus write: the written bytes' low bits, the old cells elsewhere (20_memory.md R63). -/
theorem cellBits_of_matWrite {s t : State} {off n : Nat} {v : Word} (hm : t.mat = matWrite s.mat off n v)
    (he : t.epoch = s.epoch) (a : Nat) :
    cellBits t a = if off ≤ a ∧ a < off + n then v.extractLsb' (8 * (a - off)) 2 else cellBits s a := by
  rw [cellBits, hm, he, Memory.get_matWrite]
  by_cases ha : off ≤ a ∧ a < off + n
  · rw [if_pos ha, if_pos ha]
    exact cellMask_byteOf_bits v (a - off)
  · rw [if_neg ha, if_neg ha, cellBits]

/-- Settles O47: the write replaces the matrix memory only, and each cell is known after it. -/
theorem matrixWriteStoresItsCellsOnly : Obligations.MatrixWriteStoresItsCellsOnly := by
  unfold Obligations.MatrixWriteStoresItsCellsOnly
  intro s off n v hc hlo hhi hn hm
  have hw := hostWrite_mat v hc hlo hhi hn hm
  have hcell := cellBits_of_matWrite (s := s) (t := hostWrite s off n v) (by rw [hw]) (by rw [hw])
  refine ⟨by rw [hw], fun k hk => ?_, fun a ha => ?_⟩
  · rw [hcell, if_pos (by omega), Nat.add_sub_cancel_left]
  · rw [hcell, if_neg (by omega)]

/-- Up to four cells as a datum: each cell is one byte of it, and it is 0 above its width (20_memory.md R63, R65). -/
theorem leWord_cells (cell : Nat → BitVec 2) {n : Nat} (hn : n ≤ 4) :
    (leWord ((List.range n).map fun k => (cell k).setWidth 8)).toNat < 256 ^ n ∧
      ∀ k, k < n →
        (leWord ((List.range n).map fun k => (cell k).setWidth 8)).toNat / 256 ^ k % 256 = (cell k).toNat := by
  obtain ⟨hlt, hbyte⟩ := leWord_bytes ((List.range n).map fun k => (cell k).setWidth 8) (by simpa using hn)
  rw [List.length_map, List.length_range] at hlt hbyte
  refine ⟨hlt, fun k hk => ?_⟩
  have hget : ((List.range n).map fun k => (cell k).setWidth 8).getD k 0 = (cell k).setWidth 8 := by simp [hk]
  rw [hbyte k hk, hget, BitVec.toNat_setWidth_of_le (by omega)]

/-- Settles O48: the datum is the list of the cells, each as one byte. -/
theorem matrixReadIsLittleEndian : Obligations.MatrixReadIsLittleEndian := by
  unfold Obligations.MatrixReadIsLittleEndian
  intro s off n he hlo hhi hn hm
  refine ⟨matRead s off n, ?_, leWord_cells (fun k => cellBits s (off + k)) (by omega)⟩
  simp [hostRead_target_resp hhi (target_mat hlo hhi hn hm), targetRead, he]

/-- The word of ENCODE in flight is an ENCODE in flight (20_memory.md R71). -/
theorem encodeInFlight_of_encode {s : State} (h : s.cmd = some (encode .encode)) : s.encodeInFlight = true := by
  rw [State.encodeInFlight, h]
  rfl

/-- Settles O49: the datum is the list of the free cells of the present read count, and the read moves the count. -/
theorem matrixReadDuringEncodeIsFree : Obligations.MatrixReadDuringEncodeIsFree := by
  unfold Obligations.MatrixReadDuringEncodeIsFree
  intro s off n hcmd hlo hhi hn hm
  have he := encodeInFlight_of_encode hcmd
  refine ⟨matReadFree s.tick off n, ?_, leWord_cells (fun k => Config.busyCell s.tick (off + k)) (by omega)⟩
  rw [hostRead_target hhi (target_mat hlo hhi hn hm), targetRead, tickAfterRead, if_pos he, if_pos he]

/-! ### Bus addresses -/

/-- An address of the aperture is its offset from BASE (20_memory.md R60). -/
theorem busOffset_base_add {off : Nat} (h : off < 0x8000) : busOffset (Config.base + off) = some off := by
  rw [busOffset, if_pos ⟨Nat.le_add_right _ _, Nat.add_lt_add_left h _⟩, Nat.add_sub_cancel_left]

/-- An address outside the aperture is no offset (20_memory.md R60). -/
theorem busOffset_outside {addr : Nat} (h : addr < Config.base ∨ Config.base + 0x8000 ≤ addr) :
    busOffset addr = none :=
  if_neg (by simp only [Config.apertureBytes]; omega)

/-- Settles O51, from what offset a bus address reaches. -/
theorem busAddressesReachTheirOffset : Obligations.BusAddressesReachTheirOffset := by
  unfold Obligations.BusAddressesReachTheirOffset
  refine ⟨Nat.mul_mod_right _ _, fun s off addr n v => ⟨fun h => ?_, fun h => ?_⟩⟩
  · simp [busAccess, busOffset_base_add h]
  · simp [busAccess, busOffset_outside h]

end Sys2Proof.Machine

namespace Sys2Proof

/-! ### Command words -/

/-- The statement about a command's word, for every command (30_encoding.md R80, R81). -/
theorem encoding_statement (i : Instr) : Laws.Encoding.Statement i := by
  cases i with
  | nop => exact Laws.Encoding.nop
  | build => exact Laws.Encoding.build
  | encode => exact Laws.Encoding.encode
  | decpos => exact Laws.Encoding.decpos
  | decsec => exact Laws.Encoding.decsec
  | decrot => exact Laws.Encoding.decrot

theorem legalWord_encode (i : Instr) : legalWord (encode i) = true := by
  obtain ⟨_, _, _, hlegal, _⟩ := encoding_statement i
  exact hlegal

@[simp] theorem decodeWord_encode (i : Instr) : decodeWord (encode i) = .ok i := by
  obtain ⟨_, _, _, _, hdecode⟩ := encoding_statement i
  exact hdecode

/-- A command's word is the only word that decodes to it (30_encoding.md R81). -/
theorem decodeWord_eq_ok_iff {w : Word} {i : Instr} : decodeWord w = .ok i ↔ w = encode i := by
  refine ⟨fun h => ?_, fun h => h ▸ decodeWord_encode i⟩
  obtain ⟨j, hj, hw, _⟩ | ⟨he, _⟩ | ⟨he, _, _⟩ := decodeWord_cases w
  · obtain rfl : j = i := Except.ok.inj (hj.symm.trans h)
    exact hw
  · simp [he] at h
  · simp [he] at h

/-- The words of commands are the words up to 5 (30_encoding.md R81). -/
theorem exists_decodeWord_eq_ok_iff {w : Word} : (∃ i, decodeWord w = .ok i) ↔ w.toNat ≤ 5 := by
  obtain ⟨i, hi, _, hlt⟩ | ⟨he, hrsv⟩ | ⟨he, hrsv, hop⟩ := decodeWord_cases w
  · exact iff_of_true ⟨i, hi⟩ (by omega)
  · exact iff_of_false (by simp [he]) (by omega)
  · exact iff_of_false (by simp [he]) (by omega)

/-- The RSV check alone gives the name reservedField (30_encoding.md R82). -/
theorem decodeWord_eq_reservedField_iff {w : Word} :
    decodeWord w = .error .reservedField ↔ w.toNat / 256 ≠ 0 := by
  obtain ⟨i, hi, _, hlt⟩ | ⟨he, hrsv⟩ | ⟨he, hrsv, _⟩ := decodeWord_cases w
  · exact iff_of_false (by simp [hi]) (by omega)
  · exact iff_of_true he hrsv
  · exact iff_of_false (by simp [he]) (by simp [hrsv])

/-- With RSV 0, the opcodes that are no command's give the name reservedOpcode (30_encoding.md R83). -/
theorem decodeWord_eq_reservedOpcode_iff {w : Word} :
    decodeWord w = .error .reservedOpcode ↔ w.toNat / 256 = 0 ∧ 6 ≤ w.toNat % 256 := by
  obtain ⟨i, hi, _, hlt⟩ | ⟨he, hrsv⟩ | ⟨he, hrsv, hop⟩ := decodeWord_cases w
  · exact iff_of_false (by simp [hi]) (by omega)
  · exact iff_of_false (by simp [he]) fun h => hrsv h.1
  · exact iff_of_true he ⟨hrsv, hop⟩

/-- Settles O2: the six words are computed, and each answer of the decoder is characterised by its lemma. -/
theorem legalWordsAreTheSixOpcodes : Obligations.LegalWordsAreTheSixOpcodes := by
  unfold Obligations.LegalWordsAreTheSixOpcodes
  exact ⟨by decide, fun _ => ⟨fun _ => decodeWord_eq_ok_iff, exists_decodeWord_eq_ok_iff,
    decodeWord_eq_reservedField_iff, decodeWord_eq_reservedOpcode_iff⟩⟩

/-- Settles O1, from the statement about each command's word. -/
theorem decodeInvertsEncode : Obligations.DecodeInvertsEncode := by
  unfold Obligations.DecodeInvertsEncode
  exact fun i _ => ⟨legalWord_encode i, decodeWord_encode i⟩

/-- Settles O3: each written-out word is a command's word, or its RSV field or opcode is reserved. -/
theorem sampleCommandWordsDecode : Obligations.SampleCommandWordsDecode := by
  unfold Obligations.SampleCommandWordsDecode
  exact ⟨decodeWord_encode .nop, decodeWord_encode .build, decodeWord_encode .encode, decodeWord_encode .decpos,
    decodeWord_encode .decsec, decodeWord_encode .decrot, decodeWord_eq_reservedField_iff.mpr (by decide),
    decodeWord_eq_reservedOpcode_iff.mpr (by decide)⟩

end Sys2Proof

namespace Sys2Proof.Machine

/-! ### Completion of each command -/

/-- With which code a command completes, and what it has written by then (40_command_issue.md R101, R106): a failure has
written nothing, but for DECPOS with INVALID_WINDOW (60_exceptions.md R230); a success, the command's own results. -/
inductive CompletesWith (s : State) : Instr → Code → State → Prop
  | failure (i : Instr) {c : Code} (hc : c ≠ .ok) : CompletesWith s i c s
  | invalidWindow (wA wB : Window) : CompletesWith s .decpos .invalidWindow (s.withResWin wA wB)
  | nop : CompletesWith s .nop .ok s
  | build (sr sc : SeqBits) (tr tc : Lut) : CompletesWith s .build .ok (s.installTables sr sc tr tc)
  | encode : CompletesWith s .encode .ok s.encoded
  | decpos (wA wB : Window) (col row : Nat) :
      CompletesWith s .decpos .ok ((s.withResWin wA wB).withResPos col row)
  | decsec (sx sy : BitVec 8) : CompletesWith s .decsec .ok (s.withResSec sx sy)
  | decrot (d : Fin 4) : CompletesWith s .decrot .ok (s.withResRot d)

/-- A check of a decode command that fails gives a failure code (60_exceptions.md R232). -/
theorem ne_ok_of_decodeGuard {s : State} {c : Code} (h : decodeGuard s = some c) : c ≠ .ok := by
  rintro rfl
  obtain ⟨_, h'⟩ | ⟨_, _, h'⟩ | ⟨_, _, h'⟩ := decodeGuard_cases s <;> simp [h'] at h

/-- Every command completes in one of its ways, by the inversion of its meaning (40_command_issue.md R101). -/
theorem exec_completesWith (i : Instr) (s : State) :
    ∃ c u, CompletesWith s i c u ∧ exec i s = .next (u.complete c) := by
  cases i with
  | nop => exact ⟨_, _, .nop, rfl⟩
  | build =>
    obtain ⟨_, h⟩ | ⟨_, _, h⟩ | ⟨_, _, _, _, h⟩ | ⟨_, _, _, _, _, h⟩ := execBuild_cases s
    · exact ⟨_, _, .failure _ (by nofun), h⟩
    · exact ⟨_, _, .failure _ (by nofun), h⟩
    · exact ⟨_, _, .failure _ (by nofun), h⟩
    · exact ⟨_, _, .build .., h⟩
  | encode =>
    obtain ⟨_, h⟩ | ⟨_, _, h⟩ | ⟨_, _, _, _, h⟩ | ⟨_, _, _, _, _, h⟩ := execEncode_cases s
    · exact ⟨_, _, .failure _ (by nofun), h⟩
    · exact ⟨_, _, .failure _ (by nofun), h⟩
    · exact ⟨_, _, .failure _ (by nofun), h⟩
    · exact ⟨_, _, .encode, h⟩
  | decpos =>
    obtain ⟨_, hg, _, h⟩ | ⟨_, _, h⟩ | ⟨wA, wB, _, _, h⟩ | ⟨col, row, wA, wB, _, _, h⟩ := execDecpos_cases s
    · exact ⟨_, _, .failure _ (ne_ok_of_decodeGuard hg), h⟩
    · exact ⟨_, _, .failure _ (by nofun), h⟩
    · exact ⟨_, _, .invalidWindow wA wB, h⟩
    · exact ⟨_, _, .decpos wA wB col row, h⟩
  | decsec =>
    obtain ⟨_, hg, _, h⟩ | ⟨_, _, hc, h⟩ | ⟨sx, sy, _, _, h⟩ := execDecsec_cases s
    · exact ⟨_, _, .failure _ (ne_ok_of_decodeGuard hg), h⟩
    · exact ⟨_, _, .failure _ (by rintro rfl; simp at hc), h⟩
    · exact ⟨_, _, .decsec sx sy, h⟩
  | decrot =>
    obtain ⟨_, hg, _, h⟩ | ⟨_, _, h⟩ | ⟨_, _, h⟩ | ⟨d, _, _, h⟩ := execDecrot_cases s
    · exact ⟨_, _, .failure _ (ne_ok_of_decodeGuard hg), h⟩
    · exact ⟨_, _, .failure _ (by nofun), h⟩
    · exact ⟨_, _, .failure _ (by nofun), h⟩
    · exact ⟨_, _, .decrot d, h⟩

/-- The state after a command, taken apart into its code and what was written before the completion. -/
theorem exec_next_cases {i : Instr} {s t : State} (h : exec i s = .next t) :
    ∃ c u, CompletesWith s i c u ∧ t = u.complete c := by
  obtain ⟨c, u, hw, he⟩ := exec_completesWith i s
  rw [he, Host.Outcome.next.injEq] at h
  exact ⟨c, u, hw, h.symm⟩

/-- Settles O7: a completion sets DONE and clears `cmd`. -/
theorem everyCommandCompletes : Obligations.EveryCommandCompletes := by
  unfold Obligations.EveryCommandCompletes
  intro i s
  obtain ⟨c, u, _, h⟩ := exec_completes i s
  exact ⟨u.complete c, h, u.complete_done c, u.complete_cmd c⟩

/-- A failing command has written nothing, or it is DECPOS with the windows it could not find (60_exceptions.md R230). -/
theorem CompletesWith.failure_cases {s u : State} {i : Instr} {c : Code} (h : CompletesWith s i c u) (hc : c ≠ .ok) :
    u = s ∨ (i = .decpos ∧ c = .invalidWindow ∧ ∃ wA wB, u = s.withResWin wA wB) := by
  cases h with
  | failure => exact .inl rfl
  | invalidWindow wA wB => exact .inr ⟨rfl, rfl, wA, wB, rfl⟩
  | _ => exact absurd rfl hc

/-- Settles O9: what a failing command has written before it completes is nothing, or RES_WIN. -/
theorem failingCommandsWriteNoResult : Obligations.FailingCommandsWriteNoResult := by
  unfold Obligations.FailingCommandsWriteNoResult
  intro i s t h herr
  obtain ⟨c, u, hw, rfl⟩ := exec_next_cases h
  obtain rfl | ⟨hi, hc, wA, wB, rfl⟩ := hw.failure_cases herr
  · exact ⟨rfl, fun hne => absurd rfl hne⟩
  · exact ⟨rfl, fun _ => ⟨hi, hc⟩⟩

/-- Only BUILD writes BUILT, the sequences and the tables (10_state.md R23). -/
theorem CompletesWith.tables_eq {s u : State} {i : Instr} {c : Code} (h : CompletesWith s i c u) (hi : i ≠ .build) :
    u.built = s.built ∧ u.rowSeq = s.rowSeq ∧ u.colSeq = s.colSeq ∧ u.lutR = s.lutR ∧ u.lutC = s.lutC := by
  cases h with
  | build => exact absurd rfl hi
  | _ => exact ⟨rfl, rfl, rfl, rfl, rfl⟩

/-- Only ENCODE writes MAT_DIM and the matrix (10_state.md R23). -/
theorem CompletesWith.matrix_eq {s u : State} {i : Instr} {c : Code} (h : CompletesWith s i c u) (hi : i ≠ .encode) :
    u.matDim = s.matDim ∧ ∀ off, cellBits u off = cellBits s off := by
  cases h with
  | encode => exact absurd rfl hi
  | _ => exact ⟨rfl, fun _ => rfl⟩

/-- Only DECPOS writes RES_POS and RES_WIN (10_state.md R51). -/
theorem CompletesWith.position_eq {s u : State} {i : Instr} {c : Code} (h : CompletesWith s i c u) (hi : i ≠ .decpos) :
    u.resPos = s.resPos ∧ u.resWin = s.resWin := by
  cases h with
  | decpos | invalidWindow => exact absurd rfl hi
  | _ => exact ⟨rfl, rfl⟩

/-- Only DECSEC writes RES_SEC (10_state.md R51). -/
theorem CompletesWith.resSec_eq {s u : State} {i : Instr} {c : Code} (h : CompletesWith s i c u) (hi : i ≠ .decsec) :
    u.resSec = s.resSec := by
  cases h with
  | decsec => exact absurd rfl hi
  | _ => rfl

/-- Only DECROT writes RES_ROT (10_state.md R51). -/
theorem CompletesWith.resRot_eq {s u : State} {i : Instr} {c : Code} (h : CompletesWith s i c u) (hi : i ≠ .decrot) :
    u.resRot = s.resRot := by
  cases h with
  | decrot => exact absurd rfl hi
  | _ => rfl

/-- What no command writes (40_command_issue.md R106): every field but the results. -/
theorem CompletesWith.frame {s u : State} {i : Instr} {c : Code} (h : CompletesWith s i c u) :
    u = { s with
      built := u.built, rowSeq := u.rowSeq, colSeq := u.colSeq, lutR := u.lutR, lutC := u.lutC, mat := u.mat,
      matDim := u.matDim, resPos := u.resPos, resSec := u.resSec, resRot := u.resRot, resWin := u.resWin } := by
  cases h <;> rfl

/-- Settles O10, one result after the other: a command other than its writer has not written it. -/
theorem eachCommandWritesOnlyItsOwnState : Obligations.EachCommandWritesOnlyItsOwnState := by
  unfold Obligations.EachCommandWritesOnlyItsOwnState
  intro i s t h
  obtain ⟨c, u, hw, rfl⟩ := exec_next_cases h
  exact ⟨congrArg (·.complete c) hw.frame, hw.tables_eq, hw.matrix_eq, hw.position_eq, hw.resSec_eq, hw.resRot_eq⟩

/-! ### The word in flight -/

/-- The engine's step with a legal word in flight is its command (40_command_issue.md R101). -/
theorem engineStep_command {s : State} {w : Word} {i : Instr} (hcmd : s.cmd = some w) (hw : decodeWord w = .ok i) :
    engineStep s = exec i s := by
  rw [engineStep_busy s w hcmd, execWord_ok s hw]

/-- A word with reserved bits set or with a reserved opcode is no command's (30_encoding.md R82, R83). -/
theorem decodeWord_error_of_illegal {w : Word} (h : w.toNat / 256 ≠ 0 ∨ 6 ≤ w.toNat % 256) :
    ∃ e, decodeWord w = .error e := by
  obtain ⟨_, _, _, hlt⟩ | ⟨he, _⟩ | ⟨he, _, _⟩ := decodeWord_cases w
  · omega
  · exact ⟨_, he⟩
  · exact ⟨_, he⟩

/-- An idle write to CMD is the issue of its word (40_command_issue.md R100). -/
theorem hostWrite_cmd_idle {s : State} (w : Word) (hc : s.cmd = none) :
    hostWrite s 0x00C 4 w = (s.issue w).respond .written :=
  hostWrite_regAt (r := .cmd) rfl w hc

/-- Settles O42: the issue latches the word. -/
theorem issueOnlyLatchesTheWord : Obligations.IssueOnlyLatchesTheWord := by
  unfold Obligations.IssueOnlyLatchesTheWord
  intro s w hc
  rw [hostWrite_cmd_idle w hc]
  exact ⟨rfl, rfl⟩

/-- Settles O6: the issue asks nothing of the word, and a word that decodes to no command completes as illegal. -/
theorem illegalWordCompletesWithItsCode : Obligations.IllegalWordCompletesWithItsCode := by
  unfold Obligations.IllegalWordCompletesWithItsCode
  refine ⟨rfl, fun s w hw => ⟨fun hc => ?_, fun hc => ?_⟩⟩
  · rw [hostWrite_cmd_idle w hc]
    exact ⟨rfl, rfl⟩
  · obtain ⟨e, he⟩ := decodeWord_error_of_illegal hw
    rw [engineStep_busy s w hc, execWord_error s he]
    rfl

/-- Settles O12: NOP is the completion with OK. -/
theorem nopOnlyReportsSuccess : Obligations.NopOnlyReportsSuccess := by
  unfold Obligations.NopOnlyReportsSuccess
  exact ⟨rfl, fun _ => rfl, State.reset.complete .ok, rfl, by decide⟩

/-! ### One step -/

theorem step_of_events_nil {s : State} (h : s.events = []) : step s = engineStep s := by
  rw [step, nextTransition, h]

theorem step_of_events_cons {s : State} {e : Event} {rest : List Event} (h : s.events = e :: rest) :
    step s = runEvent e { s with events := rest } := by
  rw [step, nextTransition, h]

/-- A 32-bit word placed through its number is the word itself. -/
theorem State.withFetchWord_toNat (s : State) (w : Word) : s.withFetchWord 32 w.toNat = s.withCommandWord w := by
  rw [State.withFetchWord, Nat.mod_eq_of_lt w.isLt, BitVec.ofNat_toNat, BitVec.setWidth_eq]

/-- Settles O4: each of these steps is the engine's step, which runs the command of the word in flight. -/
theorem stepRunsTheDecodedCommand : Obligations.StepRunsTheDecodedCommand := by
  unfold Obligations.StepRunsTheDecodedCommand
  intro s w i hw
  refine ⟨fun hcmd he => ?_, fun rest hcmd he => ?_, ?_⟩
  · rw [step_of_events_nil he]
    exact engineStep_command hcmd hw
  · rw [step_of_events_cons he]
    exact engineStep_command hcmd hw
  · rw [s.withFetchWord_toNat, step_of_events_cons rfl]
    exact engineStep_command (s := { s with cmd := some w }) rfl hw

/-- Settles O5: a step with an event pending runs it, and each kind of event is its transition. -/
theorem stepTakesTheOldestTransition : Obligations.StepTakesTheOldestTransition := by
  unfold Obligations.StepTakesTheOldestTransition
  exact fun s _ _ _ => ⟨step_of_events_cons, step_of_events_cons, step_of_events_cons, step_of_events_cons,
    step_of_events_cons, step_of_events_nil, engineStep_idle s⟩

/-! ### The pending events run out -/

theorem CommandWrites.events_eq {s u : State} (h : CommandWrites s u) : u.events = s.events := by
  cases h <;> rfl

/-- The engine's step always answers, and leaves no command in flight (40_command_issue.md R101). -/
theorem engineStep_next (s : State) : ∃ t, engineStep s = .next t ∧ t.events = s.events ∧ t.cmd = none := by
  obtain ⟨hc, h⟩ | ⟨_, c, u, hw, h⟩ := engineStep_cases s
  · exact ⟨s, h, rfl, hc⟩
  · exact ⟨u.complete c, h, hw.events_eq, rfl⟩

theorem lockedWrite_events {s t : State} (h : t.events = s.events) : (lockedWrite s t).events = s.events := by
  unfold lockedWrite
  split
  · rfl
  · exact h

theorem ctrlWrite_events (s : State) (v : Word) : (ctrlWrite s v).events = s.events := by
  unfold ctrlWrite
  split <;> rfl

theorem regWrite_events (s : State) (r : Reg) (v : Word) : (regWrite s r v).events = s.events := by
  cases r with
  | ctrl => exact ctrlWrite_events s v
  | tapsRow | seedRow | tapsCol | seedCol => exact lockedWrite_events rfl
  | _ => rfl

theorem targetWrite_events (s : State) (v : Word) (t : Target) : (targetWrite s v t).events = s.events := by
  cases hb : s.busy with
  | false =>
    rw [targetWrite_idle v t (s.busy_eq_false.mp hb)]
    cases t with
    | reg r => exact regWrite_events s r v
    | _ => rfl
  | true =>
    rw [targetWrite_busy v t hb]
    unfold targetWriteBusy
    split
    · exact regWrite_events s .ctrl v
    · exact regWrite_events s .status v
    · rfl

/-- No host access changes what the environment has pending (40_command_issue.md R102). -/
theorem hostAccess_events (a : Access) (s : State) : (hostAccess a s).events = s.events := by
  cases a with
  | read off n => rw [hostAccess, hostRead_frame]
  | write off n v =>
    rw [hostAccess, hostWrite]
    split
    · rfl
    · split
      · rfl
      · exact targetWrite_events s v _

theorem busAccess_events (a : Access) (s : State) : (busAccess a s).events = s.events := by
  obtain h | ⟨b, h⟩ := busAccess_cases a s
  · rw [h]
  · rw [h, hostAccess_events]

/-- An access and a completion in one cycle always answer (60_exceptions.md R235). -/
theorem coincide_next (order : CycleOrder) (a : Access) (s : State) :
    ∃ t, coincide order a s = .next t ∧ t.events = s.events := by
  obtain ⟨_, h⟩ | ⟨_, h⟩ | ⟨_, _, _, h⟩ := coincide_cases order a s
  · exact ⟨_, h, hostAccess_events a s⟩
  · obtain ⟨t, ht, hev, _⟩ := engineStep_next (hostAccess a s)
    exact ⟨t, h.trans ht, hev.trans (hostAccess_events a s)⟩
  · obtain ⟨t, ht, hev, _⟩ := engineStep_next s
    exact ⟨hostAccess a t, by rw [h, engineThen, ht], (hostAccess_events a t).trans hev⟩

/-- Every event answers a next state, and adds no event (40_command_issue.md R102). -/
theorem runEvent_next (e : Event) (s : State) : ∃ t, runEvent e s = .next t ∧ t.events = s.events := by
  cases e with
  | host a => exact ⟨_, rfl, hostAccess_events a s⟩
  | bus a => exact ⟨_, rfl, busAccess_events a s⟩
  | engine =>
    obtain ⟨t, ht, hev, _⟩ := engineStep_next s
    exact ⟨t, ht, hev⟩
  | coincide order a => exact coincide_next order a s
  | reset => exact ⟨_, rfl, rfl⟩

/-- A run of one step more is that step and then the run. -/
theorem run_succ_of_step {M : Host.Core} {s t : M.State} (n : Nat) (h : M.step s = .next t) :
    M.run (n + 1) s = M.run n t := by
  rw [Host.Core.run, h]

/-- A run of one step more than the list of pending events takes the events one by one and then the engine's step. -/
theorem run_pending (es : List Event) {s : State} (hs : s.events = es) :
    ∃ t, Host.Core.run core (es.length + 1) s = .next t ∧ t.events = [] ∧ t.cmd = none := by
  induction es generalizing s with
  | nil =>
    obtain ⟨t, ht, hev, hc⟩ := engineStep_next s
    exact ⟨t, run_succ_of_step 0 ((step_of_events_nil hs).trans ht), hev.trans hs, hc⟩
  | cons e rest ih =>
    obtain ⟨u, hu, hev⟩ := runEvent_next e { s with events := rest }
    obtain ⟨t, ht, hdone⟩ := ih hev
    exact ⟨t, (run_succ_of_step _ ((step_of_events_cons hs).trans hu)).trans ht, hdone⟩

/-- Settles O11, by induction on the pending events. -/
theorem pendingEventsRunOutAndTheBlockIsIdle : Obligations.PendingEventsRunOutAndTheBlockIsIdle := by
  unfold Obligations.PendingEventsRunOutAndTheBlockIsIdle
  exact fun s => run_pending s.events rfl

/-! ### Host accesses while a command is in flight -/

/-- A write without a BusError has a target (20_memory.md R61). -/
theorem exists_target_of_hostWrite {s : State} {off n : Nat} {v : Word} (hoff : off < 0x8000)
    (h : (hostWrite s off n v).resp ≠ .busError) : ∃ t, target off n = some t := by
  refine Option.ne_none_iff_exists'.mp fun ht => h ?_
  rw [hostWrite_busError s v hoff ht]
  rfl

theorem target_ne_ctrl {off n : Nat} {t : Target} (ht : target off n = some t) (h : off ≠ 0x004) :
    t ≠ .reg .ctrl := by
  rintro rfl
  obtain ⟨_, _, _, hr⟩ := target_at ht
  exact h (regAt_ctrl hr)

theorem target_ne_status {off n : Nat} {t : Target} (ht : target off n = some t) (h : off ≠ 0x008) :
    t ≠ .reg .status := by
  rintro rfl
  obtain ⟨_, _, _, hr⟩ := target_at ht
  exact h (regAt_status hr)

/-- Settles O45: CTRL and STATUS are performed in every state, and any other target's write is dropped. -/
theorem busyWritesAreDroppedAndSetOvr : Obligations.BusyWritesAreDroppedAndSetOvr := by
  unfold Obligations.BusyWritesAreDroppedAndSetOvr
  intro s off n v hb
  refine ⟨?_, hostWrite_status s v, fun hoff hresp => ?_⟩
  · split
    · next h => exact hostWrite_ctrl_reset s h
    · next h => exact hostWrite_ctrl_ie s (Bool.eq_false_iff.mpr h)
  · obtain ⟨t, ht⟩ := exists_target_of_hostWrite hoff hresp
    refine ⟨⟨targetRead s t, by rw [hostRead_target hoff ht]⟩, fun hctrl hstatus => ?_⟩
    rw [hostWrite_target hoff ht, targetWrite_busy v t hb,
      targetWriteBusy_drop v (target_ne_ctrl ht hctrl) (target_ne_status ht hstatus)]
    rfl

end Sys2Proof.Machine

namespace Sys2Proof.Machine

/-! ### The LFSR step and its output (41_sequence_lut.md R120, R121) -/

/-- A shifted state with the feedback bit in bit 0, in numbers (41_sequence_lut.md R120). -/
theorem lfsrNext_toNat (taps st : BitVec 6) :
    (lfsrNext taps st).toNat = (2 * st.toNat + (if parity (st &&& taps) then 1 else 0)) % 64 := by
  have hbit : (bitOf 6 (lfsrFeedback taps st)).toNat = if parity (st &&& taps) then 1 else 0 := by
    unfold lfsrFeedback
    cases parity (st &&& taps) <;> rfl
  have hdisjoint : (st <<< 1) &&& bitOf 6 (lfsrFeedback taps st) = 0#6 := by
    apply BitVec.eq_of_getLsbD_eq
    intro i hi
    cases i <;> simp
  rw [lfsrNext, ← BitVec.add_eq_or_of_and_eq_zero _ _ hdisjoint, BitVec.toNat_add, hbit, BitVec.toNat_shiftLeft,
    Nat.shiftLeft_eq]
  split <;> omega

/-- Bit t of S_k is the output bit of S_(k+5−t). -/
theorem lfsrState_getLsbD (taps seed : BitVec 6) (k : Nat) {t : Nat} (ht : t < 6) :
    (lfsrState taps seed k).getLsbD t = lfsrOut (lfsrState taps seed (k + 5 - t)) := by
  have h := lfsrState_bit taps seed k (5 - t) (by omega)
  rwa [show 5 - (5 - t) = t by omega, show k + (5 - t) = k + 5 - t by omega] at h

/-- The bit that the step enters now is the output six steps later. -/
theorem lfsrOut_add_six (taps seed : BitVec 6) (k : Nat) :
    lfsrOut (lfsrState taps seed (k + 6)) = lfsrFeedback taps (lfsrState taps seed k) := by
  rw [← lfsrNext_getLsbD_zero, ← lfsrState, lfsrState_getLsbD _ _ _ (by omega)]
  rfl

/-- The recurrence of the output (41_sequence_lut.md R120). -/
theorem lfsrOut_recurrence (taps seed : BitVec 6) (k : Nat) :
    lfsrOut (lfsrState taps seed (k + 6)) =
      (List.range 6).foldl (fun x t => x ^^ (taps.getLsbD t && lfsrOut (lfsrState taps seed (k + 5 - t)))) false := by
  rw [lfsrOut_add_six, lfsrFeedback, parity]
  refine List.foldl_ext _ _ _ fun x t ht => ?_
  rw [BitVec.getLsbD_and, lfsrState_getLsbD _ _ _ (List.mem_range.mp ht), Bool.and_comm]

/-- s[k] of a generated sequence, with its cyclic index (41_sequence_lut.md R121). -/
theorem seqBit_genSeq (taps seed : BitVec 6) (k : Nat) :
    seqBit (genSeq taps seed) k = lfsrOut (lfsrState taps seed (k % 63)) :=
  genSeq_getLsbD taps seed (k % 63) (Nat.mod_lt _ (by omega))

/-- Settles O14: the step in numbers, and the recurrence by the bit that enters now and leaves six steps later. -/
theorem outputSatisfiesTheTapRecurrence : Obligations.OutputSatisfiesTheTapRecurrence := by
  unfold Obligations.OutputSatisfiesTheTapRecurrence
  exact ⟨fun taps st => ⟨rfl, lfsrNext_toNat taps st⟩, fun taps seed k =>
    ⟨rfl, rfl, lfsrOut_recurrence taps seed k, rfl, seqBit_genSeq taps seed k⟩⟩

/-! ### The LFSR is linear, so its impulse response decides (41_sequence_lut.md R120) -/

theorem foldl_xor_xor (f g : Nat → Bool) (ks : List Nat) (p q : Bool) :
    ks.foldl (fun x k => x ^^ (f k ^^ g k)) (p ^^ q) =
      (ks.foldl (fun x k => x ^^ f k) p ^^ ks.foldl (fun x k => x ^^ g k) q) := by
  induction ks generalizing p q with
  | nil => rfl
  | cons k ks ih =>
    have hswap : ((p ^^ q) ^^ (f k ^^ g k)) = ((p ^^ f k) ^^ (q ^^ g k)) := by
      rw [Bool.xor_assoc, Bool.xor_assoc, Bool.xor_left_comm q]
    rw [List.foldl_cons, List.foldl_cons, List.foldl_cons, hswap, ih]

theorem parity_xor (a b : BitVec 6) : parity (a ^^^ b) = (parity a ^^ parity b) := by
  simp only [parity, BitVec.getLsbD_xor]
  exact foldl_xor_xor a.getLsbD b.getLsbD _ false false

theorem lfsrFeedback_xor (taps a b : BitVec 6) :
    lfsrFeedback taps (a ^^^ b) = (lfsrFeedback taps a ^^ lfsrFeedback taps b) := by
  have h : (a ^^^ b) &&& taps = (a &&& taps) ^^^ (b &&& taps) := by
    ext i hi
    simp [Bool.and_xor_distrib_right]
  rw [lfsrFeedback, h, parity_xor]
  rfl

theorem lfsrNext_xor (taps a b : BitVec 6) : lfsrNext taps (a ^^^ b) = lfsrNext taps a ^^^ lfsrNext taps b := by
  apply BitVec.eq_of_getLsbD_eq
  intro i hi
  cases i with
  | zero => simp only [BitVec.getLsbD_xor, lfsrNext_getLsbD_zero, lfsrFeedback_xor]
  | succ j => simp only [BitVec.getLsbD_xor, lfsrNext_getLsbD_succ _ _ j (by omega)]

theorem lfsrState_xor (taps a b : BitVec 6) (k : Nat) :
    lfsrState taps (a ^^^ b) k = lfsrState taps a k ^^^ lfsrState taps b k := by
  induction k with
  | zero => rfl
  | succ k ih => rw [lfsrState, ih, lfsrNext_xor]; rfl

theorem lfsrState_zero (taps : BitVec 6) (k : Nat) : lfsrState taps 0 k = 0 := by
  have h := lfsrState_xor taps 0 0 k
  rwa [BitVec.xor_self, BitVec.xor_self] at h

/-- A state is the step of the state shifted down, but for its bit 0. -/
theorem eq_lfsrNext_shift (taps v : BitVec 6) :
    v = lfsrNext taps (v >>> 1) ^^^ bitOf 6 (v.getLsbD 0 ^^ lfsrFeedback taps (v >>> 1)) := by
  apply BitVec.eq_of_getLsbD_eq
  intro i hi
  cases i with
  | zero =>
    rw [BitVec.getLsbD_xor, lfsrNext_getLsbD_zero, getLsbD_bitOf]
    simp [Bool.xor_comm]
  | succ j => simp [lfsrNext_getLsbD_succ _ _ j (by omega), Nat.add_comm]

/-- The state 1 generates every state by steps and XOR. -/
theorem lfsr_induction {P : BitVec 6 → Prop} (taps : BitVec 6) (one : P 1) (xor : ∀ a b, P a → P b → P (a ^^^ b))
    (next : ∀ a, P a → P (lfsrNext taps a)) (v : BitVec 6) : P v := by
  have zero : P 0 := xor 1 1 one one
  have bit (b : Bool) : P (bitOf 6 b) := by
    cases b
    · exact zero
    · exact one
  induction hn : v.toNat using Nat.strong_induction_on generalizing v with
  | _ n ih =>
    by_cases h0 : v.toNat = 0
    · exact BitVec.eq_of_toNat_eq (y := 0) h0 ▸ zero
    · rw [eq_lfsrNext_shift taps v]
      refine xor _ _ (next _ (ih _ ?_ _ rfl)) (bit _)
      rw [BitVec.toNat_ushiftRight, Nat.shiftRight_eq_div_pow]
      omega

/-- Two step counts that agree on the state 1 agree on every state. -/
theorem lfsrState_eq_of_impulse {taps : BitVec 6} {i j : Nat} (h : lfsrState taps 1 i = lfsrState taps 1 j)
    (v : BitVec 6) : lfsrState taps v i = lfsrState taps v j := by
  induction v using lfsr_induction taps with
  | one => exact h
  | xor a b ha hb => rw [lfsrState_xor, lfsrState_xor, ha, hb]
  | next a ha => rw [lfsrState_next, lfsrState_next, lfsrState, lfsrState, ha]

/-! ### Periods -/

theorem lfsrState_add (taps seed : BitVec 6) (m n : Nat) :
    lfsrState taps seed (m + n) = lfsrState taps (lfsrState taps seed m) n := by
  induction n with
  | zero => rfl
  | succ n ih => rw [← Nat.add_assoc, lfsrState, ih, lfsrState]

theorem lfsrState_comm (taps seed : BitVec 6) (m n : Nat) :
    lfsrState taps (lfsrState taps seed m) n = lfsrState taps (lfsrState taps seed n) m := by
  rw [← lfsrState_add, Nat.add_comm, lfsrState_add]

/-- A seed that n steps reach again is reached by every multiple of n. -/
theorem lfsrState_mod {taps seed : BitVec 6} {n : Nat} (h : lfsrState taps seed n = seed) (k : Nat) :
    lfsrState taps seed (k % n) = lfsrState taps seed k := by
  have hmul (q : Nat) : lfsrState taps seed (n * q) = seed := by
    induction q with
    | zero => rfl
    | succ q ih => rw [Nat.mul_succ, lfsrState_add, ih, h]
  conv_rhs => rw [← Nat.div_add_mod k n, lfsrState_add, hmul]

/-- The period of the LFSR from a seed (41_sequence_lut.md R123, R127): n steps reach the seed again, and fewer do not. -/
abbrev HasPeriod (taps seed : BitVec 6) (n : Nat) : Prop :=
  lfsrState taps seed n = seed ∧ ∀ k, 1 ≤ k → k < n → lfsrState taps seed k ≠ seed

/-- Every state on the cycle has the period of the seed. -/
theorem HasPeriod.of_cycle {taps seed : BitVec 6} {n m : Nat} (h : HasPeriod taps seed n) (hm : m ≤ n) :
    HasPeriod taps (lfsrState taps seed m) n := by
  obtain ⟨hn, hlt⟩ := h
  have hback : lfsrState taps (lfsrState taps seed m) (n - m) = seed := by
    rw [← lfsrState_add, Nat.add_sub_cancel' hm, hn]
  refine ⟨by rw [lfsrState_comm, hn], fun k h1 hk hfix => hlt k h1 hk ?_⟩
  calc lfsrState taps seed k
      = lfsrState taps (lfsrState taps (lfsrState taps seed m) (n - m)) k := by rw [hback]
    _ = lfsrState taps (lfsrState taps (lfsrState taps seed m) k) (n - m) := lfsrState_comm ..
    _ = seed := by rw [hfix, hback]

/-- The states of one period are distinct. -/
theorem HasPeriod.states_ne {taps seed : BitVec 6} {n i j : Nat} (h : HasPeriod taps seed n) (hij : i < j)
    (hj : j < n) : lfsrState taps seed i ≠ lfsrState taps seed j := by
  have hne := (h.of_cycle (m := i) (by omega)).2 (j - i) (by omega) (by omega)
  rw [← lfsrState_add, Nat.add_sub_cancel' hij.le] at hne
  exact hne.symm

/-! ### The windows of a generated sequence (41_sequence_lut.md R122) -/

/-- A window that does not wrap around is the LFSR state at its index. -/
theorem window_genSeq (taps seed : BitVec 6) {k : Nat} (hk : k ≤ 57) :
    window (genSeq taps seed) k = lfsrState taps seed k := by
  refine (eq_packWindow fun j hj => ?_).symm
  rw [lfsrState_bit _ _ _ _ hj, seqBit_genSeq, Nat.mod_eq_of_lt (by omega)]

/-- If 63 steps reach the seed again, every window is the LFSR state at its index. -/
theorem window_genSeq_of_cycle {taps seed : BitVec 6} (h : lfsrState taps seed 63 = seed) (k : Nat) :
    window (genSeq taps seed) k = lfsrState taps seed k := by
  refine (eq_packWindow fun j hj => ?_).symm
  rw [lfsrState_bit _ _ _ _ hj, seqBit_genSeq, lfsrState_mod h]

/-! ### Maximality (41_sequence_lut.md R123, R127) -/

/-- The period test implies MaxCheck. -/
theorem HasPeriod.maxCheck {taps seed : BitVec 6} (h : HasPeriod taps seed 63) : maxCheck (genSeq taps seed) = true := by
  refine (maxCheck_iff _).mpr fun i j hij hj => ?_
  rw [window_genSeq_of_cycle h.1, window_genSeq_of_cycle h.1]
  exact h.states_ne hij hj

/-- The six TAPS values of 41_sequence_lut.md R127. -/
def maximalTaps : List (BitVec 6) := [0x21, 0x2D, 0x30, 0x33, 0x36, 0x39]

/-- Numbers of steps of which one is a multiple of the cycle's length, for each TAPS that is none of the six. -/
def cycleMultiples : List Nat := [24, 28, 30, 31, 36, 42]

/-- With any other TAPS the states from 1 repeat early: after at most 6 steps they are on their cycle. -/
theorem impulse_repeats_or_maximal : ∀ taps : BitVec 6, taps ∈ maximalTaps ∨
    ∃ q ∈ cycleMultiples, lfsrState taps 1 (6 + q) = lfsrState taps 1 6 := by decide +kernel

theorem impulse_hasPeriod : ∀ taps ∈ maximalTaps, HasPeriod taps 1 63 := by decide +kernel

/-- With TAPS that is none of the six, two of the states S_0 to S_57 are equal, from every seed. -/
theorem exists_repeat_of_not_mem {taps : BitVec 6} (h : taps ∉ maximalTaps) (seed : BitVec 6) :
    ∃ j, 6 < j ∧ j ≤ 57 ∧ lfsrState taps seed 6 = lfsrState taps seed j := by
  obtain ⟨q, hq, heq⟩ := (impulse_repeats_or_maximal taps).resolve_left h
  have hbound : ∀ q ∈ cycleMultiples, 0 < q ∧ q ≤ 51 := by decide
  obtain ⟨hpos, hle⟩ := hbound q hq
  exact ⟨6 + q, by omega, by omega, (lfsrState_eq_of_impulse heq seed).symm⟩

theorem mem_maximalTaps_of_maxCheck {taps seed : BitVec 6} (hm : maxCheck (genSeq taps seed) = true) :
    taps ∈ maximalTaps := by
  by_contra h
  obtain ⟨j, h6, hj, heq⟩ := exists_repeat_of_not_mem h seed
  rw [← window_genSeq _ _ (by omega), ← window_genSeq _ _ hj] at heq
  exact (maxCheck_iff _).mp hm 6 j h6 (by omega) heq

/-- Of a maximal generator, 63 steps reach the seed again. -/
theorem lfsrState_63_of_maxCheck {taps seed : BitVec 6} (hm : maxCheck (genSeq taps seed) = true) :
    lfsrState taps seed 63 = seed :=
  lfsrState_eq_of_impulse (j := 0) (impulse_hasPeriod taps (mem_maximalTaps_of_maxCheck hm)).1 seed

/-- Of a maximal generator every window is the LFSR state at its index (41_sequence_lut.md R122). -/
theorem window_genSeq_of_maxCheck {taps seed : BitVec 6} (hm : maxCheck (genSeq taps seed) = true) (k : Nat) :
    window (genSeq taps seed) k = lfsrState taps seed k :=
  window_genSeq_of_cycle (lfsrState_63_of_maxCheck hm) k

/-- Settles O15, by the bits of a window and of an LFSR state. -/
theorem windowsAreTheLfsrStates : Obligations.WindowsAreTheLfsrStates := by
  unfold Obligations.WindowsAreTheLfsrStates
  exact ⟨window_getLsbD, fun taps seed _ hk => window_genSeq taps seed hk,
    fun _ _ hm => ⟨fun k _ => window_genSeq_of_maxCheck hm k, window_genSeq_of_maxCheck hm 0⟩⟩

/-- MaxCheck of a generated sequence is the period test (41_sequence_lut.md R123). -/
theorem maxCheck_genSeq_iff (taps seed : BitVec 6) : maxCheck (genSeq taps seed) = true ↔ HasPeriod taps seed 63 := by
  refine ⟨fun hm => ⟨lfsrState_63_of_maxCheck hm, fun k h1 hk heq => ?_⟩, HasPeriod.maxCheck⟩
  refine (maxCheck_iff _).mp hm 0 k h1 hk ?_
  rw [window_genSeq_of_maxCheck hm, window_genSeq_of_maxCheck hm, heq]
  rfl

/-- A seed of 0 stays 0 (41_sequence_lut.md R123). -/
theorem maxCheck_genSeq_zero (taps : BitVec 6) : maxCheck (genSeq taps 0) = false := by
  refine Bool.eq_false_iff.mpr fun hm => ?_
  exact ((maxCheck_genSeq_iff taps 0).mp hm).2 1 (by omega) (by omega) (lfsrState_zero taps 1)

/-- Settles O16: a maximal generator has one of the six TAPS, whose 63rd step is the identity. -/
theorem maximalityIsTheFullPeriod : Obligations.MaximalityIsTheFullPeriod := by
  unfold Obligations.MaximalityIsTheFullPeriod
  exact ⟨maxCheck_iff, maxCheck_genSeq_iff, maxCheck_genSeq_zero⟩

/-- No window of a maximal generated sequence is 0, because the state 0 is never left (41_sequence_lut.md R125). -/
theorem window_genSeq_ne_zero {taps seed : BitVec 6} (hm : maxCheck (genSeq taps seed) = true) {i : Nat} (hi : i < 63) :
    window (genSeq taps seed) i ≠ 0 := by
  rw [window_genSeq_of_maxCheck hm]
  intro h0
  have hp := ((maxCheck_genSeq_iff taps seed).mp hm).of_cycle hi.le
  rw [h0] at hp
  exact hp.2 1 (by omega) (by omega) (lfsrState_zero taps 1)

/-- 63 distinct windows other than 0 are all the window values other than 0. -/
theorem exists_window_eq {s : SeqBits} (hm : maxCheck s = true) (h0 : ∀ i, i < 63 → window s i ≠ 0) {w : Window}
    (hw : w ≠ 0) : ∃ i, i < 63 ∧ window s i = w := by
  have hne {v : Window} (hv : v ≠ 0) : v.toNat ∈ Finset.Ico 1 64 :=
    Finset.mem_Ico.mpr ⟨Nat.pos_of_ne_zero fun h => hv (BitVec.eq_of_toNat_eq h), v.isLt⟩
  obtain ⟨i, hi, heq⟩ := Finset.surj_on_of_inj_on_of_card_le (s := Finset.range 63) (t := Finset.Ico 1 64)
    (fun i _ => (window s i).toNat) (fun i hi => hne (h0 i (Finset.mem_range.mp hi)))
    (fun i j hi hj h => window_inj hm (Finset.mem_range.mp hi) (Finset.mem_range.mp hj) (BitVec.eq_of_toNat_eq h))
    (by simp) w.toNat (hne hw)
  exact ⟨i, Finset.mem_range.mp hi, BitVec.eq_of_toNat_eq heq.symm⟩

/-- A state other than 0 is on the one cycle that the six TAPS have from 1. -/
theorem maxCheck_of_mem_maximalTaps {taps seed : BitVec 6} (ht : taps ∈ maximalTaps) (hs : seed ≠ 0) :
    maxCheck (genSeq taps seed) = true := by
  have hp := impulse_hasPeriod taps ht
  obtain ⟨m, hlt, hm⟩ := exists_window_eq hp.maxCheck (fun _ => window_genSeq_ne_zero hp.maxCheck) hs
  rw [window_genSeq_of_cycle hp.1] at hm
  exact hm ▸ (hp.of_cycle hlt.le).maxCheck

/-- The maximal generators (41_sequence_lut.md R127). -/
theorem maxCheck_genSeq_iff_taps (taps seed : BitVec 6) :
    maxCheck (genSeq taps seed) = true ↔ seed ≠ 0 ∧ taps ∈ maximalTaps := by
  refine ⟨fun hm => ⟨?_, mem_maximalTaps_of_maxCheck hm⟩, fun ⟨hs, ht⟩ => maxCheck_of_mem_maximalTaps ht hs⟩
  rintro rfl
  exact absurd hm (Bool.eq_false_iff.mp (maxCheck_genSeq_zero taps))

/-- Settles O17: the maximal generators, and the two example periods computed. -/
theorem sixTapMasksAreMaximal : Obligations.SixTapMasksAreMaximal := by
  unfold Obligations.SixTapMasksAreMaximal
  have hTen : HasPeriod 0x31 0x20 10 := by decide
  have hSeven : HasPeriod 0x3F 0x20 7 := by decide
  exact ⟨maxCheck_genSeq_iff_taps, hTen, hSeven, rfl, rfl⟩

/-! ### The table of a maximal sequence (41_sequence_lut.md R124, R125) -/

/-- Every window of a sequence with distinct windows is found at its index. -/
theorem lutGet_window {s : SeqBits} (hm : maxCheck s = true) {i : Nat} (hi : i < 63) :
    lutGet (buildLut s).1 (window s i) = some (BitVec.ofNat 6 i) := by
  obtain ⟨_, hentry, _⟩ := buildLut_maximal hm
  exact lutGet_of_entry (hentry i hi)

/-- In the table of a maximal generator the entry of 0 is the only invalid one. -/
theorem lutEntry_zero_of_maxCheck {taps seed : BitVec 6} (hm : maxCheck (genSeq taps seed) = true) :
    lutEntry (buildLut (genSeq taps seed)).1 0 = { valid := false, index := 0 } := by
  obtain ⟨_, _, hmiss⟩ := buildLut_maximal hm
  exact hmiss 0 fun _ hi => window_genSeq_ne_zero hm hi

/-- In the table of a maximal generator only 0 misses. -/
theorem lutGet_eq_none_iff {taps seed : BitVec 6} (hm : maxCheck (genSeq taps seed) = true) (w : Window) :
    lutGet (buildLut (genSeq taps seed)).1 w = none ↔ w = 0 := by
  constructor
  · intro hnone
    by_contra hw
    obtain ⟨i, hi, rfl⟩ := exists_window_eq hm (fun _ => window_genSeq_ne_zero hm) hw
    rw [lutGet_window hm hi] at hnone
    cases hnone
  · rintro rfl
    rw [lutGet, lutEntry_zero_of_maxCheck hm]
    rfl

/-! ### BUILD (41_sequence_lut.md R126, R128, R129) -/

/-- BUILD with two maximal generators installs their sequences and tables. -/
theorem exec_build_of_maximal {s : State} (hb : s.built = false)
    (hr : maxCheck (genSeq s.tapsRow s.seedRow) = true) (hc : maxCheck (genSeq s.tapsCol s.seedCol) = true) :
    exec .build s = .next ((s.installTables (genSeq s.tapsRow s.seedRow) (genSeq s.tapsCol s.seedCol)
      (buildLut (genSeq s.tapsRow s.seedRow)).1 (buildLut (genSeq s.tapsCol s.seedCol)).1).complete .ok) := by
  obtain ⟨hb', _⟩ | ⟨_, hmax, _⟩ | ⟨_, _, _, hcoll, _⟩ | ⟨_, _, _, _, _, h⟩ := execBuild_cases s
  · simp [hb] at hb'
  · simp [hr, hc] at hmax
  · simp [(buildLut_maximal hr).1, (buildLut_maximal hc).1] at hcoll
  · exact h

/-- Settles O13: the cases of BUILD, of which a collision does not happen after both maximality checks. -/
theorem buildFollowsItsRule : Obligations.BuildFollowsItsRule := by
  unfold Obligations.BuildFollowsItsRule
  refine fun s => ⟨fun hb => ?_, fun hb hmax => ?_, exec_build_of_maximal⟩
  · obtain ⟨_, h⟩ | ⟨hb', _⟩ | ⟨hb', _⟩ | ⟨hb', _⟩ := execBuild_cases s
    · exact h
    all_goals simp [hb] at hb'
  · obtain ⟨hb', _⟩ | ⟨_, _, h⟩ | ⟨_, hr, hc, _⟩ | ⟨_, hr, hc, _⟩ := execBuild_cases s
    · simp [hb] at hb'
    · exact h
    all_goals simp [hr, hc] at hmax

/-- What a successful BUILD leaves: sequences that pass MaxCheck, and their tables. -/
theorem tables_of_build_ok {s t : State} (h : exec .build s = .next t) (hok : t.errcode = .ok) :
    (maxCheck t.rowSeq = true ∧ t.lutR = (buildLut t.rowSeq).1) ∧
    maxCheck t.colSeq = true ∧ t.lutC = (buildLut t.colSeq).1 := by
  obtain ⟨_, h'⟩ | ⟨_, _, h'⟩ | ⟨_, _, _, _, h'⟩ | ⟨_, hr, hc, _, _, h'⟩ := execBuild_cases s
  all_goals
    obtain rfl : _ = t := Host.Outcome.next.inj (h'.symm.trans h)
  · cases hok
  · cases hok
  · cases hok
  · exact ⟨⟨hr, rfl⟩, hc, rfl⟩

/-- Settles O18, by what the table of a sequence with distinct windows holds. -/
theorem lookupFindsEveryWindow : Obligations.LookupFindsEveryWindow := by
  unfold Obligations.LookupFindsEveryWindow
  refine ⟨fun _ _ => rfl, fun s hm => ⟨(buildLut_maximal hm).1, fun i => lutGet_window hm⟩,
    fun _ _ => lutGet_eq_none_iff, fun s t h hok => ?_⟩
  obtain ⟨⟨hr, hlr⟩, hc, hlc⟩ := tables_of_build_ok h hok
  refine ⟨fun i j hij hj => ⟨(maxCheck_iff _).mp hr i j hij hj, (maxCheck_iff _).mp hc i j hij hj⟩, fun i hi => ?_⟩
  rw [hlr, hlc]
  exact ⟨lutGet_window hr hi, lutGet_window hc hi⟩

/-- In the table of a maximal generator the entry of the seed is index 0. -/
theorem lutEntry_seed_of_maxCheck {taps seed : BitVec 6} (hm : maxCheck (genSeq taps seed) = true) :
    lutEntry (buildLut (genSeq taps seed)).1 seed = { valid := true, index := 0 } := by
  obtain ⟨_, hentry, _⟩ := buildLut_maximal hm
  have h := hentry 0 (by omega)
  rwa [window_genSeq _ _ (by omega)] at h

/-- STATUS shows BUILT, and nothing else of what BUILD installs (10_state.md R26). -/
theorem statusWord_installTables (s : State) (sr sc : SeqBits) (tr tc : Lut) (c : Code) :
    statusWord ((s.installTables sr sc tr tc).complete c) = statusWord ({ s with built := true }.complete c) := rfl

/-- Settles O19: the sequences and states are computed, and the table entries are those of any maximal generator. -/
theorem buildFromResetGivesTheReferenceTables : Obligations.BuildFromResetGivesTheReferenceTables := by
  unfold Obligations.BuildFromResetGivesTheReferenceTables
  have hr : maxCheck (genSeq State.reset.tapsRow State.reset.seedRow) = true :=
    maxCheck_of_mem_maximalTaps (by decide) (by decide)
  have hc : maxCheck (genSeq State.reset.tapsCol State.reset.seedCol) = true :=
    maxCheck_of_mem_maximalTaps (by decide) (by decide)
  have hstatus : statusWord ({ State.reset with built := true }.complete .ok) = 0x00000006 := by decide
  have hbuild := exec_build_of_maximal (s := State.reset) rfl hr hc
  refine ⟨by decide, by decide, lfsrState_63_of_maxCheck hr, lfsrState_63_of_maxCheck hc, _, hbuild, rfl, rfl,
    (statusWord_installTables ..).trans hstatus, ?_⟩
  simp only [State.complete_rowSeq, State.complete_colSeq, State.complete_lutR, State.complete_lutC,
    State.installTables_rowSeq, State.installTables_colSeq, State.installTables_lutR, State.installTables_lutC]
  refine ⟨?rowBits, ?colBits, lutEntry_seed_of_maxCheck hr, lutEntry_seed_of_maxCheck hc,
    congrArg LutEntry.valid (lutEntry_zero_of_maxCheck hr), congrArg LutEntry.valid (lutEntry_zero_of_maxCheck hc),
    ?rowWindows, ?colWindows⟩
  all_goals decide +kernel

end Sys2Proof.Machine

namespace Sys2Proof.Machine

/-! ### The CRC is linear (42_encode.md R155) -/

theorem crcStep_eq (c : BitVec 6) (m : Bool) :
    crcStep c m = (c <<< 1) ^^^ (if c.getLsbD 5 ^^ m then 0x03 else 0) := by
  unfold crcStep
  split
  · rfl
  · exact (BitVec.xor_zero).symm

theorem crcStep_xor (c d : BitVec 6) (m n : Bool) : crcStep (c ^^^ d) (m ^^ n) = crcStep c m ^^^ crcStep d n := by
  have hshift : (c ^^^ d) <<< 1 = (c <<< 1) ^^^ (d <<< 1) := BitVec.shiftLeft_xor_distrib c d 1
  have htop : ((c ^^^ d).getLsbD 5 ^^ (m ^^ n)) = ((c.getLsbD 5 ^^ m) ^^ (d.getLsbD 5 ^^ n)) := by
    rw [BitVec.getLsbD_xor, Bool.xor_assoc, Bool.xor_left_comm _ m, ← Bool.xor_assoc]
  have hfeedback : ∀ p q : Bool, (if p ^^ q then (0x03 : BitVec 6) else 0) =
      (if p then 0x03 else 0) ^^^ (if q then 0x03 else 0) := by decide
  rw [crcStep_eq, crcStep_eq, crcStep_eq, hshift, htop, hfeedback]
  ac_rfl

theorem foldl_crcStep_xor (f g : Nat → Bool) (ks : List Nat) (c d : BitVec 6) :
    ks.foldl (fun x k => crcStep x (f k ^^ g k)) (c ^^^ d) =
      ks.foldl (fun x k => crcStep x (f k)) c ^^^ ks.foldl (fun x k => crcStep x (g k)) d := by
  induction ks generalizing c d with
  | nil => rfl
  | cons k ks ih => rw [List.foldl_cons, List.foldl_cons, List.foldl_cons, crcStep_xor, ih]

theorem crcOf_xor (m n : BitVec 16) : crcOf (m ^^^ n) = crcOf m ^^^ crcOf n := by
  simp only [crcOf, BitVec.getLsbD_xor]
  exact foldl_crcStep_xor (fun k => m.getLsbD (15 - k)) (fun k => n.getLsbD (15 - k)) _ 0 0

/-! ### The CRC of a burst (42_encode.md R155) -/

/-- Doubling a message whose top bit is 0 is one more step of its CRC, with the message bit 0. -/
theorem crcOf_shiftLeft_one {m : BitVec 16} (h : m.getLsbD 15 = false) : crcOf (m <<< 1) = crcStep (crcOf m) false := by
  have hfirst : crcOf m = (List.range 15).foldl (fun c k => crcStep c (m.getLsbD (14 - k))) 0 := by
    rw [crcOf, List.range_succ_eq_map, List.foldl_cons, List.foldl_map, h]
    refine List.foldl_ext _ _ _ fun c k hk => ?_
    rw [show 15 - k.succ = 14 - k by omega]
  have hlast : (m <<< 1).getLsbD 0 = false := by simp
  rw [hfirst, crcOf, List.range_succ, List.foldl_append, List.foldl_cons, List.foldl_nil, hlast]
  refine congrArg (crcStep · false) (List.foldl_ext _ _ _ fun c k hk => ?_)
  have hk' := List.mem_range.mp hk
  rw [BitVec.getLsbD_shiftLeft, show 15 - k - 1 = 14 - k by omega]
  simp [show 15 - k < 16 by omega, show 15 - k ≠ 0 by omega]

/-- The step with the message bit 0 loses nothing: it is a product by x modulo a polynomial with constant term 1. -/
theorem crcStep_false_ne_zero : ∀ c : BitVec 6, c ≠ 0 → crcStep c false ≠ 0 := by decide

theorem crcOf_lowest_burst_ne_zero : ∀ burst : BitVec 6, burst ≠ 0 → crcOf (burst.setWidth 16) ≠ 0 := by
  decide +kernel

theorem crcOf_burst_ne_zero {burst : BitVec 6} (h : burst ≠ 0) {n : Nat} (hn : n ≤ 10) :
    crcOf (burst.setWidth 16 <<< n) ≠ 0 := by
  induction n with
  | zero => simpa using crcOf_lowest_burst_ne_zero burst h
  | succ n ih =>
    have htop : (burst.setWidth 16 <<< n).getLsbD 15 = false := by
      have : burst.getLsbD (15 - n) = false := BitVec.getLsbD_of_ge _ _ (by omega)
      simp [this]
    rw [BitVec.shiftLeft_add, crcOf_shiftLeft_one htop]
    exact crcStep_false_ne_zero _ (ih (by omega))

/-- Settles O21: by linearity the CRC changes by the CRC of the burst, which is not 0 at any position. -/
theorem crcDetectsShortBursts : Obligations.CrcDetectsShortBursts := by
  unfold Obligations.CrcDetectsShortBursts
  refine ⟨by decide +kernel, fun m burst n hn hb heq => crcOf_burst_ne_zero hb hn ?_⟩
  rw [crcOf_xor] at heq
  exact xor_left_eq_self_iff.mp heq

/-! ### The slots of a tile (42_encode.md R152, R153) -/

theorem isAddressPhase_iff {p : Nat} : isAddressPhase p = true ↔ p = 0 ∨ p = 3 := by simp [isAddressPhase]

theorem isAddressPhase_three_mul {b : Nat} (hb : b < 2) : isAddressPhase (3 * b) = true :=
  isAddressPhase_iff.mpr (by omega)

/-- The only A address cell of a tile with slot k. -/
theorem slotA_eq_iff {rho gamma : Nat} (k : Nat) (h : isAddressPhase gamma = true) :
    slotA rho gamma = k ↔ rho = k / 2 ∧ gamma = 3 * (k % 2) := by
  have := isAddressPhase_iff.mp h
  unfold slotA
  omega

/-- The only B address cell of a tile with slot 12 + k. -/
theorem slotB_eq_iff {rho gamma : Nat} (k : Nat) (hgamma : gamma < 6) (h : isAddressPhase rho = true) :
    slotB rho gamma = 12 + k ↔ rho = 3 * (k / 6) ∧ gamma = k % 6 := by
  have := isAddressPhase_iff.mp h
  unfold slotB
  omega

/-! ### The channels of an embedded cell (42_encode.md R156) -/

theorem embed_a_of_address {c : Nat} (h : isAddressPhase (phase c) = true) (rowSeq colSeq : SeqBits)
    (sx sy : BitVec 8) (r : Nat) :
    (embed rowSeq colSeq sx sy r c).a = (seqBit rowSeq r ^^ (payload sx sy).getLsbD (slotA (phase r) (phase c))) := by
  rw [embed_a, maskA_of_address h]

theorem embed_a_of_not {c : Nat} (h : isAddressPhase (phase c) = false) (rowSeq colSeq : SeqBits)
    (sx sy : BitVec 8) (r : Nat) : (embed rowSeq colSeq sx sy r c).a = seqBit rowSeq r := by
  rw [embed_a, maskA_of_not h, Bool.xor_false]

theorem embed_b_of_address {r : Nat} (h : isAddressPhase (phase r) = true) (rowSeq colSeq : SeqBits)
    (sx sy : BitVec 8) (c : Nat) :
    (embed rowSeq colSeq sx sy r c).b = (seqBit colSeq c ^^ (payload sx sy).getLsbD (slotB (phase r) (phase c))) := by
  rw [embed_b, maskB_of_address h]

theorem embed_b_of_not {r : Nat} (h : isAddressPhase (phase r) = false) (rowSeq colSeq : SeqBits)
    (sx sy : BitVec 8) (c : Nat) : (embed rowSeq colSeq sx sy r c).b = seqBit colSeq c := by
  rw [embed_b, maskB_of_not h, Bool.xor_false]

theorem embed_mod (rowSeq colSeq : SeqBits) (sx sy : BitVec 8) (r c : Nat) :
    embed rowSeq colSeq sx sy (r % 63) (c % 63) = embed rowSeq colSeq sx sy r c := by
  simp [embed, rowIndex, colIndex, phase_mod]

/-- Settles O22: each slot by the one cell that carries it, each channel by whether its cell is an address cell. -/
theorem embedIsTheEmbeddingRule : Obligations.EmbedIsTheEmbeddingRule := by
  unfold Obligations.EmbedIsTheEmbeddingRule
  refine ⟨fun k hk => ?_, fun k hlo hhi => ?_, fun rowSeq colSeq sx sy r c => ⟨?_, ?_, embed_mod ..⟩⟩
  · have hcell : isAddressPhase (3 * (k % 2)) = true := isAddressPhase_three_mul (by omega)
    exact ⟨k / 2, 3 * (k % 2), ⟨by omega, by omega, hcell, (slotA_eq_iff k hcell).mpr ⟨rfl, rfl⟩⟩,
      fun _ _ _ _ h hslot => (slotA_eq_iff k h).mp hslot⟩
  · obtain ⟨k, rfl⟩ := Nat.exists_eq_add_of_le hlo
    have hcell : isAddressPhase (3 * (k / 6)) = true := isAddressPhase_three_mul (by omega)
    exact ⟨3 * (k / 6), k % 6, ⟨by omega, by omega, hcell, (slotB_eq_iff k (by omega) hcell).mpr ⟨rfl, rfl⟩⟩,
      fun _ _ _ hgamma h hslot => (slotB_eq_iff k hgamma h).mp hslot⟩
  · split
    · next h => exact embed_a_of_address (isAddressPhase_iff.mpr h) ..
    · next h => exact embed_a_of_not (Bool.eq_false_iff.mpr (mt isAddressPhase_iff.mp h)) ..
  · split
    · next h => exact embed_b_of_address (isAddressPhase_iff.mpr h) ..
    · next h => exact embed_b_of_not (Bool.eq_false_iff.mpr (mt isAddressPhase_iff.mp h)) ..

/-! ### ENCODE (42_encode.md R157) -/

/-- ENCODE with all its checks passed writes the matrix. -/
theorem exec_encode_of_admitted {s : State} (hb : s.built = true) (hr : viewRows s ≤ 128) (hc : viewCols s ≤ 128)
    (hsx : argSx s < 256) (hsy : argSy s < 256) : exec .encode s = .next (s.encoded.complete .ok) := by
  obtain ⟨hb', _⟩ | ⟨_, hdim, _⟩ | ⟨_, _, _, hsec, _⟩ | ⟨_, _, _, _, _, h⟩ := execEncode_cases s
  · simp [hb] at hb'
  · omega
  · omega
  · exact h

/-- A successful ENCODE has passed all its checks and leaves the written matrix. -/
theorem encoded_of_encode_ok {s t : State} (h : exec .encode s = .next t) (hok : t.errcode = .ok) :
    viewCols s ≤ 128 ∧ argSx s < 256 ∧ argSy s < 256 ∧ t = s.encoded.complete .ok := by
  obtain ⟨_, h'⟩ | ⟨_, _, h'⟩ | ⟨_, _, _, _, h'⟩ | ⟨_, _, hc, hsx, hsy, h'⟩ := execEncode_cases s
  all_goals
    obtain rfl : _ = t := Host.Outcome.next.inj (h'.symm.trans h)
  · cases hok
  · cases hok
  · cases hok
  · exact ⟨hc, hsx, hsy, rfl⟩

/-- Inside the shape a cell of the completed ENCODE holds its embedded dot. -/
theorem dotAt_encoded_complete (s : State) (code : Code) {r c : Nat} (hC : viewCols s ≤ 128) (hr : r < viewRows s)
    (hc : c < viewCols s) : dotAt (s.encoded.complete code) r c =
      embed s.rowSeq s.colSeq (s.argSec.sx.setWidth 8) (s.argSec.sy.setWidth 8) r c :=
  (dotAt_congr rfl rfl r c).trans (dotAt_encoded s hC hr hc)

/-- Settles O23: each clause is one answer of ENCODE; the cells of a success are those of `State.encoded`. -/
theorem encodeFollowsItsRule : Obligations.EncodeFollowsItsRule := by
  unfold Obligations.EncodeFollowsItsRule
  refine ⟨rfl, fun s r c _ _ => ⟨rfl, rfl⟩, fun s => ⟨fun hb => ?notBuilt,
    fun hb (hdim : 128 < viewRows s ∨ 128 < viewCols s) => ?shape,
    fun hb (hr : viewRows s ≤ 128) (hc : viewCols s ≤ 128) (hsec : 256 ≤ argSx s ∨ 256 ≤ argSy s) => ?sectionRange,
    fun hb (hr : viewRows s ≤ 128) (hc : viewCols s ≤ 128) hsx hsy => ?success⟩⟩
  case notBuilt =>
    obtain ⟨_, h⟩ | ⟨hb', _⟩ | ⟨hb', _⟩ | ⟨hb', _⟩ := execEncode_cases s
    · exact h
    all_goals simp [hb] at hb'
  case shape =>
    obtain ⟨hb', _⟩ | ⟨_, _, h⟩ | ⟨_, hr, hc, _⟩ | ⟨_, hr, hc, _⟩ := execEncode_cases s
    · simp [hb] at hb'
    · exact h
    all_goals omega
  case sectionRange =>
    obtain ⟨hb', _⟩ | ⟨_, hdim, _⟩ | ⟨_, _, _, _, h⟩ | ⟨_, _, _, hsx, hsy, _⟩ := execEncode_cases s
    · simp [hb] at hb'
    · omega
    · exact h
    · omega
  case success =>
    exact ⟨_, exec_encode_of_admitted hb hr hc hsx hsy, rfl, fun r c => dotAt_encoded_complete s .ok hc,
      fun off hoff => (cellBits_congr rfl rfl off).trans (cellBits_encoded_outside s hoff)⟩

/-! ### A tile shows the whole payload (42_encode.md R158) -/

theorem phase_of_lt {x : Nat} (h : x < 6) : phase x = x := by
  simp only [phase, Config.seqLen, Config.tile]
  omega

/-- Channel A of the cell of the first tile that carries payload bit k. -/
theorem embed_a_slot (rowSeq colSeq : SeqBits) (sx sy : BitVec 8) {k : Nat} (hk : k < 12) :
    (embed rowSeq colSeq sx sy (k / 2) (3 * (k % 2))).a = (seqBit rowSeq (k / 2) ^^ (payload sx sy).getLsbD k) := by
  have hcell : isAddressPhase (3 * (k % 2)) = true := isAddressPhase_three_mul (by omega)
  have hphase : phase (3 * (k % 2)) = 3 * (k % 2) := phase_of_lt (by omega)
  rw [embed_a_of_address (by rwa [hphase]), hphase, phase_of_lt (by omega), (slotA_eq_iff k hcell).mpr ⟨rfl, rfl⟩]

/-- Channel B of the cell of the first tile that carries payload bit 12 + k. -/
theorem embed_b_slot (rowSeq colSeq : SeqBits) (sx sy : BitVec 8) {k : Nat} (hk : k < 12) :
    (embed rowSeq colSeq sx sy (3 * (k / 6)) (k % 6)).b = (seqBit colSeq (k % 6) ^^ (payload sx sy).getLsbD (12 + k)) := by
  have hcell : isAddressPhase (3 * (k / 6)) = true := isAddressPhase_three_mul (by omega)
  have hphase : phase (3 * (k / 6)) = 3 * (k / 6) := phase_of_lt (by omega)
  rw [embed_b_of_address (by rwa [hphase]), hphase, phase_of_lt (by omega),
    (slotB_eq_iff k (by omega) hcell).mpr ⟨rfl, rfl⟩]

/-- Two embeddings over the same sequences that agree on the first tile embed the same payload. -/
theorem payload_eq_of_embed_eq {rowSeq colSeq : SeqBits} {sx sy sx' sy' : BitVec 8}
    (h : ∀ r c, r < 6 → c < 6 → embed rowSeq colSeq sx sy r c = embed rowSeq colSeq sx' sy' r c) :
    payload sx sy = payload sx' sy' := by
  apply BitVec.eq_of_getLsbD_eq
  intro k hk
  by_cases hA : k < 12
  · have hdot := congrArg Dot.a (h (k / 2) (3 * (k % 2)) (by omega) (by omega))
    rwa [embed_a_slot _ _ _ _ hA, embed_a_slot _ _ _ _ hA, Bool.xor_right_inj] at hdot
  · obtain ⟨k, rfl⟩ := Nat.exists_eq_add_of_le (Nat.le_of_not_lt hA)
    have hdot := congrArg Dot.b (h (3 * (k / 6)) (k % 6) (by omega) (by omega))
    rwa [embed_b_slot _ _ _ _ (by omega), embed_b_slot _ _ _ _ (by omega), Bool.xor_right_inj] at hdot

theorem payload_inj {sx sy sx' sy' : BitVec 8} (h : payload sx sy = payload sx' sy') : sx = sx' ∧ sy = sy' := by
  have hx := congrArg payloadSx h
  have hy := congrArg payloadSy h
  rw [payloadSx_payload, payloadSx_payload] at hx
  rw [payloadSy_payload, payloadSy_payload] at hy
  exact ⟨hx, hy⟩

/-- A section address in range is determined by the low bytes of its coordinates. -/
theorem SectionAddr.eq_of_setWidth_eq {x y : SectionAddr} (hx : x.sx.toNat < 256 ∧ x.sy.toNat < 256)
    (hy : y.sx.toNat < 256 ∧ y.sy.toNat < 256) (hsx : x.sx.setWidth 8 = y.sx.setWidth 8)
    (hsy : x.sy.setWidth 8 = y.sy.setWidth 8) : x = y := by
  obtain ⟨xsx, xsy⟩ := x
  obtain ⟨ysx, ysy⟩ := y
  rw [SectionAddr.mk.injEq]
  constructor <;> bv_omega

/-- Settles O24: matrices that agree on the first tile carry one payload, and so one section. -/
theorem distinctSectionsEncodeDifferently : Obligations.DistinctSectionsEncodeDifferently := by
  unfold Obligations.DistinctSectionsEncodeDifferently
  intro s₁ s₂ t₁ t₂ h₁ h₂ hok₁ hok₂ hrow hcol hview hrows hcols hne
  obtain ⟨hC₁, hsx₁, hsy₁, rfl⟩ := encoded_of_encode_ok h₁ hok₁
  obtain ⟨hC₂, hsx₂, hsy₂, rfl⟩ := encoded_of_encode_ok h₂ hok₂
  by_contra! hsame
  have htile : ∀ r c, r < 6 → c < 6 →
      embed s₁.rowSeq s₁.colSeq (s₁.argSec.sx.setWidth 8) (s₁.argSec.sy.setWidth 8) r c =
        embed s₁.rowSeq s₁.colSeq (s₂.argSec.sx.setWidth 8) (s₂.argSec.sy.setWidth 8) r c := by
    intro r c hr hc
    have hr₁ : r < viewRows s₁ := Nat.lt_of_lt_of_le hr hrows
    have hc₁ : c < viewCols s₁ := Nat.lt_of_lt_of_le hc hcols
    have hr₂ : r < viewRows s₂ := by rwa [viewRows, ← hview]
    have hc₂ : c < viewCols s₂ := by rwa [viewCols, ← hview]
    have hdot := hsame r c hr₁ hc₁
    rwa [dotAt_encoded_complete s₁ .ok hC₁ hr₁ hc₁, dotAt_encoded_complete s₂ .ok hC₂ hr₂ hc₂, ← hrow, ← hcol] at hdot
  obtain ⟨hsx, hsy⟩ := payload_inj (payload_eq_of_embed_eq htile)
  exact hne (SectionAddr.eq_of_setWidth_eq ⟨hsx₁, hsy₁⟩ ⟨hsx₂, hsy₂⟩ hsx hsy)

/-! ### Address cells among three in a row (42_encode.md R159) -/

/-- Of three consecutive indices exactly one has an address phase. -/
theorem address_one_of_three (x : Nat) :
    (isAddressPhase (phase x) = true ∧ isAddressPhase (phase (x + 1)) = false ∧ isAddressPhase (phase (x + 2)) = false) ∨
    (isAddressPhase (phase x) = false ∧ isAddressPhase (phase (x + 1)) = true ∧ isAddressPhase (phase (x + 2)) = false) ∨
    (isAddressPhase (phase x) = false ∧ isAddressPhase (phase (x + 1)) = false ∧ isAddressPhase (phase (x + 2)) = true) := by
  simp only [isAddressPhase_phase, decide_eq_true_eq, decide_eq_false_iff_not]
  omega

/-- What holds of every index without an address phase holds of two in any three consecutive ones. -/
theorem maj_of_not_address {f : Nat → Bool} (h : ∀ y, isAddressPhase (phase y) = false → f y = true) (x : Nat) :
    maj (f x) (f (x + 1)) (f (x + 2)) = true := by
  obtain ⟨_, h₁, h₂⟩ | ⟨h₁, _, h₂⟩ | ⟨h₁, h₂, _⟩ := address_one_of_three x
  all_goals simp [maj, h _ h₁, h _ h₂]

/-- Settles O25: a cell that is no address cell of a channel shows its base bit. -/
theorem baseBitsSurviveInTwoOfThree : Obligations.BaseBitsSurviveInTwoOfThree := by
  unfold Obligations.BaseBitsSurviveInTwoOfThree
  refine ⟨fun x => ?_, fun rowSeq colSeq sx sy r c => ⟨?_, ?_⟩⟩
  · obtain ⟨h₀, h₁, h₂⟩ | ⟨h₀, h₁, h₂⟩ | ⟨h₀, h₁, h₂⟩ := address_one_of_three x
    all_goals simp [h₀, h₁, h₂]
  · exact maj_of_not_address (f := fun y => (embed rowSeq colSeq sx sy r y).a == seqBit rowSeq r)
      (fun y hy => by simp [embed_a_of_not hy]) c
  · exact maj_of_not_address (f := fun y => (embed rowSeq colSeq sx sy y c).b == seqBit colSeq c)
      (fun y hy => by simp [embed_b_of_not hy]) r

end Sys2Proof.Machine

namespace Sys2Proof.Machine

/-! ### Valid payloads (43_decode.md R187) -/

theorem payloadSx_getLsbD (p : PayloadBits) {k : Nat} (hk : k < 8) : (payloadSx p).getLsbD k = p.getLsbD (13 + k) := by
  simp [payloadSx, hk]

theorem payloadSy_getLsbD (p : PayloadBits) {k : Nat} (hk : k < 8) :
    (payloadSy p).getLsbD k = if k < 5 then p.getLsbD (7 + k) else p.getLsbD (21 + (k - 5)) := by
  rw [payloadSy, BitVec.getLsbD_append, BitVec.getLsbD_extractLsb', BitVec.getLsbD_extractLsb']
  split
  · next h => simp [h]
  · simp [show k - 5 < 3 by omega]

theorem validPayload_iff (p : PayloadBits) :
    validPayload p = true ↔
      p.getLsbD 0 = true ∧ p.getLsbD 12 = true ∧ p.extractLsb' 1 6 = crc6 (payloadSx p) (payloadSy p) := by
  simp only [validPayload, Bool.and_eq_true, beq_iff_eq, and_assoc]

/-- Bit by bit: a payload's markers and its CRC are determined by the section that it carries. -/
theorem payload_of_valid {p : PayloadBits} (h : validPayload p = true) : payload (payloadSx p) (payloadSy p) = p := by
  obtain ⟨hMA, hMB, hcrc⟩ := (validPayload_iff p).mp h
  apply BitVec.eq_of_getLsbD_eq
  intro k hk
  rw [payload_getLsbD, ← hcrc]
  split_ifs with h1 h7 h12 h13 h21
  · obtain rfl : k = 0 := by omega
    exact hMA.symm
  · rw [BitVec.getLsbD_extractLsb', show 1 + (k - 1) = k by omega]
    simp [show k - 1 < 6 by omega]
  · rw [payloadSy_getLsbD p (by omega), if_pos (by omega), show 7 + (k - 7) = k by omega]
  · obtain rfl : k = 12 := by omega
    exact hMB.symm
  · rw [payloadSx_getLsbD p (by omega), show 13 + (k - 13) = k by omega]
  · rw [payloadSy_getLsbD p (by omega), if_neg (by omega), show 21 + (k - 16 - 5) = k by omega]

theorem payload_crc (sx sy : BitVec 8) {k : Nat} (hk : k < 6) :
    (payload sx sy).getLsbD (1 + k) = (crc6 sx sy).getLsbD k := by
  rw [payload_getLsbD, if_neg (by omega), if_pos (by omega), Nat.add_sub_cancel_left]

theorem validPayload_payload (sx sy : BitVec 8) : validPayload (payload sx sy) = true := by
  rw [validPayload_iff, payloadSx_payload, payloadSy_payload]
  refine ⟨by simp [payload_getLsbD], by simp [payload_getLsbD], BitVec.eq_of_getLsbD_eq fun k hk => ?_⟩
  rw [BitVec.getLsbD_extractLsb', payload_crc sx sy hk]
  simp [hk]

theorem validPayload_iff_exists (p : PayloadBits) : validPayload p = true ↔ ∃ sx sy, p = payload sx sy := by
  constructor
  · exact fun h => ⟨_, _, (payload_of_valid h).symm⟩
  · rintro ⟨sx, sy, rfl⟩
    exact validPayload_payload sx sy

/-- Settles O20: the bits of a payload by their place, and a valid payload from the section it carries. -/
theorem validPayloadsAreExactlyTheEncoded : Obligations.ValidPayloadsAreExactlyTheEncoded := by
  unfold Obligations.ValidPayloadsAreExactlyTheEncoded
  refine ⟨fun sx sy => ⟨?_, ?_, fun k => payload_crc sx sy, fun k hk => ?_, fun k hk => ?_, fun k hk => ?_⟩,
    by decide +kernel, fun p => ⟨validPayload_iff p, validPayload_iff_exists p⟩⟩
  all_goals rw [payload_getLsbD]
  · simp
  · simp
  · simp (disch := omega) only [if_neg, if_pos, Nat.add_sub_cancel_left]
  · simp (disch := omega) only [if_neg, if_pos, Nat.add_sub_cancel_left]
  · simp (disch := omega) only [if_neg, if_pos]
    rw [show 21 + k - 16 = 5 + k by omega]

/-! ### Phase coverage (43_decode.md R184, 42_encode.md R160) -/

theorem coversPhases_mono {n m p : Nat} (hnm : n ≤ m) (h : coversPhases n p = true) : coversPhases m p = true := by
  rw [coversPhases_iff] at h ⊢
  intro rho hrho
  obtain ⟨i, hi, hphase⟩ := h rho hrho
  exact ⟨i, by omega, hphase⟩

/-- How many indices from p the phases need, as 42_encode.md R160 tables it. -/
def neededFrom (p : Nat) : Nat := if p ≤ 57 then 6 else if p ≤ 60 then 9 else if p = 61 then 8 else 7

theorem neededFrom_is_least : ∀ p < 63,
    coversPhases (neededFrom p) p = true ∧ coversPhases (neededFrom p - 1) p = false := by decide +kernel

theorem coversPhases_iff_neededFrom {n p : Nat} (hp : p < 63) : coversPhases n p = true ↔ neededFrom p ≤ n := by
  obtain ⟨henough, hless⟩ := neededFrom_is_least p hp
  refine ⟨fun h => ?_, fun h => coversPhases_mono h henough⟩
  by_contra hn
  rw [coversPhases_mono (by omega) h] at hless
  cases hless

/-- In a grid that covers every phase, the first occurrence of slot k < 12 is an A address cell of that slot. -/
theorem firstOf_slotA {rows cols pr pc k : Nat} (hr : coversPhases rows pr = true) (hc : coversPhases cols pc = true)
    (hk : k < 12) :
    firstOf rows pr (k / 2) < rows ∧ firstOf cols pc (3 * (k % 2)) < cols ∧
    isAddressPhase (phase (pc + firstOf cols pc (3 * (k % 2)))) = true ∧
    slotA (phase (pr + firstOf rows pr (k / 2))) (phase (pc + firstOf cols pc (3 * (k % 2)))) = k := by
  obtain ⟨hi, hrho, _⟩ := firstOf_spec hr (rho := k / 2) (by omega)
  obtain ⟨hj, hgamma, _⟩ := firstOf_spec hc (rho := 3 * (k % 2)) (by omega)
  have hcell : isAddressPhase (3 * (k % 2)) = true := isAddressPhase_three_mul (by omega)
  rw [hrho, hgamma]
  exact ⟨hi, hj, hcell, (slotA_eq_iff k hcell).mpr ⟨rfl, rfl⟩⟩

/-- In a grid that covers every phase, the first occurrence of slot 12 + k is a B address cell of that slot. -/
theorem firstOf_slotB {rows cols pr pc k : Nat} (hr : coversPhases rows pr = true) (hc : coversPhases cols pc = true)
    (hk : k < 12) :
    firstOf rows pr (3 * (k / 6)) < rows ∧ firstOf cols pc (k % 6) < cols ∧
    isAddressPhase (phase (pr + firstOf rows pr (3 * (k / 6)))) = true ∧
    slotB (phase (pr + firstOf rows pr (3 * (k / 6)))) (phase (pc + firstOf cols pc (k % 6))) = 12 + k := by
  obtain ⟨hi, hrho, _⟩ := firstOf_spec hr (rho := 3 * (k / 6)) (by omega)
  obtain ⟨hj, hgamma, _⟩ := firstOf_spec hc (rho := k % 6) (by omega)
  have hcell : isAddressPhase (3 * (k / 6)) = true := isAddressPhase_three_mul (by omega)
  rw [hrho, hgamma]
  exact ⟨hi, hj, hcell, (slotB_eq_iff k (by omega) hcell).mpr ⟨rfl, rfl⟩⟩

/-- Settles O26: coverage is monotone in the size, so the table is checked at its own sizes and one below. -/
theorem phaseCoverageNeedsTheTabledSize : Obligations.PhaseCoverageNeedsTheTabledSize := by
  unfold Obligations.PhaseCoverageNeedsTheTabledSize
  refine ⟨fun n p => ⟨coversPhases_iff n p, fun rho hrho hc => firstOf_spec hc hrho⟩,
    fun n p => coversPhases_iff_neededFrom, fun rows cols pr pc k hr hc => ⟨fun hk => ?_, fun hlo hhi => ?_⟩⟩
  · exact ⟨_, _, firstOf_slotA hr hc hk⟩
  · obtain ⟨k, rfl⟩ := Nat.exists_eq_add_of_le hlo
    exact ⟨_, _, firstOf_slotB hr hc (by omega)⟩

/-! ### DecodeSection (43_decode.md R185 to R188) -/

/-- Where every slot occurs, the copies can agree with the extracted payload only: it is read from them. -/
theorem extractPayload_eq_of_copiesConsistent {s : State} {rows cols : Nat} {g : Nat → Nat → Dot} {pc pr : Nat}
    {p : PayloadBits} (hr : coversPhases rows pr = true) (hc : coversPhases cols pc = true)
    (h : copiesConsistent s rows cols g pc pr p = true) : extractPayload s rows cols g pc pr = p := by
  rw [copiesConsistent_iff] at h
  apply BitVec.eq_of_getLsbD_eq
  intro k hk
  rw [extractPayload_getLsbD _ _ _ _ _ _ _ hk, extractBit]
  split
  · next hA =>
    obtain ⟨hi, hj, hcell, hslot⟩ := firstOf_slotA hr hc hA
    have hcopy := ((cellConsistent_iff ..).mp (h _ _ hi hj)).1 hcell
    rwa [hslot] at hcopy
  · next hB =>
    obtain ⟨k, rfl⟩ := Nat.exists_eq_add_of_le (Nat.le_of_not_lt hB)
    rw [Nat.add_sub_cancel_left]
    obtain ⟨hi, hj, hcell, hslot⟩ := firstOf_slotB hr hc (show k < 12 by omega)
    have hcopy := ((cellConsistent_iff ..).mp (h _ _ hi hj)).2 hcell
    rwa [hslot] at hcopy

/-- DecodeSection finds a section exactly where every phase occurs and every copy agrees with the section's payload. -/
theorem decodeSection_eq_found_iff {s : State} {rows cols : Nat} {g : Nat → Nat → Dot} {pc pr : Nat}
    {sx sy : BitVec 8} :
    decodeSection s rows cols g pc pr = .found sx sy ↔
      pc < 63 ∧ pr < 63 ∧ coversPhases rows pr = true ∧ coversPhases cols pc = true ∧
      copiesConsistent s rows cols g pc pr (payload sx sy) = true := by
  rw [decodeSection_found]
  constructor
  · rintro ⟨hpc, hpr, hr, hc, hcopies, hvalid, rfl, rfl⟩
    rw [payload_of_valid hvalid]
    exact ⟨hpc, hpr, hr, hc, hcopies⟩
  · rintro ⟨hpc, hpr, hr, hc, hcopies⟩
    rw [extractPayload_eq_of_copiesConsistent hr hc hcopies]
    exact ⟨hpc, hpr, hr, hc, hcopies, validPayload_payload sx sy, payloadSx_payload sx sy, payloadSy_payload sx sy⟩

/-- Settles O30: what the consistency of the copies with Payload(sx, sy) says, cell by cell. -/
theorem sectionFoundIffEveryCopyCarriesIt : Obligations.SectionFoundIffEveryCopyCarriesIt := by
  unfold Obligations.SectionFoundIffEveryCopyCarriesIt
  intro s rows cols g pc pr sx sy
  simp only [decodeSection_eq_found_iff, copiesConsistent_iff, cellConsistent_iff, undoA, undoB]

theorem decodeSection_badArg (s : State) (rows cols : Nat) (g : Nat → Nat → Dot) {pc pr : Nat} (h : 63 ≤ pc ∨ 63 ≤ pr) :
    decodeSection s rows cols g pc pr = .badArg := by
  simp [decodeSection, h]

theorem decodeSection_tooSmall (s : State) {rows cols : Nat} (g : Nat → Nat → Dot) {pc pr : Nat} (hpc : pc < 63)
    (hpr : pr < 63) (h : coversPhases rows pr = false ∨ coversPhases cols pc = false) :
    decodeSection s rows cols g pc pr = .tooSmall := by
  simp [decodeSection, Nat.not_le.mpr hpc, Nat.not_le.mpr hpr, h]

theorem decodeSection_covered (s : State) {rows cols : Nat} (g : Nat → Nat → Dot) {pc pr : Nat} (hpc : pc < 63)
    (hpr : pr < 63) (hr : coversPhases rows pr = true) (hc : coversPhases cols pc = true) :
    decodeSection s rows cols g pc pr = checkPayload s rows cols g pc pr (extractPayload s rows cols g pc pr) := by
  simp [decodeSection, Nat.not_le.mpr hpc, Nat.not_le.mpr hpr, hr, hc]

theorem checkPayload_mismatch {s : State} {rows cols : Nat} {g : Nat → Nat → Dot} {pc pr : Nat} {p : PayloadBits}
    (h : copiesConsistent s rows cols g pc pr p = false ∨ validPayload p = false) :
    checkPayload s rows cols g pc pr p = .checksumMismatch := by
  obtain h | h := h <;> simp [checkPayload, h]

theorem checkPayload_found {s : State} {rows cols : Nat} {g : Nat → Nat → Dot} {pc pr : Nat} {p : PayloadBits}
    (hcopies : copiesConsistent s rows cols g pc pr p = true) (hvalid : validPayload p = true) :
    checkPayload s rows cols g pc pr p = .found (payloadSx p) (payloadSy p) := by
  simp [checkPayload, hcopies, hvalid]

/-! ### The common checks of the decode commands (60_exceptions.md R232) -/

theorem decodeGuard_notBuilt {s : State} (hb : s.built = false) : decodeGuard s = some .notBuilt := by
  simp [decodeGuard, hb]

theorem decodeGuard_badView {s : State} (hb : s.built = true)
    (h : s.matDim.rows.toNat < s.viewOrg.row0.toNat + s.viewDim.rows.toNat ∨
      s.matDim.cols.toNat < s.viewOrg.col0.toNat + s.viewDim.cols.toNat) : decodeGuard s = some .badView := by
  have hv : ¬ viewInBounds s = true := by
    rw [viewInBounds_iff]
    omega
  simp [decodeGuard, hb, hv]

theorem decodeGuard_eq_none {s : State} (hb : s.built = true)
    (hr : s.viewOrg.row0.toNat + s.viewDim.rows.toNat ≤ s.matDim.rows.toNat)
    (hc : s.viewOrg.col0.toNat + s.viewDim.cols.toNat ≤ s.matDim.cols.toNat) : decodeGuard s = none := by
  simp [decodeGuard, hb, (viewInBounds_iff s).mpr ⟨hr, hc⟩]

/-- A decode command whose common checks fail reports it and writes nothing else. -/
theorem exec_of_decodeGuard {i : Instr} {s : State} {c : Code} (hi : i = .decpos ∨ i = .decsec ∨ i = .decrot)
    (h : decodeGuard s = some c) : exec i s = .next (s.complete c) := by
  obtain rfl | rfl | rfl := hi
  · simp [exec, execDecpos, h]
  · simp [exec, execDecsec, h]
  · simp [exec, execDecrot, h]

theorem exec_decpos_of_admitted {s : State} (h : decodeGuard s = none) :
    exec .decpos s = finishPosition s (decodePosition s (viewRows s) (viewCols s) (viewDot s)) := by
  simp [exec, execDecpos, h]

theorem exec_decsec_of_admitted {s : State} (h : decodeGuard s = none) :
    exec .decsec s =
      finishSection s (decodeSection s (viewRows s) (viewCols s) (viewDot s) (argCol s) (argRow s)) := by
  simp [exec, execDecsec, h]

theorem exec_decrot_of_admitted {s : State} (h : decodeGuard s = none) :
    exec .decrot s = finishRotation s (decodeRotation s (viewRows s) (viewCols s) (viewDot s)) := by
  simp [exec, execDecrot, h]

/-! ### DECPOS (43_decode.md R181 to R183) -/

theorem decodePosition_tooSmall (s : State) {rows cols : Nat} (g : Nat → Nat → Dot) (h : rows < 6 ∨ cols < 6) :
    decodePosition s rows cols g = .tooSmall := by
  simp [decodePosition, h]

theorem decodePosition_miss {s : State} {rows cols : Nat} {g : Nat → Nat → Dot} (hr : 6 ≤ rows) (hc : 6 ≤ cols)
    (h : lutGet s.lutR (windowA g) = none ∨ lutGet s.lutC (windowB g) = none) :
    decodePosition s rows cols g = .invalidWindow (windowA g) (windowB g) := by
  obtain ⟨hs, _⟩ | ⟨_, _, _, h'⟩ | ⟨_, _, _, _, hrow, hcol, _⟩ := decodePosition_cases s rows cols g
  · omega
  · exact h'
  · simp [hrow, hcol] at h

theorem decodePosition_hit {s : State} {rows cols : Nat} {g : Nat → Nat → Dot} {row col : BitVec 6} (hr : 6 ≤ rows)
    (hc : 6 ≤ cols) (hrow : lutGet s.lutR (windowA g) = some row) (hcol : lutGet s.lutC (windowB g) = some col) :
    decodePosition s rows cols g = .position (col.toNat % 63) (row.toNat % 63) (windowA g) (windowB g) := by
  simp [decodePosition, Nat.not_lt.mpr hr, Nat.not_lt.mpr hc, hrow, hcol]

/-- Settles O27: the answers of DecodePosition on the view, after the common checks. -/
theorem decposFollowsItsRule : Obligations.DecposFollowsItsRule := by
  unfold Obligations.DecposFollowsItsRule
  refine ⟨rfl, fun s => ⟨fun hb => ?_, fun hb hview => ?_, fun hb hr hc => ?_⟩⟩
  · exact exec_of_decodeGuard (.inl rfl) (decodeGuard_notBuilt hb)
  · exact exec_of_decodeGuard (.inl rfl) (decodeGuard_badView hb hview)
  · rw [exec_decpos_of_admitted (decodeGuard_eq_none hb hr hc)]
    refine ⟨fun hsmall => ?_, fun hr6 hc6 => ⟨fun hmiss => ?_, fun row col hrow hcol => ?_⟩⟩
    · exact congrArg (finishPosition s) (decodePosition_tooSmall s _ hsmall)
    · exact congrArg (finishPosition s) (decodePosition_miss hr6 hc6 hmiss)
    · exact congrArg (finishPosition s) (decodePosition_hit hr6 hc6 hrow hcol)

/-- What DECPOS writes for a result does not touch the matrix. -/
theorem finishPosition_withMatrix {s t : State} {r : PosResult} (m : Memory) (e : Nat)
    (h : finishPosition s r = .next t) :
    finishPosition { s with mat := m, epoch := e } r = .next { t with mat := m, epoch := e } := by
  cases r <;> (cases h; rfl)

/-- Settles O28: DecodePosition reads the 6 × 6 corner, and the rest of DECPOS no cell at all. -/
theorem decposReadsOnlyTheCorner : Obligations.DecposReadsOnlyTheCorner := by
  unfold Obligations.DecposReadsOnlyTheCorner
  refine ⟨fun g k hk => ⟨getLsbD_packWindow _ k hk, getLsbD_packWindow _ k hk⟩, fun s m e t u ht hu hcorner => ?_⟩
  have hguard : decodeGuard { s with mat := m, epoch := e } = decodeGuard s := rfl
  cases hg : decodeGuard s with
  | some c =>
    rw [exec_of_decodeGuard (.inl rfl) hg, Host.Outcome.next.injEq] at ht
    rw [exec_of_decodeGuard (.inl rfl) (hguard.trans hg), Host.Outcome.next.injEq] at hu
    rw [← ht, ← hu]
    rfl
  | none =>
    rw [exec_decpos_of_admitted hg] at ht
    rw [exec_decpos_of_admitted (hguard.trans hg), decodePosition_congr rfl rfl hcorner] at hu
    exact Host.Outcome.next.inj (hu.symm.trans (finishPosition_withMatrix m e ht))

/-! ### DECSEC (43_decode.md R189) -/

/-- Settles O29: the answers of DecodeSection on the view, after the common checks. -/
theorem decsecFollowsItsRule : Obligations.DecsecFollowsItsRule := by
  unfold Obligations.DecsecFollowsItsRule
  refine ⟨rfl, fun s => ⟨fun hb => ?_, fun hb hview => ?_, fun hb hr hc => ?_⟩⟩
  · exact exec_of_decodeGuard (.inr (.inl rfl)) (decodeGuard_notBuilt hb)
  · exact exec_of_decodeGuard (.inr (.inl rfl)) (decodeGuard_badView hb hview)
  · rw [exec_decsec_of_admitted (decodeGuard_eq_none hb hr hc)]
    refine ⟨fun harg => ?_, fun hpc hpr => ⟨fun hsmall => ?_, fun hcr hcc => ?_⟩⟩
    · exact congrArg (finishSection s) (decodeSection_badArg s _ _ _ harg)
    · exact congrArg (finishSection s) (decodeSection_tooSmall s _ hpc hpr hsmall)
    · rintro p rfl
      have hcheck := decodeSection_covered s (viewDot s) hpc hpr hcr hcc
      exact ⟨fun hbad => congrArg (finishSection s) (hcheck.trans (checkPayload_mismatch hbad)),
        fun hcopies hvalid => congrArg (finishSection s) (hcheck.trans (checkPayload_found hcopies hvalid))⟩

/-! ### Rotated grids (43_decode.md R190, R191) -/

/-- Four quarter-turns of a cell's channels. -/
@[simp] theorem rotDir_four (d : Dot) : rotDir (rotDir (rotDir (rotDir d))) = d := by
  simp [rotDir]

/-- Counting an index from the other end twice gives it back. -/
theorem sub_one_sub_self {n i : Nat} (h : i < n) : n - 1 - (n - 1 - i) = i :=
  Nat.sub_sub_self (Nat.le_sub_one_of_lt h)

/-- Rot_1 turns the grid that Rot_3 turned back to the original. -/
theorem rotCell_one_three (rows cols : Nat) (g : Nat → Nat → Dot) :
    GridsAgree rows cols (rotCell 1 cols rows (rotCell 3 rows cols g)) g := by
  intro i j _ hj
  simp only [rotCell, sub_one_sub_self hj, rotDir_four]

/-- Rot_2 turns the grid that Rot_3 turned twice back to the original. -/
theorem rotCell_two_three_three (rows cols : Nat) (g : Nat → Nat → Dot) :
    GridsAgree rows cols (rotCell 2 rows cols (rotCell 3 cols rows (rotCell 3 rows cols g))) g := by
  intro i j hi hj
  simp only [rotCell, sub_one_sub_self hi, sub_one_sub_self hj, rotDir_four]

/-- Rot_3 turns the grid that Rot_3 turned three times back to the original. -/
theorem rotCell_three_three_three_three (rows cols : Nat) (g : Nat → Nat → Dot) :
    GridsAgree rows cols
      (rotCell 3 cols rows (rotCell 3 rows cols (rotCell 3 cols rows (rotCell 3 rows cols g)))) g := by
  intro i j hi hj
  simp only [rotCell, sub_one_sub_self hi, sub_one_sub_self hj, rotDir_four]

/-- Settles O31: the channels turn by their table; the indices, by counting from the other end. -/
theorem quarterTurnsCompose : Obligations.QuarterTurnsCompose := by
  unfold Obligations.QuarterTurnsCompose
  refine ⟨by decide, fun rows cols g i j => ⟨⟨rfl, rfl, rfl, rfl⟩, ⟨rfl, rfl, rfl, ?_⟩, fun _ _ => rfl,
    fun _ hj => ?_, rotCell_one_three rows cols g i j, fun _ _ => ?_⟩⟩
  · simp [rotCell, rotDir]
  · simp only [rotCell, sub_one_sub_self hj]
  · simp only [rotCell, Nat.sub_self]

/-! ### DecodeRotation (43_decode.md R192, R193) -/

theorem gridValidates_iff (s : State) (rows cols : Nat) (g : Nat → Nat → Dot) :
    gridValidates s rows cols g = true ↔
      ∃ pc pr wA wB sx sy, decodePosition s rows cols g = .position pc pr wA wB ∧
        decodeSection s rows cols g pc pr = .found sx sy := by
  unfold gridValidates
  cases decodePosition s rows cols g with
  | tooSmall | invalidWindow => simp
  | position pc pr wA wB => cases hsec : decodeSection s rows cols g pc pr <;> simp [hsec]

/-- Settles O36: turning a turned grid back changes no cell of it, and validation reads no other. -/
theorem turnedCaptureValidatesAtItsTurn : Obligations.TurnedCaptureValidatesAtItsTurn := by
  unfold Obligations.TurnedCaptureValidatesAtItsTurn
  exact fun s rows cols g => ⟨gridValidates_iff s rows cols g, rfl, gridValidates_congr (rotCell_one_three rows cols g),
    gridValidates_congr (rotCell_two_three_three rows cols g),
    gridValidates_congr (rotCell_three_three_three_three rows cols g)⟩

/-- Turn d is the only one that p accepts. -/
def OnlyTurn (p : Fin 4 → Bool) (d : Fin 4) : Prop := p d = true ∧ ∀ d', d' ≠ d → p d' = false

theorem mem_allTurns : ∀ d : Fin 4, d ∈ allTurns := by decide

theorem filter_beq_allTurns : ∀ d : Fin 4, allTurns.filter (· == d) = [d] := by decide

theorem filter_allTurns_eq_singleton_iff (p : Fin 4 → Bool) (d : Fin 4) :
    allTurns.filter p = [d] ↔ OnlyTurn p d := by
  constructor
  · intro h
    have hp : ∀ d', p d' = true ↔ d' = d := fun d' => by
      simpa [h, mem_allTurns] using (List.mem_filter (x := d') (p := p) (as := allTurns)).symm
    exact ⟨(hp d).mpr rfl, fun d' hne => Bool.eq_false_iff.mpr (mt (hp d').mp hne)⟩
  · rintro ⟨hd, hother⟩
    have hp : ∀ d' ∈ allTurns, p d' = (d' == d) := fun d' _ => by
      by_cases h : d' = d
      · simp [h, hd]
      · simp [h, hother d' h]
    rw [List.filter_congr hp, filter_beq_allTurns]

section
variable {s : State} {rows cols : Nat} {g : Nat → Nat → Dot}

theorem decodeRotation_tooSmall (h : rows < 6 ∨ cols < 6) : decodeRotation s rows cols g = .tooSmall := by
  simp [decodeRotation, h]

theorem decodeRotation_only (hr : 6 ≤ rows) (hc : 6 ≤ cols) {d : Fin 4}
    (h : OnlyTurn (candidateValidates s rows cols g) d) : decodeRotation s rows cols g = .rotation d := by
  simp [decodeRotation, Nat.not_lt.mpr hr, Nat.not_lt.mpr hc, (filter_allTurns_eq_singleton_iff _ _).mpr h]

theorem decodeRotation_ambiguous (hr : 6 ≤ rows) (hc : 6 ≤ cols)
    (h : ¬ ∃ d, OnlyTurn (candidateValidates s rows cols g) d) : decodeRotation s rows cols g = .ambiguous := by
  simp only [decodeRotation, Config.order, Nat.not_lt.mpr hr, Nat.not_lt.mpr hc, decide_false, Bool.or_self,
    Bool.false_eq_true, if_false]
  split
  · next d hd => exact absurd ⟨d, (filter_allTurns_eq_singleton_iff _ _).mp hd⟩ h
  · rfl

/-- A grid that validates as it is can only get the answer that it is upright, or none. -/
theorem decodeRotation_of_upright (hr : 6 ≤ rows) (hc : 6 ≤ cols) (h : candidateValidates s rows cols g 0 = true) :
    decodeRotation s rows cols g = .rotation 0 ∨ decodeRotation s rows cols g = .ambiguous := by
  by_cases honly : ∃ d, OnlyTurn (candidateValidates s rows cols g) d
  · obtain ⟨d, hd⟩ := honly
    obtain rfl : d = 0 := by
      by_contra hne
      exact absurd h (Bool.eq_false_iff.mp (hd.2 0 (Ne.symm hne)))
    exact .inl (decodeRotation_only hr hc hd)
  · exact .inr (decodeRotation_ambiguous hr hc honly)

end

/-! ### DECROT (43_decode.md R194) -/

/-- Settles O32: the answers of DecodeRotation on the view, after the common checks. -/
theorem decrotFollowsItsRule : Obligations.DecrotFollowsItsRule := by
  unfold Obligations.DecrotFollowsItsRule
  refine ⟨rfl, fun s rows cols g d => gridValidates_iff s _ _ _,
    fun s => ⟨fun hb => ?_, fun hb hview => ?_, fun hb hr hc => ?_⟩⟩
  · exact exec_of_decodeGuard (.inr (.inr rfl)) (decodeGuard_notBuilt hb)
  · exact exec_of_decodeGuard (.inr (.inr rfl)) (decodeGuard_badView hb hview)
  · rw [exec_decrot_of_admitted (decodeGuard_eq_none hb hr hc)]
    refine ⟨fun hsmall => ?_, fun hr6 hc6 => ⟨fun d hd hother => ?_, fun hnone => ?_⟩⟩
    · exact congrArg (finishRotation s) (decodeRotation_tooSmall hsmall)
    · exact congrArg (finishRotation s) (decodeRotation_only hr6 hc6 ⟨hd, hother⟩)
    · exact congrArg (finishRotation s) (decodeRotation_ambiguous hr6 hc6 hnone)

/-! ### A view of an encoded matrix (42_encode.md R156, R159) -/

/-- The cells that ENCODE writes from s, seen from cell (row0, col0). -/
def encodedGrid (s : State) (row0 col0 i j : Nat) : Dot :=
  embed s.rowSeq s.colSeq (s.argSec.sx.setWidth 8) (s.argSec.sy.setWidth 8) (row0 + i) (col0 + j)

/-- Three bits of which two are b have the majority b. -/
theorem maj_eq_of_maj_beq : ∀ {x y z b : Bool}, maj (x == b) (y == b) (z == b) = true → maj x y z = b := by decide

theorem windowA_encodedGrid (s : State) (row0 col0 : Nat) : windowA (encodedGrid s row0 col0) = window s.rowSeq row0 :=
  packWindow_congr fun i _ => maj_eq_of_maj_beq (baseBitsSurviveInTwoOfThree.2 _ _ _ _ (row0 + i) col0).1

theorem windowB_encodedGrid (s : State) (row0 col0 : Nat) : windowB (encodedGrid s row0 col0) = window s.colSeq col0 :=
  packWindow_congr fun j _ => maj_eq_of_maj_beq (baseBitsSurviveInTwoOfThree.2 _ _ _ _ row0 (col0 + j)).2

theorem phase_mod_add (x k : Nat) : phase (x % 63 + k) = phase (x + k) := by
  simp only [phase, Config.seqLen, Nat.mod_add_mod]

theorem seqBit_mod_add (q : SeqBits) (x k : Nat) : seqBit q (x % 63 + k) = seqBit q (x + k) := by
  simp only [seqBit, Config.seqLen, Nat.mod_add_mod]

/-- A payload bit is what is left of a cell's channel when its base bit is undone (43_decode.md R185). -/
theorem xor_base_undone (base bit : Bool) : ((base ^^ bit) ^^ base) = bit := by
  rw [Bool.xor_comm, ← Bool.xor_assoc, Bool.xor_self, Bool.false_xor]

/-- Every address cell of an encoded grid carries its bit of the encoded payload over the base bit. -/
theorem copiesConsistent_encodedGrid (s : State) (rows cols row0 col0 : Nat) :
    copiesConsistent s rows cols (encodedGrid s row0 col0) (col0 % 63) (row0 % 63)
      (payload (s.argSec.sx.setWidth 8) (s.argSec.sy.setWidth 8)) = true := by
  rw [copiesConsistent_iff]
  intro i j _ _
  rw [cellConsistent_iff, phase_mod_add, phase_mod_add, undoA, undoB, seqBit_mod_add, seqBit_mod_add]
  refine ⟨fun hcell => ?_, fun hcell => ?_⟩
  · rw [encodedGrid, embed_a_of_address hcell, xor_base_undone]
  · rw [encodedGrid, embed_b_of_address hcell, xor_base_undone]

/-- State v has the tables of s, and its view, which passes the common checks of the decode commands, shows cells that
ENCODE writes from s. -/
structure ShowsEncoded (s v : State) : Prop where
  rowSeq : v.rowSeq = s.rowSeq
  colSeq : v.colSeq = s.colSeq
  lutR : v.lutR = s.lutR
  lutC : v.lutC = s.lutC
  guard : decodeGuard v = none
  cells : GridsAgree (viewRows v) (viewCols v) (viewDot v) (encodedGrid s (viewRow0 v) (viewCol0 v))

theorem built_of_encode_ok {s t : State} (h : exec .encode s = .next t) (hok : t.errcode = .ok) : s.built = true := by
  by_contra hb
  obtain rfl := Host.Outcome.next.inj (h.symm.trans ((encodeFollowsItsRule.2.2 s).1 (Bool.eq_false_iff.mpr hb)))
  cases hok

/-- An in-bounds view set after a successful ENCODE shows what it wrote. -/
theorem showsEncoded_of_encode_ok {s t : State} (h : exec .encode s = .next t) (hok : t.errcode = .ok) {org : Origin}
    {dim : Dims} (pos : Position) (hr : org.row0.toNat + dim.rows.toNat ≤ t.matDim.rows.toNat)
    (hc : org.col0.toNat + dim.cols.toNat ≤ t.matDim.cols.toNat) :
    ShowsEncoded s { t with viewOrg := org, viewDim := dim, argPos := pos } := by
  have hb := built_of_encode_ok h hok
  obtain ⟨hC, _, _, rfl⟩ := encoded_of_encode_ok h hok
  refine ⟨rfl, rfl, rfl, rfl, decodeGuard_eq_none hb hr hc, fun i j hi hj => ?_⟩
  exact (dotAt_congr rfl rfl _ _).trans
    (dotAt_encoded s hC (Nat.lt_of_lt_of_le (Nat.add_lt_add_left hi _) hr)
      (Nat.lt_of_lt_of_le (Nat.add_lt_add_left hj _) hc))

/-! ### Round trips (43_decode.md R195) -/

theorem lutGet_window_of_generate {taps seed : BitVec 6} {q : SeqBits} {t : Lut} (hgen : generate taps seed = (q, true))
    (hlut : buildLut q = (t, false)) (i : Nat) : lutGet t (window q i) = some (BitVec.ofNat 6 (i % 63)) := by
  obtain ⟨rfl, hmax⟩ := Prod.mk.inj hgen
  have h := lutGet_window hmax (Nat.mod_lt i (by decide : 63 > 0))
  rwa [hlut, window_mod] at h

theorem toNat_ofNat_mod_63 (i : Nat) : (BitVec.ofNat 6 (i % 63)).toNat % 63 = i % 63 := by
  rw [BitVec.toNat_ofNat]
  omega

theorem ShowsEncoded.decodePosition_eq {s v : State} (hv : ShowsEncoded s v) (ht : s.TablesBuilt) (hr : 6 ≤ viewRows v)
    (hc : 6 ≤ viewCols v) :
    decodePosition v (viewRows v) (viewCols v) (viewDot v) =
      .position (viewCol0 v % 63) (viewRow0 v % 63) (window s.rowSeq (viewRow0 v)) (window s.colSeq (viewCol0 v)) := by
  have hcorner : GridsAgree 6 6 (viewDot v) (encodedGrid s (viewRow0 v) (viewCol0 v)) :=
    fun i j hi hj => hv.cells i j (by omega) (by omega)
  have hrow := lutGet_window_of_generate ht.rowSeq ht.lutR (viewRow0 v)
  have hcol := lutGet_window_of_generate ht.colSeq ht.lutC (viewCol0 v)
  rw [← windowA_encodedGrid s (viewRow0 v) (viewCol0 v)] at hrow ⊢
  rw [← windowB_encodedGrid s (viewRow0 v) (viewCol0 v)] at hcol ⊢
  rw [decodePosition_congr hv.lutR hv.lutC hcorner, decodePosition_hit hr hc hrow hcol, toNat_ofNat_mod_63,
    toNat_ofNat_mod_63]

theorem ShowsEncoded.decodeSection_eq {s v : State} (hv : ShowsEncoded s v)
    (hr : coversPhases (viewRows v) (viewRow0 v % 63) = true)
    (hc : coversPhases (viewCols v) (viewCol0 v % 63) = true) :
    decodeSection v (viewRows v) (viewCols v) (viewDot v) (viewCol0 v % 63) (viewRow0 v % 63) =
      .found (s.argSec.sx.setWidth 8) (s.argSec.sy.setWidth 8) := by
  rw [decodeSection_congr hv.rowSeq hv.colSeq hv.cells, decodeSection_eq_found_iff]
  exact ⟨Nat.mod_lt _ (by decide), Nat.mod_lt _ (by decide), hr, hc, copiesConsistent_encodedGrid ..⟩

/-- Settles O33: the majority windows of the view are base windows, and the tables find them. -/
theorem positionRoundTrip : Obligations.PositionRoundTrip := by
  unfold Obligations.PositionRoundTrip
  rintro s t v org dim hinv h hok rfl hr hc hr6 hc6
  have hv := showsEncoded_of_encode_ok h hok t.argPos hr hc
  rw [exec_decpos_of_admitted hv.guard, hv.decodePosition_eq (hinv.tables (built_of_encode_ok h hok)) hr6 hc6]
  rfl

/-- An address in range survives the way through the 8-bit coordinates of a section. -/
theorem SectionAddr.setWidth_setWidth {x : SectionAddr} (hx : x.sx.toNat < 256) (hy : x.sy.toNat < 256) :
    ({ sx := (x.sx.setWidth 8).setWidth 16, sy := (x.sy.setWidth 8).setWidth 16 } : SectionAddr) = x := by
  obtain ⟨sx, sy⟩ := x
  rw [SectionAddr.mk.injEq]
  constructor <;> bv_omega

/-- Settles O34: every copy in the view agrees with the encoded payload. -/
theorem sectionRoundTrip : Obligations.SectionRoundTrip := by
  unfold Obligations.SectionRoundTrip
  rintro s t v org dim pos h hok rfl hr hc hcol hrow hcr hcc
  have hv := showsEncoded_of_encode_ok h hok pos hr hc
  obtain ⟨_, hsx, hsy, _⟩ := encoded_of_encode_ok h hok
  rw [hrow] at hcr
  rw [hcol] at hcc
  have hsec := hv.decodeSection_eq hcr hcc
  rw [exec_decsec_of_admitted hv.guard, argCol, argRow, hcol, hrow]
  refine (congrArg (finishSection _) hsec).trans ?_
  rw [finishSection, State.withResSec, SectionAddr.setWidth_setWidth hsx hsy]
  rfl

/-- Candidate 0 reads the view itself, where both decodes succeed. -/
theorem ShowsEncoded.candidateValidates_zero {s v : State} (hv : ShowsEncoded s v) (ht : s.TablesBuilt)
    (hr : coversPhases (viewRows v) (viewRow0 v % 63) = true)
    (hc : coversPhases (viewCols v) (viewCol0 v % 63) = true) :
    candidateValidates v (viewRows v) (viewCols v) (viewDot v) 0 = true :=
  (gridValidates_iff ..).mpr ⟨_, _, _, _, _, _,
    hv.decodePosition_eq ht (six_le_of_coversPhases hr) (six_le_of_coversPhases hc), hv.decodeSection_eq hr hc⟩

/-- Settles O35: candidate 0 validates, so no other can be the only one. -/
theorem uprightViewNeverGetsAWrongRotation : Obligations.UprightViewNeverGetsAWrongRotation := by
  unfold Obligations.UprightViewNeverGetsAWrongRotation
  rintro s t v org dim hinv h hok rfl hr hc hcr hcc
  have hv := showsEncoded_of_encode_ok h hok t.argPos hr hc
  have hupright := hv.candidateValidates_zero (hinv.tables (built_of_encode_ok h hok)) hcr hcc
  refine ⟨hupright, ?_⟩
  rw [exec_decrot_of_admitted hv.guard]
  exact (decodeRotation_of_upright (six_le_of_coversPhases hcr) (six_le_of_coversPhases hcc) hupright).imp
    (congrArg (finishRotation _)) (congrArg (finishRotation _))

end Sys2Proof.Machine

namespace Sys2Proof.Machine

/-! ### The completion codes (60_exceptions.md R231) -/

/-- The fourteen codes, in the order of the table. -/
def Code.all : List Code :=
  [.ok, .cfgNotMaximal, .cfgLutCollision, .cfgSectionRange, .tooSmall, .invalidWindow, .checksumMismatch,
    .ambiguousOrientation, .illegalCmd, .notBuilt, .alreadyBuilt, .badView, .shapeRange, .badArg]

theorem Code.mem_all (c : Code) : c ∈ Code.all := by
  cases c <;> decide

theorem Code.nodup_map_byte_all : (Code.all.map Code.byte).Nodup := by decide

theorem Code.byte_injective : Function.Injective Code.byte := fun c d h =>
  List.inj_on_of_nodup_map Code.nodup_map_byte_all c.mem_all d.mem_all h

/-! ### The codes of each command (60_exceptions.md R232) -/

/-- The code that a command leaves is the code of its completion. -/
theorem errcode_mem_of_exec_completes {i : Instr} {s t u : State} {c : Code} {cs : List Code} (h : exec i s = .next t)
    (hi : exec i s = .next (u.complete c)) (hc : c ∈ cs) : t.errcode ∈ cs := by
  obtain rfl : u.complete c = t := Host.Outcome.next.inj (hi.symm.trans h)
  rwa [State.complete_errcode]

/-- BUILD ends in no collision: a sequence that passes MaxCheck has distinct windows (41_sequence_lut.md R124). -/
theorem errcode_mem_of_exec_build {s t : State} (h : exec .build s = .next t) :
    t.errcode ∈ [Code.ok, .alreadyBuilt, .cfgNotMaximal] := by
  obtain ⟨_, hi⟩ | ⟨_, _, hi⟩ | ⟨_, hr, hc, hcoll, _⟩ | ⟨_, _, _, _, _, hi⟩ := execBuild_cases s
  · exact errcode_mem_of_exec_completes h hi (by decide)
  · exact errcode_mem_of_exec_completes h hi (by decide)
  · obtain ⟨hrow, _⟩ := buildLut_maximal hr
    obtain ⟨hcol, _⟩ := buildLut_maximal hc
    simp [hrow, hcol] at hcoll
  · exact errcode_mem_of_exec_completes h hi (by decide)

theorem errcode_mem_of_exec_encode {s t : State} (h : exec .encode s = .next t) :
    t.errcode ∈ [Code.ok, .notBuilt, .shapeRange, .cfgSectionRange] := by
  obtain ⟨_, hi⟩ | ⟨_, _, hi⟩ | ⟨_, _, _, _, hi⟩ | ⟨_, _, _, _, _, hi⟩ := execEncode_cases s
  all_goals exact errcode_mem_of_exec_completes h hi (by decide)

theorem errcode_mem_of_exec_decpos {s t : State} (h : exec .decpos s = .next t) :
    t.errcode ∈ [Code.ok, .notBuilt, .badView, .tooSmall, .invalidWindow] := by
  obtain ⟨_, _, rfl | rfl, hi⟩ | ⟨_, _, hi⟩ | ⟨_, _, _, _, hi⟩ | ⟨_, _, _, _, _, _, hi⟩ := execDecpos_cases s
  all_goals exact errcode_mem_of_exec_completes h hi (by decide)

theorem errcode_mem_of_exec_decsec {s t : State} (h : exec .decsec s = .next t) :
    t.errcode ∈ [Code.ok, .notBuilt, .badView, .badArg, .tooSmall, .checksumMismatch] := by
  obtain ⟨_, _, rfl | rfl, hi⟩ | ⟨_, _, rfl | rfl | rfl, hi⟩ | ⟨_, _, _, _, hi⟩ := execDecsec_cases s
  all_goals exact errcode_mem_of_exec_completes h hi (by decide)

theorem errcode_mem_of_exec_decrot {s t : State} (h : exec .decrot s = .next t) :
    t.errcode ∈ [Code.ok, .notBuilt, .badView, .tooSmall, .ambiguousOrientation] := by
  obtain ⟨_, _, rfl | rfl, hi⟩ | ⟨_, _, hi⟩ | ⟨_, _, hi⟩ | ⟨_, _, _, hi⟩ := execDecrot_cases s
  all_goals exact errcode_mem_of_exec_completes h hi (by decide)

/-- Settles O8: the table has no value twice, and each command completes with a code of its own list. -/
theorem codesEachCommandReports : Obligations.CodesEachCommandReports := by
  unfold Obligations.CodesEachCommandReports
  refine ⟨⟨rfl, rfl, rfl, rfl, rfl, rfl, rfl, rfl, rfl, rfl, rfl, rfl, rfl, rfl, Code.byte_injective⟩,
    fun i s t h => ?_⟩
  cases i with
  | nop => exact errcode_mem_of_exec_completes h rfl (List.mem_singleton_self _)
  | build => exact errcode_mem_of_exec_build h
  | encode => exact errcode_mem_of_exec_encode h
  | decpos => exact errcode_mem_of_exec_decpos h
  | decsec => exact errcode_mem_of_exec_decsec h
  | decrot => exact errcode_mem_of_exec_decrot h

end Sys2Proof.Machine

namespace Sys2Proof.Machine

/-! ### What reset leaves (70_reset_and_hazards.md R260) -/

/-- The flags and the code that reset leaves make STATUS read 0 (10_state.md R26). -/
theorem statusWord_afterReset (s : State) : statusWord s.afterReset = 0x00000000 := by
  have herr : s.afterReset.err = false := by simp [State.err, Code.byte]
  simp [statusWord, herr, Code.byte]

/-- After reset no cell is listed, so each is free (10_state.md R45, log 3). -/
theorem cellBits_afterReset (s : State) (off : Nat) :
    cellBits s.afterReset off = Config.resetCell (s.epoch + 1) off := by
  simp [cellBits, Memory.get]

/-- Settles O53: the fields by the reset transition's own values, STATUS, ID and the cells by what a read returns. -/
theorem resetLeavesTheTabledValues : Obligations.ResetLeavesTheTabledValues := by
  unfold Obligations.ResetLeavesTheTabledValues
  intro s
  have hid : (hostRead s.afterReset 0x000 4).resp = .data 4 0x01800806 := hostRead_regAt (r := .id) rfl
  simp [hid, statusWord_afterReset, cellBits_afterReset]

/-- Settles O58: reset lists no cell, claims no tables and zeroes MAT_DIM and the result registers. -/
theorem resetMeetsTheInvariant : Obligations.ResetMeetsTheInvariant where
  memory := rfl
  matRows := by decide
  matCols := by decide
  tables := nofun
  resCol := by decide
  resRow := by decide
  resSx := by decide
  resSy := by decide

/-! ### Reset and the command in flight (70_reset_and_hazards.md R261, R262) -/

/-- Reset forgets whatever a command has written: no command touches what reset keeps. -/
theorem CommandWrites.afterReset_eq {s u : State} (h : CommandWrites s u) : u.afterReset = s.afterReset := by
  cases h <;> rfl

/-- A reset after the engine's step leaves what a reset without it leaves. -/
theorem engineStep_afterReset {s t : State} (h : engineStep s = .next t) : t.afterReset = s.afterReset := by
  obtain ⟨_, he⟩ | ⟨_, c, u, hw, he⟩ := engineStep_cases s
  · obtain rfl : s = t := Host.Outcome.next.inj (he.symm.trans h)
    rfl
  · obtain rfl : u.complete c = t := Host.Outcome.next.inj (he.symm.trans h)
    exact hw.afterReset_eq

/-- A soft reset in the cycle of a completion: after it the engine has no step, and before it the engine's step is
forgotten. -/
theorem coincide_softReset (order : CycleOrder) (s : State) {v : Word} (hv : v.getLsbD 1 = true) :
    coincide order (.write 0x004 4 v) s = .next { s.afterReset with resp := .written } := by
  have hreset (x : State) : hostAccess (.write 0x004 4 v) x = { x.afterReset with resp := .written } :=
    hostWrite_ctrl_reset x hv
  obtain ⟨_, h⟩ | ⟨_, h⟩ | ⟨_, _, _, h⟩ := coincide_cases order (.write 0x004 4 v) s
  · rw [h, hreset]
  · rw [h, hreset, engineStep_idle _ rfl]
  · obtain ⟨t, ht, _⟩ := engineStep_next s
    simp only [h, engineThen, ht, hreset, engineStep_afterReset ht]

/-- Settles O54: the write of SRST is the reset transition, after which no command is in flight. -/
theorem resetAbandonsTheCommandInFlight : Obligations.ResetAbandonsTheCommandInFlight := by
  unfold Obligations.ResetAbandonsTheCommandInFlight
  intro s v hv
  rw [hostWrite_ctrl_reset s hv]
  exact ⟨rfl, rfl, rfl, rfl, engineStep_idle _ rfl, engineStep_idle _ rfl, fun order => coincide_softReset order s hv⟩

end Sys2Proof.Machine
